-- ==== Sys2Proof/Word.lean ====
section
/-! DEFINITION. The word and byte types (00_scope.md R7, R8). -/

namespace Sys2Proof

/-- A byte is an 8-bit unsigned value (R8). -/
abbrev Byte := BitVec 8

/-- A register is 32 bits wide, bit 0 the least significant (R7). -/
abbrev Word := BitVec 32

/-- An ordered sequence of bytes (R8). -/
abbrev Bytes := List Byte

/-- The 32-bit register value of a length, count or index. Every such number of the PCU is below 2^32 (R7). -/
abbrev wordOf (n : Nat) : Word := BitVec.ofNat 32 n

end Sys2Proof
end

