-- ==== Sys2Proof/Config.lean ====
section
/-! DEFINITION. What an implementation fixes (00_scope.md R5) and the free values the spec leaves open
(10_state.md R33, 41_cbc.md R81). -/

namespace Sys2Proof

/-- How UNPAD scans the padding region: SCAN_MODE of 00_scope.md R5, 40_padding.md R75. -/
inductive ScanMode where
  | earlyExit
  | constantTime
  deriving DecidableEq, Repr

/-- The primitive behind the port (00_scope.md R5, `Prim`). DESIGN CHOICE (log 8): `external` is the open primitive of
41_cbc.md R81, of which nothing is known; `toy4` is the spec's own test primitive (95_test_vectors.md §3.1, D34), so
that the CBC commands can be evaluated on the spec's vectors. Safe: a statement for every configuration covers both. -/
inductive PrimChoice where
  | external
  | toy4
  deriving DecidableEq, Repr

/-- The parameters of 00_scope.md R5 and BASE of 20_memory.md R40. -/
structure Config where
  /-- `BLOCK_SIZE`, the primitive's block size in bytes. -/
  blockSize : Nat
  /-- `KEY_SIZES`, the key lengths in bytes that the primitive accepts. -/
  keySizes : List Nat
  /-- `BUF_MAX`, the capacity of IN in bytes. -/
  bufMax : Nat
  scanMode : ScanMode
  prim : PrimChoice
  /-- `BASE`, the aperture's host bus address. -/
  base : Nat
  deriving DecidableEq, Repr

/-- `KEY_MAX` (R5). -/
abbrev Config.keyMax : Nat := 32

/-- `IV_MAX` (R5). -/
abbrev Config.ivMax : Nat := 256

/-- `OUT_MAX = BUF_MAX + 255` (R5). -/
abbrev Config.outMax (c : Config) : Nat := c.bufMax + 255

/-- The defaults of R5. BASE 0 is a DESIGN CHOICE (log 18). -/
def Config.default : Config where
  blockSize := 16
  keySizes := [16, 24, 32]
  bufMax := 4096
  scanMode := .earlyExit
  prim := .external
  base := 0

/-- The test configuration TOY4 of 95_test_vectors.md §3.1. -/
def Config.toy4 : Config where
  blockSize := 4
  keySizes := [4]
  bufMax := 4096
  scanMode := .earlyExit
  prim := .toy4
  base := 0

/-- FREE VALUE (log 8): lane `j` of the open primitive's answer `E k x` (R81). -/
opaque Config.freeEncLane : (key block : Bytes) → (lane : Nat) → Byte

/-- FREE VALUE (log 8): lane `j` of the open primitive's answer `D k y` (R81). -/
opaque Config.freeDecLane : (key block : Bytes) → (lane : Nat) → Byte

/-- FREE VALUE (log 7): whether the n-th request on the primitive port faults (R81, I5). -/
opaque Config.freeFault : (request : Nat) → Bool

/-- FREE VALUE (log 5): what the n-th read event finds at the aperture offset `off` when no host write and no commit
has written that byte since reset (10_state.md R33, I1). -/
opaque Config.freeByte : (event off : Nat) → Byte

end Sys2Proof
end

