-- ==== Sys2Proof/Machine/State.lean ====
section
/-! DEFINITION. The machine's state as plain data (10_state.md), its faults and refusals, and the state after reset. -/

namespace Sys2Proof.Machine

/-- STATUS.KIND (10_state.md R20). The encoding 3 is never produced (I10): it is no value of this type. -/
inductive Kind where
  | noError
  | invalidInput
  | unexpectedFault
  deriving DecidableEq, Repr

/-- STATUS.STAGE (10_state.md R21). -/
inductive Stage where
  | interface
  | pad
  | cbc
  | unpad
  deriving DecidableEq, Repr

/-- STATUS.CAUSE (60_exceptions.md R101). The reserved codes are never produced (I10): they are no values of this type. -/
inductive Cause where
  | success
  | illegalCmd
  | inLenRange
  | blockLenRange
  | unpadLen
  | padLenValue
  | padByteMismatch
  | keySize
  | dataMisaligned
  | ivLen
  | primFault
  deriving DecidableEq, Repr

/-- The fields of STATUS (10_state.md R17). The reserved bits read 0 and no write changes them, so they are no field. -/
structure Status where
  busy : Bool
  done : Bool
  kind : Kind
  stage : Stage
  cause : Cause
  accessErr : Bool
  deriving DecidableEq, Repr

/-- `Error(kind, stage, cause, info0, info1)` of 00_scope.md R9, R11. -/
structure ErrorRec where
  kind : Kind
  stage : Stage
  cause : Cause
  info0 : Word
  info1 : Word
  deriving DecidableEq, Repr

/-- The result of `Exec` (00_scope.md R11): `Ok(r)` or an error. -/
inductive CmdResult where
  | ok (r : Bytes)
  | error (e : ErrorRec)
  deriving DecidableEq, Repr

/-- A request on the primitive port (41_cbc.md R81). The handle `h_k` is named by its key `k` (log 4). -/
inductive Request where
  | setup (key : Bytes)
  | enc (handle block : Bytes)
  | dec (handle block : Bytes)
  deriving DecidableEq, Repr

/-- The sequencer's hidden state (10_state.md R34), which no command carries past its completion (R35). -/
structure Seq where
  /-- `CHAIN`. -/
  chain : Bytes
  /-- `RES`, the staged result. -/
  res : Bytes
  /-- `h`, the handle of the key it was set up with (log 4). -/
  handle : Option Bytes
  /-- `i`, the block index. -/
  blockIndex : Nat
  /-- `j`, the padding scan index: how many bytes the scan has visited (log 13). -/
  scanIndex : Nat
  /-- The pending primitive request. -/
  pending : Option Request
  deriving DecidableEq, Repr

/-- The hidden state when it is discarded (R34). -/
def Seq.discarded : Seq where
  chain := []
  res := []
  handle := none
  blockIndex := 0
  scanIndex := 0
  pending := none

/-- The primitive port as the model sees it (41_cbc.md R81): MODEL's own fields (log 6, log 7). `faults` are the fault
draws already chosen for the coming requests, `answered` numbers the free draws after them, `log` is what the PCU sent. -/
structure Port where
  faults : List Bool
  answered : Nat
  log : List Request
  deriving DecidableEq, Repr

/-- A host bus access (20_memory.md R44), by host bus address (R40). -/
inductive Access where
  | read (addr width : Nat)
  | write (addr width : Nat) (value : Word)
  deriving DecidableEq, Repr

/-- What the host sees of an access (20_memory.md R44). An accepted write and a dropped one look alike on the bus: a
dropped write is seen in STATUS.ACCESS_ERR only (60_exceptions.md R106). -/
inductive BusOutcome where
  | value (v : Word)
  | written
  | busError
  /-- The address is outside the aperture: the access does not reach the PCU (20_memory.md R40), and what the host sees
  of it is the platform's (log 10). -/
  | outside
  deriving DecidableEq, Repr

/-- The next thing the host does: an access, or the `wait` loop of 30_encoding.md R68. -/
inductive HostStep where
  | access (a : Access)
  | wait
  deriving DecidableEq, Repr

/-- Who acts (00_scope.md R10). -/
inductive Turn where
  /-- The host makes its next access. -/
  | host
  /-- The sequencer takes its *complete* step, where it is enabled (10_state.md R18). -/
  | sequencer
  /-- The sequencer gets on with a running command up to its next primitive request: only hidden state changes
  (10_state.md R34, 41_cbc.md R86; log 12). -/
  | work
  /-- The reset input is asserted. -/
  | reset
  deriving DecidableEq, Repr

/-- One entry of what was seen at the bus, and of resets (log 14). -/
inductive Event where
  | bus (a : Access) (o : BusOutcome)
  | reset
  deriving DecidableEq, Repr

/-- The buffers' bytes by aperture offset (20_memory.md R43). Canonical form: strictly rising offsets, see `Memory.wf`
in Ops.lean. An unlisted byte has no value: nothing has written it since reset (10_state.md R33, log 5). -/
abbrev Memory := List Host.Cell

/-- The PCU, with the other agents of 00_scope.md R10 as data. -/
structure State where
  /-- The configuration, and with it the CFG registers (10_state.md R26 to R28; log 1). -/
  cfg : Config
  /-- CMD (R16). -/
  cmd : Word
  /-- STATUS (R17). -/
  status : Status
  /-- BLOCK_LEN (R14). -/
  blockLen : Word
  /-- IN_LEN (R14). -/
  inLen : Word
  /-- KEY_LEN (R14). -/
  keyLen : Word
  /-- IV_LEN (R14). -/
  ivLen : Word
  /-- OUT_LEN (R24). -/
  outLen : Word
  /-- ERR_INFO0 (R25). -/
  errInfo0 : Word
  /-- ERR_INFO1 (R25). -/
  errInfo1 : Word
  /-- KEY, IV, IN and OUT (R29 to R32). -/
  mem : Memory
  /-- The hidden state (R34). -/
  seq : Seq
  /-- The primitive port: MODEL's own (log 6, log 7). -/
  port : Port
  /-- The host's accesses still to come: MODEL's own (log 6). -/
  host : List HostStep
  /-- Who acts next: MODEL's own (log 2, log 6). -/
  turns : List Turn
  /-- What was seen at the bus, newest first: MODEL's own (log 6, log 14). -/
  events : List Event
  /-- How many read events there were: MODEL's own index of the free byte draws (log 5, log 6). -/
  reads : Nat
  deriving DecidableEq, Repr

/-- Why the machine stops with a fault. It has no constructor: nothing stops the PCU (60_exceptions.md R99), and an
access that does not reach it leaves it as it is (20_memory.md R40). -/
inductive Fault where
  deriving DecidableEq, Repr

/-- Why the machine refuses a step. -/
inductive Refusal where
  /-- Raised by an arm of exec whose instruction has no meaning yet. No arm of this model does. Safe. -/
  | notModelled (mnemonic : String)
  /-- Raised by every step of a machine whose configuration is not well formed: the spec defines no such unit
  (00_scope.md R5, D32; log 11). Safe: no such hardware exists. -/
  | illFormedConfig
  deriving DecidableEq, Repr

/-- STATUS at reset (10_state.md R37). -/
def Status.reset : Status where
  busy := false
  done := false
  kind := .noError
  stage := .interface
  cause := .success
  accessErr := false

/-- The state right after reset (10_state.md R37, 70_reset_and_hazards.md R118), in the default configuration of
00_scope.md R5. The MODEL's own fields are empty or 0: DESIGN CHOICE (log 6). -/
def State.reset : State where
  cfg := Config.default
  cmd := 0#32
  status := Status.reset
  blockLen := 0#32
  inLen := 0#32
  keyLen := 0#32
  ivLen := 0#32
  outLen := 0#32
  errInfo0 := 0#32
  errInfo1 := 0#32
  mem := []
  seq := Seq.discarded
  port := ⟨[], 0, []⟩
  host := []
  turns := []
  events := []
  reads := 0

end Sys2Proof.Machine
end

