-- ==== Sys2Proof/Machine/Flags.lean ====
section
/-! DEFINITION. The STATUS fields: their encodings, and every way they change (10_state.md R17 to R23, R36). -/

namespace Sys2Proof.Machine

/-- The KIND codes (10_state.md R20). -/
def Kind.code : Kind → BitVec 2
  | .noError => 0#2
  | .invalidInput => 1#2
  | .unexpectedFault => 2#2

/-- The STAGE codes (10_state.md R21). -/
def Stage.code : Stage → BitVec 2
  | .interface => 0#2
  | .pad => 1#2
  | .cbc => 2#2
  | .unpad => 3#2

/-- The CAUSE codes (60_exceptions.md R101). -/
def Cause.code : Cause → BitVec 8
  | .success => 0x00#8
  | .illegalCmd => 0x01#8
  | .inLenRange => 0x02#8
  | .blockLenRange => 0x10#8
  | .unpadLen => 0x11#8
  | .padLenValue => 0x12#8
  | .padByteMismatch => 0x13#8
  | .keySize => 0x20#8
  | .dataMisaligned => 0x21#8
  | .ivLen => 0x22#8
  | .primFault => 0x30#8

/-- The 32-bit word a read of STATUS returns (10_state.md R17): ACCESS_ERR, 30:16 zero, CAUSE, 7:6 zero, STAGE, KIND,
DONE, BUSY. -/
def Status.word (st : Status) : Word :=
  BitVec.ofBool st.accessErr ++ 0#15 ++ st.cause.code ++ 0#2 ++ st.stage.code ++ st.kind.code
    ++ BitVec.ofBool st.done ++ BitVec.ofBool st.busy

/-- STATUS after a command start (60_exceptions.md R105). ACCESS_ERR is unchanged. -/
def Status.started (st : Status) : Status where
  busy := true
  done := false
  kind := .noError
  stage := .interface
  cause := .success
  accessErr := st.accessErr

/-- STATUS after a successful completion (60_exceptions.md R104). ACCESS_ERR is unchanged (10_state.md R23). -/
def Status.succeeded (st : Status) : Status where
  busy := false
  done := true
  kind := .noError
  stage := .interface
  cause := .success
  accessErr := st.accessErr

/-- STATUS after an error completion (60_exceptions.md R103). ACCESS_ERR is unchanged. -/
def Status.failed (st : Status) (e : ErrorRec) : Status where
  busy := false
  done := true
  kind := e.kind
  stage := e.stage
  cause := e.cause
  accessErr := st.accessErr

/-- STATUS after a dropped write (60_exceptions.md R106). -/
def Status.dropped (st : Status) : Status := { st with accessErr := true }

/-- STATUS after a host write of `w` to it while idle: bit 31 clears ACCESS_ERR, every other bit is ignored
(10_state.md R17). -/
def Status.hostWrite (st : Status) (w : Word) : Status :=
  if w.getLsbD 31 then { st with accessErr := false } else st

end Sys2Proof.Machine
end

