-- ==== Sys2Proof/Syntax.lean ====
section
/-! DEFINITION. The six commands (30_encoding.md R60), one constructor per row of the opcode table. No command word
carries an operand (R63), so no constructor has a field. -/

namespace Sys2Proof

inductive Instr where
  /-- PAD (40_padding.md R72). -/
  | pad
  /-- UNPAD (40_padding.md R76). -/
  | unpad
  /-- ENCRYPT (41_cbc.md R87). -/
  | encrypt
  /-- DECRYPT (41_cbc.md R88). -/
  | decrypt
  /-- ENCRYPT_PADDED (42_padded.md R93). -/
  | encryptPadded
  /-- DECRYPT_PADDED (42_padded.md R94). -/
  | decryptPadded
  deriving DecidableEq, Repr

/-- The mnemonic of 30_encoding.md R60. -/
def Instr.mnemonic : Instr → String
  | .pad => "PAD"
  | .unpad => "UNPAD"
  | .encrypt => "ENCRYPT"
  | .decrypt => "DECRYPT"
  | .encryptPadded => "ENCRYPT_PADDED"
  | .decryptPadded => "DECRYPT_PADDED"

end Sys2Proof
end

