-- ==== Sys2Proof/WellFormed.lean ====
section
/-! DEFINITION. Well-formedness of configurations (00_scope.md R5, D32) and of instructions (30_encoding.md R63). -/

namespace Sys2Proof

/-- No command has an operand that could be out of range (30_encoding.md R63): every instruction is well formed. -/
def Instr.wf : Instr → Bool
  | .pad | .unpad | .encrypt | .decrypt | .encryptPadded | .decryptPadded => true

/-- `1 <= BLOCK_SIZE <= 255` (R5). -/
def Config.blockSizeOk (c : Config) : Bool := decide (1 ≤ c.blockSize ∧ c.blockSize ≤ 255)

/-- `BLOCK_SIZE <= IV_MAX` (R5). -/
def Config.ivFits (c : Config) : Bool := decide (c.blockSize ≤ Config.ivMax)

/-- `KEY_SIZES` is non-empty (R5). -/
def Config.keySizesNonEmpty (c : Config) : Bool := decide (c.keySizes ≠ [])

/-- `KEY_SIZES` is a subset of {1..32} (R5). -/
def Config.keySizesInRange (c : Config) : Bool := c.keySizes.all fun k => decide (1 ≤ k ∧ k ≤ Config.keyMax)

/-- `1 <= BUF_MAX <= 65536` (R5). -/
def Config.bufMaxOk (c : Config) : Bool := decide (1 ≤ c.bufMax ∧ c.bufMax ≤ 65536)

/-- `BASE` is a multiple of 0x40000 (20_memory.md R40). -/
def Config.baseAligned (c : Config) : Bool := decide (c.base % 0x40000 = 0)

/-- The test primitive TOY4 has `BLOCK_SIZE = 4` and `KEY_SIZES = {4}` (95_test_vectors.md §3.1). -/
def Config.primFits (c : Config) : Bool :=
  match c.prim with
  | .external => true
  | .toy4 => decide (c.blockSize = 4 ∧ c.keySizes = [4])

/-- A well-formed configuration (R5, D32). The machine's step refuses any other (log 11). -/
def Config.wf (c : Config) : Bool :=
  c.blockSizeOk && c.ivFits && c.keySizesNonEmpty && c.keySizesInRange && c.bufMaxOk && c.baseAligned && c.primFits

end Sys2Proof
end

