-- ==== Sys2Proof/Machine/Ops.lean ====
section
/-! DEFINITION. The named operations over memory and registers: one byte of memory, the buffers' places, a command's
start, its two completions (the error completion stands where a processor takes an exception; there is no return from
one, 60_exceptions.md R110, R111), and reset. -/

namespace Sys2Proof.Machine

/-! ### Memory -/

/-- The canonical form: offsets strictly rising. An unlisted byte has no value (10_state.md R33), so no entry equals one. -/
abbrev Memory.wf (m : Memory) : Prop := m.Pairwise (fun x y => x.1 < y.1)

/-- The byte written at offset `a` since reset, if any. -/
def memGet : Memory → Nat → Option Byte
  | [], _ => none
  | (k, b) :: m, a => if a = k then some b else memGet m a

/-- Write one byte, keeping the canonical form. -/
def memSet : Memory → Nat → Byte → Memory
  | [], a, b => [(a, b)]
  | (k, c) :: m, a, b =>
    if a < k then (a, b) :: (k, c) :: m
    else if a = k then (a, b) :: m
    else (k, c) :: memSet m a b

/-- Write a byte sequence at `a`, `a + 1`, and so on. -/
def memSetBytes : Memory → Nat → Bytes → Memory
  | m, _, [] => m
  | m, a, b :: bs => memSetBytes (memSet m a b) (a + 1) bs

/-- The four buffers (10_state.md R29 to R32). -/
inductive Buffer where
  | key
  | iv
  | input
  | output
  deriving DecidableEq, Repr

/-- The aperture offset of a buffer's byte 0 (20_memory.md R43). -/
def bufStart : Buffer → Nat
  | .key => 0x00100
  | .iv => 0x00200
  | .input => 0x10000
  | .output => 0x20000

/-- A buffer's capacity in bytes (00_scope.md R5). -/
def bufCap (c : Config) : Buffer → Nat
  | .key => Config.keyMax
  | .iv => Config.ivMax
  | .input => c.bufMax
  | .output => c.outMax

/-- An offset lies in a buffer (20_memory.md R43). -/
def inBuffer (c : Config) (b : Buffer) (off : Nat) : Bool :=
  decide (bufStart b ≤ off ∧ off < bufStart b + bufCap c b)

/-- The buffer an offset of the window region lies in, or `none` where it is reserved (20_memory.md R43, R48, R50). -/
def bufferAt (c : Config) (off : Nat) : Option Buffer :=
  if inBuffer c .key off then some .key
  else if inBuffer c .iv off then some .iv
  else if inBuffer c .input off then some .input
  else if inBuffer c .output off then some .output
  else none

/-- What the current read event finds at offset `off`: the byte last written, or a free draw where nothing has written
it since reset (10_state.md R33; log 5). -/
def State.readByte (s : State) (off : Nat) : Byte := (memGet s.mem off).getD (Config.freeByte s.reads off)

/-- The bytes `b[k .. k+n)` of a buffer, in the current read event. -/
def State.readBytes (s : State) (b : Buffer) (n : Nat) : Bytes :=
  (List.range n).map fun k => s.readByte (bufStart b + k)

/-! ### The primitive port's draws -/

/-- Whether request `m` of the running command faults (41_cbc.md R81): a free draw (log 7). -/
def Port.draw (p : Port) (m : Nat) : Bool := p.faults.getD m (Config.freeFault (p.answered + m))

/-- The port after the requests `sent`. -/
def Port.advance (p : Port) (sent : List Request) : Port where
  faults := p.faults.drop sent.length
  answered := p.answered + sent.length
  log := p.log ++ sent

/-! ### A command's start and completion -/

/-- Command start with word `w` (60_exceptions.md R105). OUT_LEN, OUT and ACCESS_ERR are unchanged. The snapshot is the
operands as they stand: no write changes them while BUSY (10_state.md R39; log 3). -/
def State.startCommand (s : State) (w : Word) : State :=
  { s with cmd := w, status := s.status.started, errInfo0 := 0#32, errInfo1 := 0#32 }

/-- The registers an error completion writes (60_exceptions.md R103). OUT is not written. -/
def State.raiseError (s : State) (e : ErrorRec) : State :=
  { s with status := s.status.failed e, errInfo0 := e.info0, errInfo1 := e.info1, outLen := 0#32 }

/-- The registers and buffer bytes a successful completion writes (60_exceptions.md R104): `OUT[0 .. len(r))` only. -/
def State.commitResult (s : State) (r : Bytes) : State :=
  { s with
    mem := memSetBytes s.mem (bufStart .output) r
    outLen := wordOf r.length
    status := s.status.succeeded
    errInfo0 := 0#32
    errInfo1 := 0#32 }

/-- What ends with the command: the hidden state is discarded (10_state.md R34, R35), the requests `sent` have used up
their draws (log 7), and the command's reads were one read event (log 5). -/
def State.endCommand (s : State) (sent : List Request) : State :=
  { s with seq := Seq.discarded, port := s.port.advance sent, reads := s.reads + 1 }

/-- The *complete* step's writes, for the result of `Exec` (60_exceptions.md R103, R104). -/
def State.complete (s : State) (res : CmdResult) (sent : List Request) : State :=
  match res with
  | .ok r => (s.commitResult r).endCommand sent
  | .error e => (s.raiseError e).endCommand sent

/-- Reset (70_reset_and_hazards.md R118, R119): every register takes its reset value, every buffer byte is unspecified,
the hidden state is discarded and a running command is aborted. The configuration keeps its values. The MODEL's own
fields are the other agents' and stay (log 16). -/
def State.applyReset (s : State) : State :=
  { s with
    cmd := 0#32
    status := Status.reset
    blockLen := 0#32
    inLen := 0#32
    keyLen := 0#32
    ivLen := 0#32
    outLen := 0#32
    errInfo0 := 0#32
    errInfo1 := 0#32
    mem := []
    seq := Seq.discarded
    events := .reset :: s.events }

end Sys2Proof.Machine
end

