-- ==== Sys2Proof/Machine/Primitive.lean ====
section
/-! DEFINITION. The block-cipher primitive behind the port (41_cbc.md R81, R82) and the sequencer's requests (R86). -/

namespace Sys2Proof.Machine

/-- The primitive's two functions of a key and a block (41_cbc.md R81): `enc` is `E`, `dec` is `D`. -/
structure Prim where
  enc : (key block : Bytes) → Bytes
  dec : (key block : Bytes) → Bytes

/-- The open primitive: every lane of an answer is a free value, and an answer has as many bytes as the block
(41_cbc.md R81: "with y of B bytes"; log 8). -/
def externalPrim : Prim where
  enc := fun k x => (List.range x.length).map (Config.freeEncLane k x)
  dec := fun k y => (List.range y.length).map (Config.freeDecLane k y)

/-- The spec's test primitive TOY4 (95_test_vectors.md §3.1, D34). -/
def toy4Prim : Prim where
  enc := fun k x => (List.range 4).map fun j => x.getD ((j + 1) % 4) 0#8 ^^^ k.getD j 0#8
  dec := fun k y => (List.range 4).map fun m => y.getD ((m + 3) % 4) 0#8 ^^^ k.getD ((m + 3) % 4) 0#8

/-- The primitive of a configuration. -/
def primOf (c : Config) : Prim :=
  match c.prim with
  | .external => externalPrim
  | .toy4 => toy4Prim

/-- The laws of 41_cbc.md R82, a premise about the primitive that the PCU does not check: for every key of an accepted
size, `E k` and `D k` map blocks of `B` bytes to blocks of `B` bytes and are inverse to each other. -/
def Prim.Lawful (p : Prim) (c : Config) : Prop :=
  ∀ k x : Bytes, k.length ∈ c.keySizes → x.length = c.blockSize →
    (p.enc k x).length = c.blockSize ∧ (p.dec k x).length = c.blockSize ∧
      p.dec k (p.enc k x) = x ∧ p.enc k (p.dec k x) = x

/-- The sequencer's working context in one command: its hidden state (10_state.md R34) and the requests it has sent,
oldest first. The number of the next request is `sent.length` (41_cbc.md R86). -/
structure Engine where
  seq : Seq
  sent : List Request
  deriving DecidableEq, Repr

/-- Send one request and wait for its answer (41_cbc.md R86). `none` is `Fault`; otherwise the answer is the primitive's.
A request that is answered is no longer pending. -/
def Engine.ask {α : Type} (e : Engine) (draw : Nat → Bool) (r : Request) (answer : α) : Option α × Engine :=
  let asked : Engine := { seq := { e.seq with pending := some r }, sent := e.sent ++ [r] }
  if draw e.sent.length then (none, asked)
  else (some answer, { asked with seq := { asked.seq with pending := none } })

end Sys2Proof.Machine
end

