-- ==== Sys2Proof/Machine/Operands.lean ====
section
/-! DEFINITION. The operands of a command: the snapshot (10_state.md R39, 30_encoding.md R63), block slicing and XOR
(00_scope.md R8, 41_cbc.md R80), and the shape every command has: interface check, body, completion (30_encoding.md R64). -/

namespace Sys2Proof.Machine

/-- The snapshot `S` of a command (10_state.md R39). The CMD word is left out: dispatch has already used it. -/
structure Snapshot where
  blockLen : Word
  inLen : Word
  keyLen : Word
  ivLen : Word
  /-- `IN[0 .. min(IN_LEN, BUF_MAX))`. -/
  data : Bytes
  /-- `KEY[0 .. 32)`. -/
  key : Bytes
  /-- `IV[0 .. 256)`. -/
  iv : Bytes
  cfg : Config
  deriving DecidableEq, Repr

/-- Take the snapshot (10_state.md R39). -/
def State.snapshot (s : State) : Snapshot where
  blockLen := s.blockLen
  inLen := s.inLen
  keyLen := s.keyLen
  ivLen := s.ivLen
  data := s.readBytes .input (min s.inLen.toNat s.cfg.bufMax)
  key := s.readBytes .key Config.keyMax
  iv := s.readBytes .iv Config.ivMax
  cfg := s.cfg

/-- The key operand `KEY[0 .. KEY_LEN)` (10_state.md R14). -/
def Snapshot.keyBytes (S : Snapshot) : Bytes := S.key.take S.keyLen.toNat

/-- The IV operand `IV[0 .. B)` (41_cbc.md R84). -/
def Snapshot.ivBlock (S : Snapshot) : Bytes := S.iv.take S.cfg.blockSize

/-- Block XOR, lane by lane (41_cbc.md R80). -/
def xorBlock (x y : Bytes) : Bytes := List.zipWith (fun a b => a ^^^ b) x y

/-- The first `n` blocks of `B` bytes of a sequence, in order (00_scope.md R8). -/
def blocks (B : Nat) : (n : Nat) → Bytes → List Bytes
  | 0, _ => []
  | n + 1, d => d.take B :: blocks B n (d.drop B)

/-- What an operation does after the interface checks: from the primitive, the fault draws, the snapshot and the
sequencer's context to a result and the context it leaves. -/
abbrev Body := Prim → (Nat → Bool) → Snapshot → Engine → CmdResult × Engine

/-- IN_LEN_RANGE (30_encoding.md R64, 60_exceptions.md R101). -/
def inLenError (S : Snapshot) : ErrorRec := ⟨.invalidInput, .interface, .inLenRange, S.inLen, wordOf S.cfg.bufMax⟩

/-- ILLEGAL_CMD for the word `w` (30_encoding.md R62, R64). -/
def illegalCmdError (w : Word) : ErrorRec := ⟨.invalidInput, .interface, .illegalCmd, w, 0#32⟩

/-- `Exec` of 30_encoding.md R64 for a decoded command: the IN_LEN check, then the operation's body. The sequencer's
context starts from whatever hidden state there is; no operation reads it before writing it (10_state.md R35). -/
def runBody (body : Body) (s : State) : CmdResult × Engine :=
  let S := s.snapshot
  if s.cfg.bufMax < S.inLen.toNat then (.error (inLenError S), ⟨s.seq, []⟩)
  else body (primOf s.cfg) s.port.draw S ⟨s.seq, []⟩

/-- The *complete* step of a decoded command, as one atomic transition (20_memory.md R51, 60_exceptions.md R103, R104). -/
def runCommand (body : Body) (s : State) : Host.Outcome State Fault Refusal :=
  let r := runBody body s
  .next (s.complete r.1 r.2.sent)

/-- The *complete* step of an illegal command word: no operand is read and no request sent (30_encoding.md R62). -/
def completeIllegal (s : State) (w : Word) : State := s.complete (.error (illegalCmdError w)) []

end Sys2Proof.Machine
end

