-- ==== Sys2Proof/Machine/Cbc.lean ====
section
/-! DEFINITION. The CBC Transform: ENCRYPT and DECRYPT (41_cbc.md). -/

namespace Sys2Proof.Machine

/-- `CbcCheck(L, S)` (R83): key size, then alignment, then IV length. `none` is a pass. -/
def cbcCheck (len : Nat) (S : Snapshot) : Option ErrorRec :=
  if S.keyLen.toNat ∉ S.cfg.keySizes then some ⟨.invalidInput, .cbc, .keySize, S.keyLen, 0#32⟩
  else if len % S.cfg.blockSize ≠ 0 then some ⟨.invalidInput, .cbc, .dataMisaligned, wordOf len, wordOf S.cfg.blockSize⟩
  else if S.ivLen.toNat ≠ S.cfg.blockSize then some ⟨.invalidInput, .cbc, .ivLen, S.ivLen, wordOf S.cfg.blockSize⟩
  else none

/-- PRIM_FAULT (R84, R85): kind UNEXPECTED_FAULT, the info value the failing block's index, or 0xFFFFFFFF for `setup`. -/
def primFaultError (info : Word) : ErrorRec := ⟨.unexpectedFault, .cbc, .primFault, info, 0#32⟩

/-- The head both transforms share (R84, R85): the checks, `setup` with `KEY[0..KEY_LEN)`, CHAIN seeded from IV, RES
empty, block index 0. -/
def cbcSetup (draw : Nat → Bool) (len : Nat) (S : Snapshot) (e : Engine) : Option ErrorRec × Engine :=
  match cbcCheck len S with
  | some err => (some err, e)
  | none =>
    match e.ask draw (.setup S.keyBytes) S.keyBytes with
    | (none, e') => (some (primFaultError 0xFFFFFFFF#32), e')
    | (some h, e') =>
      (none, { e' with seq := { e'.seq with handle := some h, chain := S.ivBlock, res := [], blockIndex := 0 } })

/-- One block done: RES grows by `out`, CHAIN takes `fed` and the block index advances (R84, R85). -/
def Engine.nextBlock (e : Engine) (out fed : Bytes) : Engine :=
  { e with seq := { e.seq with res := e.seq.res ++ out, chain := fed, blockIndex := e.seq.blockIndex + 1 } }

/-- The encrypt chaining loop (R84): `y = E k (d_i XOR CHAIN)`, and `y` is fed back. -/
def encLoop (P : Prim) (draw : Nat → Bool) (h : Bytes) : List Bytes → Engine → CmdResult × Engine
  | [], e => (.ok e.seq.res, e)
  | d :: ds, e =>
    match e.ask draw (.enc h (xorBlock d e.seq.chain)) (P.enc h (xorBlock d e.seq.chain)) with
    | (none, e') => (.error (primFaultError (wordOf e.seq.blockIndex)), e')
    | (some y, e') => encLoop P draw h ds (e'.nextBlock y y)

/-- The decrypt chaining loop (R85): `D k d_i XOR CHAIN`, and the input block `d_i` is fed back. -/
def decLoop (P : Prim) (draw : Nat → Bool) (h : Bytes) : List Bytes → Engine → CmdResult × Engine
  | [], e => (.ok e.seq.res, e)
  | d :: ds, e =>
    match e.ask draw (.dec h d) (P.dec h d) with
    | (none, e') => (.error (primFaultError (wordOf e.seq.blockIndex)), e')
    | (some y, e') => decLoop P draw h ds (e'.nextBlock (xorBlock y e.seq.chain) d)

/-- `CbcEncrypt(d, S)` (R84). The handle the loop uses is the one `setup` answered (R89). -/
def cbcEncrypt (P : Prim) (draw : Nat → Bool) (S : Snapshot) (d : Bytes) (e : Engine) : CmdResult × Engine :=
  match cbcSetup draw d.length S e with
  | (some err, e') => (.error err, e')
  | (none, e') => encLoop P draw (e'.seq.handle.getD []) (blocks S.cfg.blockSize (d.length / S.cfg.blockSize) d) e'

/-- `CbcDecrypt(d, S)` (R85). -/
def cbcDecrypt (P : Prim) (draw : Nat → Bool) (S : Snapshot) (d : Bytes) (e : Engine) : CmdResult × Engine :=
  match cbcSetup draw d.length S e with
  | (some err, e') => (.error err, e')
  | (none, e') => decLoop P draw (e'.seq.handle.getD []) (blocks S.cfg.blockSize (d.length / S.cfg.blockSize) d) e'

/-- ENCRYPT after the interface checks (R87). -/
def encryptBody : Body := fun P draw S e => cbcEncrypt P draw S S.data e

/-- DECRYPT after the interface checks (R88). -/
def decryptBody : Body := fun P draw S e => cbcDecrypt P draw S S.data e

/-- ENCRYPT (R87). -/
def execEncrypt (s : State) : Host.Outcome State Fault Refusal := runCommand encryptBody s

/-- DECRYPT (R88). -/
def execDecrypt (s : State) : Host.Outcome State Fault Refusal := runCommand decryptBody s

end Sys2Proof.Machine
end

