-- ==== Sys2Proof/Machine/Padding.lean ====
section
/-! DEFINITION. The Padding Codec: PAD and UNPAD (40_padding.md). -/

namespace Sys2Proof.Machine

/-- `padLength = n - (L mod n)` (R70). -/
def padLength (len n : Nat) : Nat := n - len % n

/-- `Pad(d, n) = d ++ rep(p, p)` (R70), for `1 <= n <= 255`. -/
def pad (d : Bytes) (n : Nat) : Bytes := d ++ List.replicate (padLength d.length n) (BitVec.ofNat 8 (padLength d.length n))

/-- BLOCK_LEN_RANGE (R72, R73, 60_exceptions.md R101). -/
def blockLenError (n : Nat) (stage : Stage) : ErrorRec := ⟨.invalidInput, stage, .blockLenRange, wordOf n, 0#32⟩

/-- `PadOp(d, n, stage)` (R72). -/
def padOp (d : Bytes) (n : Nat) (stage : Stage) : CmdResult :=
  if n < 1 ∨ 255 < n then .error (blockLenError n stage) else .ok (pad d n)

/-- The early-exit scan (R75): compare byte by byte and stop at the first mismatch. Also the number of bytes visited.
The direction is unspecified and changes no result (I15; log 13). -/
def scanEarlyExit (p : Byte) : Bytes → Bool × Nat
  | [] => (true, 0)
  | b :: bs => if b = p then ((scanEarlyExit p bs).1, (scanEarlyExit p bs).2 + 1) else (false, 1)

/-- The constant-time scan (R75): visit every byte of the window, compare those in the claimed region (the last `p` of
them), and decide after the last visit. `ok` is the verdict so far. -/
def scanConstantTime (p : Byte) : Bytes → (ok : Bool) → Bool × Nat
  | [], ok => (ok, 0)
  | b :: bs, ok =>
    let r := scanConstantTime p bs (ok && (decide (p.toNat < bs.length + 1) || b == p))
    (r.1, r.2 + 1)

/-- Check 4 of R73 under a scan mode (R75): over `d[L-p .. L)` with EARLY_EXIT, over the `n` bytes `d[L-n .. L)` with
CONSTANT_TIME. -/
def scanPadding (mode : ScanMode) (d : Bytes) (n : Nat) (p : Byte) : Bool × Nat :=
  match mode with
  | .earlyExit => scanEarlyExit p (d.drop (d.length - p.toNat))
  | .constantTime => scanConstantTime p (d.drop (d.length - n)) true

/-- An Unpad failure's error record: its info values are `L` and `n`, never a padding byte (R76). -/
def unpadError (cause : Cause) (len n : Nat) (stage : Stage) : ErrorRec :=
  ⟨.invalidInput, stage, cause, wordOf len, wordOf n⟩

/-- `UnpadOp(d, n, stage)` (R73), its four checks in order (R74), and how many bytes the scan visited. -/
def unpadOp (mode : ScanMode) (d : Bytes) (n : Nat) (stage : Stage) : CmdResult × Nat :=
  if n < 1 ∨ 255 < n then (.error (blockLenError n stage), 0)
  else if d.length = 0 ∨ d.length % n ≠ 0 then (.error (unpadError .unpadLen d.length n stage), 0)
  else
    let p := d.getD (d.length - 1) 0#8
    if p.toNat = 0 ∨ n < p.toNat then (.error (unpadError .padLenValue d.length n stage), 0)
    else
      let scan := scanPadding mode d n p
      if scan.1 then (.ok (d.take (d.length - p.toNat)), scan.2)
      else (.error (unpadError .padByteMismatch d.length n stage), scan.2)

/-- Leave a result staged in RES (10_state.md R34). -/
def Engine.stage (e : Engine) (res : CmdResult) (scanned : Nat) : CmdResult × Engine :=
  match res with
  | .ok r => (res, { e with seq := { e.seq with res := r, scanIndex := scanned } })
  | .error _ => (res, { e with seq := { e.seq with scanIndex := scanned } })

/-- PAD after the interface checks (R72): `d = IN[0..IN_LEN)`, `n = BLOCK_LEN`, stage PAD. -/
def padBody : Body := fun _ _ S e => e.stage (padOp S.data S.blockLen.toNat .pad) 0

/-- UNPAD after the interface checks (R76): stage UNPAD. -/
def unpadBody : Body := fun _ _ S e =>
  let u := unpadOp S.cfg.scanMode S.data S.blockLen.toNat .unpad
  e.stage u.1 u.2

/-- PAD (R72). -/
def execPad (s : State) : Host.Outcome State Fault Refusal := runCommand padBody s

/-- UNPAD (R76). -/
def execUnpad (s : State) : Host.Outcome State Fault Refusal := runCommand unpadBody s

end Sys2Proof.Machine
end

