-- ==== Sys2Proof/Machine/Padded.lean ====
section
/-! DEFINITION. The Padded Transform: ENCRYPT_PADDED and DECRYPT_PADDED (42_padded.md). The block length of both is
BLOCK_SIZE; BLOCK_LEN is not read (R96). A stage's error is kept as it is (R95). -/

namespace Sys2Proof.Machine

/-- ENCRYPT_PADDED after the interface checks (R93): Pad at stage PAD, then CBC encrypt. -/
def encryptPaddedBody : Body := fun P draw S e =>
  match padOp S.data S.cfg.blockSize .pad with
  | .error err => (.error err, e)
  | .ok q => cbcEncrypt P draw S q e

/-- DECRYPT_PADDED after the interface checks (R94): CBC decrypt, then Unpad at stage UNPAD. -/
def decryptPaddedBody : Body := fun P draw S e =>
  match cbcDecrypt P draw S S.data e with
  | (.error err, e') => (.error err, e')
  | (.ok q, e') =>
    let u := unpadOp S.cfg.scanMode q S.cfg.blockSize .unpad
    e'.stage u.1 u.2

/-- ENCRYPT_PADDED (R93). -/
def execEncryptPadded (s : State) : Host.Outcome State Fault Refusal := runCommand encryptPaddedBody s

/-- DECRYPT_PADDED (R94). -/
def execDecryptPadded (s : State) : Host.Outcome State Fault Refusal := runCommand decryptPaddedBody s

end Sys2Proof.Machine
end

