-- ==== Sys2Proof/Decode.lean ====
section
/-! DEFINITION. The command decoder, total and rejecting by name, and the encoder (30_encoding.md R59 to R62, R69), with
the byte-order helpers (20_memory.md R46). -/

namespace Sys2Proof

/-- The little-endian word of four bytes: the byte at the lowest offset is bits 7:0 (20_memory.md R46). -/
def wordOfBytes (b0 b1 b2 b3 : Byte) : Word := b3 ++ b2 ++ b1 ++ b0

/-- Byte `j` of a word in little-endian order: bits 8j+7 down to 8j (20_memory.md R46). -/
def byteOfWord (w : Word) (j : Nat) : Byte := w.extractLsb' (8 * j) 8

/-- The four bytes of a word, lowest offset first (20_memory.md R46). -/
def bytesOfWord (w : Word) : Bytes := (List.range 4).map (byteOfWord w)

/-- Field OP, bits 3:0 (R59). -/
def opField (w : Word) : BitVec 4 := w.extractLsb' 0 4

/-- Field RSV, bits 31:4 (R59). -/
def rsvField (w : Word) : BitVec 28 := w.extractLsb' 4 28

/-- Why a command word is illegal. -/
inductive DecodeError where
  /-- RSV is not 0 (R61). -/
  | reservedBits (w : Word)
  /-- RSV is 0 and OP is 0x0 or 0x7 to 0xF (R62, R65). -/
  | reservedOp (w : Word)
  /-- Fewer than the four bytes of a command word (R59). -/
  | truncated
  deriving DecidableEq, Repr

/-- The operation codes of R60. -/
def instrOfOp (op : BitVec 4) : Option Instr :=
  match op.toNat with
  | 1 => some .pad
  | 2 => some .unpad
  | 3 => some .encrypt
  | 4 => some .decrypt
  | 5 => some .encryptPadded
  | 6 => some .decryptPadded
  | _ => none

/-- Decoding of one command word, by its two fields (R59 to R62). -/
def decodeWord (w : Word) : Except DecodeError Instr :=
  if rsvField w ≠ 0#28 then .error (.reservedBits w)
  else
    match instrOfOp (opField w) with
    | some i => .ok i
    | none => .error (.reservedOp w)

/-- Decoding of a byte sequence: the first four bytes are one command word, the rest is left. There is one length and
no prefix (R66). DESIGN CHOICE (log 15): the word's bytes stand in little-endian order. A CMD write carries the whole
word, so no byte order of the PCU is involved: safe. -/
def decode : Bytes → Except DecodeError (Instr × Bytes)
  | b0 :: b1 :: b2 :: b3 :: rest =>
    match decodeWord (wordOfBytes b0 b1 b2 b3) with
    | .ok i => .ok (i, rest)
    | .error e => .error e
  | _ => .error .truncated

/-- One row of the opcode table: a word matches when `w AND mask = value` (R60, R69). -/
structure OpcodeRow where
  instr : Instr
  value : Word
  mask : Word
  deriving DecidableEq, Repr

/-- The table of R60, as opcode_table.json lists it. -/
def opcodeTable : List OpcodeRow :=
  [⟨.pad, 0x00000001#32, 0xFFFFFFFF#32⟩,
   ⟨.unpad, 0x00000002#32, 0xFFFFFFFF#32⟩,
   ⟨.encrypt, 0x00000003#32, 0xFFFFFFFF#32⟩,
   ⟨.decrypt, 0x00000004#32, 0xFFFFFFFF#32⟩,
   ⟨.encryptPadded, 0x00000005#32, 0xFFFFFFFF#32⟩,
   ⟨.decryptPadded, 0x00000006#32, 0xFFFFFFFF#32⟩]

/-- A word matches a row (R69). -/
def OpcodeRow.matches (r : OpcodeRow) (w : Word) : Bool := (w &&& r.mask) == r.value

/-- The command word of an instruction (R60): OP in bits 3:0, RSV = 0. -/
def encode : Instr → Word
  | .pad => 0x00000001#32
  | .unpad => 0x00000002#32
  | .encrypt => 0x00000003#32
  | .decrypt => 0x00000004#32
  | .encryptPadded => 0x00000005#32
  | .decryptPadded => 0x00000006#32

/-- The command word as bytes, in the order `decode` reads them (log 15). -/
def encodeBytes (i : Instr) : Bytes := bytesOfWord (encode i)

/-- What the decoder reads from an instruction whose bits are `w`, numbered as the opcode table numbers them. A command
word has exactly 32 bits (R59); a bit above them belongs to no command. -/
def decodeTableWord (nbits w : Nat) : Option Instr :=
  let v := w % 2 ^ nbits
  if v < 2 ^ 32 then
    match decode (bytesOfWord (wordOf v)) with
    | .ok (i, _) => some i
    | .error _ => none
  else none

end Sys2Proof
end

