-- ==== Sys2Proof/Machine/Bus.lean ====
section
/-! DEFINITION. The host's accesses to the aperture (20_memory.md): the register map, the windows, bus errors, dropped
writes, and the `wait` loop. -/

namespace Sys2Proof.Machine

/-- The registers of the register map (20_memory.md R42). -/
inductive Reg where
  | cmd
  | status
  | blockLen
  | inLen
  | keyLen
  | ivLen
  | outLen
  | errInfo0
  | errInfo1
  | cfgBlockSize
  | cfgKeySizes
  | cfgBufMax
  deriving DecidableEq, Repr

/-- A register's offset (20_memory.md R42). -/
def regOffset : Reg → Nat
  | .cmd => 0x000
  | .status => 0x004
  | .blockLen => 0x008
  | .inLen => 0x00C
  | .keyLen => 0x010
  | .ivLen => 0x014
  | .outLen => 0x018
  | .errInfo0 => 0x01C
  | .errInfo1 => 0x020
  | .cfgBlockSize => 0x024
  | .cfgKeySizes => 0x028
  | .cfgBufMax => 0x02C

/-- The registers, in the order of their offsets. -/
def allRegs : List Reg :=
  [.cmd, .status, .blockLen, .inLen, .keyLen, .ivLen, .outLen, .errInfo0, .errInfo1, .cfgBlockSize, .cfgKeySizes,
    .cfgBufMax]

/-- The register at an offset, or `none` where it is reserved (20_memory.md R42, R48). -/
def regAt (off : Nat) : Option Reg := allRegs.find? fun r => regOffset r == off

/-- The register region is offsets 0x00000 to 0x000FF (20_memory.md R41). -/
def inRegisterRegion (off : Nat) : Bool := decide (off < 0x100)

/-- The mask CFG_KEY_SIZES reads as: bit `k-1` for each `k` in KEY_SIZES (10_state.md R27). -/
def keySizesMask (sizes : List Nat) : Word := sizes.foldl (fun m k => m ||| (1#32 <<< (k - 1))) 0#32

/-- What a read of a register returns (20_memory.md R47, 10_state.md R14 to R28). -/
def State.readReg (s : State) : Reg → Word
  | .cmd => s.cmd
  | .status => s.status.word
  | .blockLen => s.blockLen
  | .inLen => s.inLen
  | .keyLen => s.keyLen
  | .ivLen => s.ivLen
  | .outLen => s.outLen
  | .errInfo0 => s.errInfo0
  | .errInfo1 => s.errInfo1
  | .cfgBlockSize => wordOf s.cfg.blockSize
  | .cfgKeySizes => keySizesMask s.cfg.keySizes
  | .cfgBufMax => wordOf s.cfg.bufMax

/-- A write of `w` to a register while idle: CMD starts a command, STATUS acts on bit 31, the read-only registers ignore
it (20_memory.md R42, R49, R52). -/
def State.writeReg (s : State) (r : Reg) (w : Word) : State :=
  match r with
  | .cmd => s.startCommand w
  | .status => { s with status := s.status.hostWrite w }
  | .blockLen => { s with blockLen := w }
  | .inLen => { s with inLen := w }
  | .keyLen => { s with keyLen := w }
  | .ivLen => { s with ivLen := w }
  | .outLen | .errInfo0 | .errInfo1 | .cfgBlockSize | .cfgKeySizes | .cfgBufMax => s

/-- The byte a host read of window offset `off` moves: KEY reads 0 (R49), a reserved byte reads 0 (R48, R50). -/
def State.readWindowByte (s : State) (off : Nat) : Byte :=
  match bufferAt s.cfg off with
  | some .iv | some .input | some .output => s.readByte off
  | some .key | none => 0#8

/-- A host write of one window byte while idle: OUT and reserved bytes ignore it (R48, R49). -/
def State.writeWindowByte (s : State) (off : Nat) (b : Byte) : State :=
  match bufferAt s.cfg off with
  | some .key | some .iv | some .input => { s with mem := memSet s.mem off b }
  | some .output | none => s

/-- The bus-error rule (20_memory.md R45). -/
def isBusError (off width : Nat) : Bool :=
  decide (width ≠ 1 ∧ width ≠ 4) || decide (width = 4 ∧ off % 4 ≠ 0) || (decide (width = 1) && inRegisterRegion off)

/-- The value of an accepted read (20_memory.md R46, R47): a register, or window bytes in little-endian order, each
handled on its own; an 8-bit value is zero-extended. -/
def State.readValue (s : State) (off width : Nat) : Word :=
  if inRegisterRegion off then
    match regAt off with
    | some r => s.readReg r
    | none => 0#32
  else if width = 1 then (s.readWindowByte off).zeroExtend 32
  else
    wordOfBytes (s.readWindowByte off) (s.readWindowByte (off + 1)) (s.readWindowByte (off + 2))
      (s.readWindowByte (off + 3))

/-- The effect of an accepted write while idle (20_memory.md R46 to R52). An 8-bit write carries the value's bits 7:0
(log 19). -/
def State.writeValue (s : State) (off width : Nat) (v : Word) : State :=
  if inRegisterRegion off then
    match regAt off with
    | some r => s.writeReg r v
    | none => s
  else if width = 1 then s.writeWindowByte off (byteOfWord v 0)
  else
    (((s.writeWindowByte off (byteOfWord v 0)).writeWindowByte (off + 1) (byteOfWord v 1)).writeWindowByte (off + 2)
      (byteOfWord v 2)).writeWindowByte (off + 3) (byteOfWord v 3)

/-- An accepted write: dropped while BUSY, with ACCESS_ERR set (60_exceptions.md R106), carried out while idle. -/
def State.acceptWrite (s : State) (off width : Nat) (v : Word) : State :=
  if s.status.busy then { s with status := s.status.dropped } else s.writeValue off width v

/-- A host read at an aperture offset. An accepted read is one read event (log 5). -/
def State.busRead (s : State) (off width : Nat) : BusOutcome × State :=
  if isBusError off width then (.busError, s)
  else (.value (s.readValue off width), { s with reads := s.reads + 1 })

/-- A host write at an aperture offset. The bus-error check comes first, busy or not (20_memory.md R45). -/
def State.busWrite (s : State) (off width : Nat) (v : Word) : BusOutcome × State :=
  if isBusError off width then (.busError, s) else (.written, s.acceptWrite off width v)

/-- The aperture offset of a host bus address (20_memory.md R40). -/
def offsetOf (c : Config) (addr : Nat) : Option Nat :=
  if c.base ≤ addr ∧ addr < c.base + 0x40000 then some (addr - c.base) else none

/-- The bus address of an access. -/
def Access.addr : Access → Nat
  | .read addr _ => addr
  | .write addr _ _ => addr

/-- An access that reaches the PCU at offset `off`. -/
def State.busAccess (s : State) (a : Access) (off : Nat) : BusOutcome × State :=
  match a with
  | .read _ width => s.busRead off width
  | .write _ width v => s.busWrite off width v

/-- Add to what was seen at the bus (log 14). -/
def State.logEvent (s : State) (e : Event) : State := { s with events := e :: s.events }

/-- An access by its bus address: at its offset from BASE, or, outside the aperture, nowhere in the PCU, which stays as
it is (20_memory.md R40; log 10). -/
def State.access (s : State) (a : Access) : BusOutcome × State :=
  match offsetOf s.cfg a.addr with
  | none => (.outside, s)
  | some off => s.busAccess a off

/-- A host access (20_memory.md R44), with its outcome logged. -/
def hostAccess (s : State) (a : Access) : Host.Outcome State Fault Refusal :=
  .next ((s.access a).2.logEvent (.bus a (s.access a).1))

/-- The bus address of a register. -/
def regAddr (c : Config) (r : Reg) : Nat := c.base + regOffset r

/-- The host's poll of STATUS. -/
def statusPoll (c : Config) : Access := .read (regAddr c .status) 4

/-- The host does the next thing of its program (30_encoding.md R68). A `wait` reads STATUS and stays while bit 0 of the
value is 1. A host with nothing left to do does nothing. -/
def hostTurn (s : State) : Host.Outcome State Fault Refusal :=
  match s.host with
  | [] => .next s
  | .access a :: rest => hostAccess { s with host := rest } a
  | .wait :: rest =>
    hostAccess (if (s.readReg .status).getLsbD 0 then s else { s with host := rest }) (statusPoll s.cfg)

end Sys2Proof.Machine
end

