-- ==== Sys2Proof/Machine/HostProgram.lean ====
section
/-! DEFINITION. The notation of host programs and its expansion into accesses (30_encoding.md R67, R68). -/

namespace Sys2Proof.Machine

/-- One line of a host program (R67, R68). Offsets are aperture offsets. -/
inductive HostOp where
  | w32 (off : Nat) (v : Word)
  | w8 (off : Nat) (v : Byte)
  | r32 (off : Nat)
  | r8 (off : Nat)
  | wait
  | run (i : Instr)
  | wbytes (off : Nat) (bs : Bytes)
  | wwords (off : Nat) (ws : List Word)
  | rbytes (off n : Nat)
  deriving DecidableEq, Repr

/-- `n` accesses at `off`, `off + step`, and so on. -/
def accessesFrom (mk : Nat → α → Access) (step : Nat) : Nat → List α → List HostStep
  | _, [] => []
  | off, x :: xs => .access (mk off x) :: accessesFrom mk step (off + step) xs

/-- The expansion of a line for a PCU whose aperture is at `base` (R67, R68). -/
def HostOp.expand (base : Nat) : HostOp → List HostStep
  | .w32 off v => [.access (.write (base + off) 4 v)]
  | .w8 off v => [.access (.write (base + off) 1 (v.zeroExtend 32))]
  | .r32 off => [.access (.read (base + off) 4)]
  | .r8 off => [.access (.read (base + off) 1)]
  | .wait => [.wait]
  | .run i => [.access (.write (base + regOffset .cmd) 4 (encode i)), .wait]
  | .wbytes off bs => accessesFrom (fun a (b : Byte) => .write a 1 (b.zeroExtend 32)) 1 (base + off) bs
  | .wwords off ws => accessesFrom (fun a (w : Word) => .write a 4 w) 4 (base + off) ws
  | .rbytes off n => accessesFrom (fun a (_ : Unit) => .read a 1) 1 (base + off) (List.replicate n ())

/-- The encoding of a program: its accesses in order, with the `wait` loops kept as such (R67, R68). -/
def expandProgram (base : Nat) (p : List HostOp) : List HostStep := p.flatMap (HostOp.expand base)

/-- A line keeps inside the aperture, and `wwords` starts at a multiple of 4 (R44, R68). -/
def HostOp.wf : HostOp → Bool
  | .w32 off _ | .w8 off _ | .r32 off | .r8 off => decide (off < 0x40000)
  | .wait | .run _ => true
  | .wbytes off bs => decide (off + bs.length ≤ 0x40000)
  | .wwords off ws => decide (off % 4 = 0 ∧ off + 4 * ws.length ≤ 0x40000)
  | .rbytes off n => decide (off + n ≤ 0x40000)

end Sys2Proof.Machine
end

