-- ==== Sys2Proof/Machine/Agents.lean ====
section
/-! DEFINITION. The agents' turns (00_scope.md R10): the sequencer's *complete* step, its hidden progress, and which
agent acts next. -/

namespace Sys2Proof.Machine

/-- The command word the *complete* step decodes: the running command is the word in CMD (10_state.md R15, R16). -/
def State.fetch (s : State) : Word := s.cmd

/-- The operation a command runs after the interface checks (30_encoding.md R64). -/
def bodyOf : Instr → Body
  | .pad => padBody
  | .unpad => unpadBody
  | .encrypt => encryptBody
  | .decrypt => decryptBody
  | .encryptPadded => encryptPaddedBody
  | .decryptPadded => decryptPaddedBody

/-- The *complete* step of the running command (30_encoding.md R64). -/
def completeCommand (s : State) : Host.Outcome State Fault Refusal :=
  match decodeWord s.fetch with
  | .ok i => exec i s
  | .error _ => .next (completeIllegal s s.fetch)

/-- A sequencer turn: *complete* where it is enabled, that is while BUSY = 1 (10_state.md R18). -/
def sequencerTurn (s : State) : Host.Outcome State Fault Refusal :=
  if s.status.busy then completeCommand s else .next s

/-- How many answers the running command may have had after one more: request `m` is then the pending one. -/
def Seq.answersAllowed (q : Seq) : Nat :=
  match q.pending with
  | none => 0
  | some (.setup _) => 1
  | some (.enc _ _) => q.blockIndex + 2
  | some (.dec _ _) => q.blockIndex + 2

/-- The hidden state of the running command `i` with request number `m` and every later one not yet answered: the
requests go one at a time, each waiting for its answer (41_cbc.md R86), so the command stands at its request `m`, which
is the pending one, or has no request left to make. -/
def State.hiddenAt (s : State) (i : Instr) (m : Nat) : Seq :=
  if s.cfg.bufMax < s.inLen.toNat then s.seq
  else (bodyOf i (primOf s.cfg) (fun k => if k < m then s.port.draw k else true) s.snapshot ⟨s.seq, []⟩).2.seq

/-- A work turn (log 12): the running command gets on to its next primitive request. Only hidden state changes
(10_state.md R34); a command with its last answer, an illegal one or an idle PCU has nothing to get on with. -/
def workTurn (s : State) : State :=
  if s.status.busy then
    match decodeWord s.fetch with
    | .ok i =>
      if s.seq.handle.isSome && s.seq.pending.isNone then s
      else { s with seq := s.hiddenAt i s.seq.answersAllowed }
    | .error _ => s
  else s

/-- Who acts: the next entry of `turns`; where it is empty, the sequencer while BUSY and the host while idle
(60_exceptions.md R108 allows every order; log 2). -/
def State.nextTurn (s : State) : Turn :=
  match s.turns with
  | t :: _ => t
  | [] => if s.status.busy then .sequencer else .host

/-- The state once the turn has been taken off the list. -/
def State.popTurn (s : State) : State := { s with turns := s.turns.tail }

/-- One agent acts (00_scope.md R10). A reset wins over everything: in its turn nothing else happens
(70_reset_and_hazards.md R119; log 16). -/
def takeTurn (t : Turn) (s : State) : Host.Outcome State Fault Refusal :=
  match t with
  | .host => hostTurn s
  | .sequencer => sequencerTurn s
  | .work => .next (workTurn s)
  | .reset => .next s.applyReset

end Sys2Proof.Machine
end

