-- ==== Sys2Proof/Machine/Step.lean ====
section
/-! DEFINITION. One step of the machine, and the host's way to place a command (log 20). -/

namespace Sys2Proof.Machine

/-- One step: the agent whose turn it is acts. A configuration the spec does not define is refused (00_scope.md R5, D32;
log 11). -/
def step (s : State) : Host.Outcome State Fault Refusal :=
  if s.cfg.wf then takeTurn s.nextTurn s.popTurn else .refused .illFormedConfig

/-- `s` with the command word `w` written to CMD by a command start (60_exceptions.md R105) and the sequencer's turn
next, so that the next step runs it (log 20). -/
def State.withFetchWord (s : State) (nbits w : Nat) : State :=
  { s.startCommand (wordOf (w % 2 ^ nbits)) with turns := .sequencer :: s.turns }

end Sys2Proof.Machine
end

