-- ==== Sys2Proof/Safety.lean ====
section
/-! DEFINITION. The terms claims use: what a completion does and leaves alone, which errors there are, the machine's
invariant, when results may be read and when a run has ended. -/

namespace Sys2Proof.Machine

/-- What no command changes (10_state.md R14, R29 to R31, R36; 60_exceptions.md R103, R104): the configuration, CMD, the
operand registers, ACCESS_ERR, and every byte of memory outside OUT[0 .. n). Nor the other agents' data. -/
structure KeptByCommand (s t : State) (n : Nat) : Prop where
  cfg : t.cfg = s.cfg
  cmd : t.cmd = s.cmd
  blockLen : t.blockLen = s.blockLen
  inLen : t.inLen = s.inLen
  keyLen : t.keyLen = s.keyLen
  ivLen : t.ivLen = s.ivLen
  accessErr : t.status.accessErr = s.status.accessErr
  memory : ∀ a, ¬(bufStart .output ≤ a ∧ a < bufStart .output + n) → memGet t.mem a = memGet s.mem a
  host : t.host = s.host
  turns : t.turns = s.turns
  events : t.events = s.events

/-- The command has ended: BUSY 0, DONE 1, hidden state discarded, and the primitive port saw exactly `sent`
(60_exceptions.md R103, R104; 41_cbc.md R86, R89). -/
structure CommandEnded (s t : State) (sent : List Request) : Prop where
  busy : t.status.busy = false
  done : t.status.done = true
  hidden : t.seq = Seq.discarded
  port : t.port = s.port.advance sent
  reads : t.reads = s.reads + 1

/-- A successful completion with result `r` (60_exceptions.md R104), and its frame. -/
structure Committed (s t : State) (r : Bytes) (sent : List Request) : Prop where
  kept : KeptByCommand s t r.length
  ended : CommandEnded s t sent
  out : ∀ k, k < r.length → memGet t.mem (bufStart .output + k) = r[k]?
  outLen : t.outLen = wordOf r.length
  kind : t.status.kind = .noError
  stage : t.status.stage = .interface
  cause : t.status.cause = .success
  info0 : t.errInfo0 = 0#32
  info1 : t.errInfo1 = 0#32

/-- An error completion with record `e` (60_exceptions.md R103), and its frame: no byte of memory changes. -/
structure Failed (s t : State) (e : ErrorRec) (sent : List Request) : Prop where
  kept : KeptByCommand s t 0
  ended : CommandEnded s t sent
  outLen : t.outLen = 0#32
  kind : t.status.kind = e.kind
  stage : t.status.stage = e.stage
  cause : t.status.cause = e.cause
  info0 : t.errInfo0 = e.info0
  info1 : t.errInfo1 = e.info1

/-- `IN[0 .. IN_LEN)` as the command's read event finds it (10_state.md R31, R33). -/
def State.inData (s : State) : Bytes := s.readBytes .input s.inLen.toNat

/-- `KEY[0 .. KEY_LEN)` (10_state.md R29). -/
def State.keyData (s : State) : Bytes := s.readBytes .key s.keyLen.toNat

/-- `IV[0 .. BLOCK_SIZE)` (10_state.md R30). -/
def State.ivData (s : State) : Bytes := s.readBytes .iv s.cfg.blockSize

/-- Block `i` of a sequence, `d[i*B .. (i+1)*B)` (00_scope.md R8). -/
def blockOf (B : Nat) (d : Bytes) (i : Nat) : Bytes := (d.drop (i * B)).take B

/-- The block before block `i`, with the IV before block 0 (41_cbc.md R84, R85: `RES_{-1} = IV`, `d_{-1} = IV`). -/
def chainBefore (B : Nat) (iv c : Bytes) : Nat → Bytes
  | 0 => iv
  | i + 1 => blockOf B c i

/-- `c` is the CBC encryption of `d`: `C[i] = E k (P[i] XOR C[i-1])` for every block (41_cbc.md R84). -/
structure IsCbcEncryption (P : Prim) (B : Nat) (k iv d c : Bytes) : Prop where
  length : c.length = d.length
  block : ∀ i, i < d.length / B → blockOf B c i = P.enc k (xorBlock (blockOf B d i) (chainBefore B iv c i))

/-- `p` is the CBC decryption of `d`: `P[i] = D k (C[i]) XOR C[i-1]` for every block (41_cbc.md R85). -/
structure IsCbcDecryption (P : Prim) (B : Nat) (k iv d p : Bytes) : Prop where
  length : p.length = d.length
  block : ∀ i, i < d.length / B → blockOf B p i = xorBlock (P.dec k (blockOf B d i)) (chainBefore B iv d i)

/-- The hidden state while a CBC encryption of `d` waits for block `i`: CHAIN holds `C[i-1]` (the IV for block 0), RES the
blocks before `i`, and the pending request is block `i`'s (10_state.md R34, 41_cbc.md R84, R86). -/
structure Seq.AwaitsEnc (q : Seq) (B : Nat) (k iv d c : Bytes) (i : Nat) : Prop where
  chain : q.chain = chainBefore B iv c i
  res : q.res = c.take (i * B)
  blockIndex : q.blockIndex = i
  handle : q.handle = some k
  pending : q.pending = some (.enc k (xorBlock (blockOf B d i) (chainBefore B iv c i)))

/-- The hidden state while a CBC decryption of `d` waits for block `i`: CHAIN holds the input block before `i`
(10_state.md R34, 41_cbc.md R85, R86). -/
structure Seq.AwaitsDec (q : Seq) (B : Nat) (k iv d p : Bytes) (i : Nat) : Prop where
  chain : q.chain = chainBefore B iv d i
  res : q.res = p.take (i * B)
  blockIndex : q.blockIndex = i
  handle : q.handle = some k
  pending : q.pending = some (.dec k (blockOf B d i))

/-- Every request of a CBC encryption of `d` with result `c` that no fault stops (41_cbc.md R86). -/
def encRequestsOf (B : Nat) (k iv d c : Bytes) : List Request :=
  .setup k :: (List.range (d.length / B)).map fun i => .enc k (xorBlock (blockOf B d i) (chainBefore B iv c i))

/-- Every request of a CBC decryption of `d` that no fault stops (41_cbc.md R86). -/
def decRequestsOf (B : Nat) (k d : Bytes) : List Request :=
  .setup k :: (List.range (d.length / B)).map fun i => .dec k (blockOf B d i)

/-- The configuration accepts a key of this length: `KEY_LEN ∈ KEY_SIZES` (41_cbc.md R83). -/
abbrev State.keySizeOk (s : State) : Prop := s.keyLen.toNat ∈ s.cfg.keySizes

/-- No request of the running command up to number `n` faults (41_cbc.md R81). -/
def State.noFaultUpTo (s : State) (n : Nat) : Prop := ∀ m, m ≤ n → s.port.draw m = false

/-- Request `m` is the first of the running command that faults (41_cbc.md R86). -/
def State.firstFault (s : State) (m : Nat) : Prop := s.port.draw m = true ∧ ∀ m', m' < m → s.port.draw m' = false

/-- The block length is one a command rejects: `∉ [1, 255]` (40_padding.md R72, R73). -/
abbrev badBlockLen (n : Nat) : Prop := n < 1 ∨ 255 < n

/-- `AllEqual(t, p)`: every byte of `t` equals `p` (40_padding.md R75). -/
abbrev allEqual (t : Bytes) (p : Byte) : Prop := ∀ b, b ∈ t → b = p

/-- The final `n` bytes of a sequence. -/
abbrev lastBytes (d : Bytes) (n : Nat) : Bytes := d.drop (d.length - n)

/-- The value of the last byte: the claimed padding length (40_padding.md R73). -/
abbrev lastByte (d : Bytes) : Byte := d.getLastD 0#8

/-- The info value of a PRIM_FAULT at request `m`: block index `m - 1`, or 0xFFFFFFFF for `setup` (41_cbc.md R86). -/
def faultInfo (m : Nat) : Word := if m = 0 then 0xFFFFFFFF#32 else wordOf (m - 1)

/-- The rows of 60_exceptions.md R101: cause, kind and the stages that may raise it. -/
def Cause.row : Cause → Kind × List Stage
  | .success => (.noError, [.interface])
  | .illegalCmd => (.invalidInput, [.interface])
  | .inLenRange => (.invalidInput, [.interface])
  | .blockLenRange => (.invalidInput, [.pad, .unpad])
  | .unpadLen => (.invalidInput, [.unpad])
  | .padLenValue => (.invalidInput, [.unpad])
  | .padByteMismatch => (.invalidInput, [.unpad])
  | .keySize => (.invalidInput, [.cbc])
  | .dataMisaligned => (.invalidInput, [.cbc])
  | .ivLen => (.invalidInput, [.cbc])
  | .primFault => (.unexpectedFault, [.cbc])

/-- KIND, STAGE and CAUSE stand in one row of 60_exceptions.md R101. -/
def Status.inTable (st : Status) : Prop := st.kind = st.cause.row.1 ∧ st.stage ∈ st.cause.row.2

/-- The machine's invariant: it holds at reset and every step keeps it. -/
structure State.Inv (s : State) : Prop where
  /-- The configuration is well formed (00_scope.md R5). -/
  cfg : s.cfg.wf = true
  /-- Memory keeps its canonical form. -/
  canonical : Memory.wf s.mem
  /-- Every byte held lies in KEY, IV, IN or OUT (20_memory.md R43, R50). -/
  inBuffers : ∀ c, c ∈ s.mem → (bufferAt s.cfg c.1).isSome = true
  /-- `BUSY = 1, DONE = 1` never occurs (10_state.md R19). -/
  notBusyAndDone : s.status.busy = true → s.status.done = false
  /-- While BUSY, KIND, STAGE, CAUSE and the info registers read 0 (70_reset_and_hazards.md R126). -/
  busyReadsClear : s.status.busy = true → s.status.cause = .success
  /-- KIND, STAGE and CAUSE stand in one row of the table (60_exceptions.md R101). -/
  row : s.status.inTable
  /-- Without an error the info registers are 0 (10_state.md R25, 60_exceptions.md R104, R105). -/
  infoClear : s.status.cause = .success → s.errInfo0 = 0#32 ∧ s.errInfo1 = 0#32
  /-- After an error OUT_LEN is 0 (60_exceptions.md R103). -/
  errorOutLen : s.status.cause ≠ .success → s.outLen = 0#32
  /-- `BUSY = 0, DONE = 0` means no command has completed since reset (10_state.md R19): nothing is left of one. -/
  idleFresh : s.status.busy = false → s.status.done = false →
    s.cmd = 0#32 ∧ s.status.cause = .success ∧ s.outLen = 0#32
  /-- A result fits OUT (10_state.md R32). -/
  outFits : s.outLen.toNat ≤ s.cfg.outMax
  /-- Every byte of the last result has been committed (60_exceptions.md R104). -/
  outWritten : ∀ k, k < s.outLen.toNat → (memGet s.mem (bufStart .output + k)).isSome = true
  /-- Hidden state is held only while a command runs (10_state.md R34). -/
  hidden : s.status.busy = false → s.seq = Seq.discarded

/-- The results may be read: a command has completed and none runs (20_memory.md R55, 70_reset_and_hazards.md R123). -/
def State.resultsValid (s : State) : Prop := s.status.busy = false ∧ s.status.done = true

/-- The result fields hold: DONE, KIND, STAGE, CAUSE, OUT_LEN and the info registers read as before (10_state.md R19,
R24, R25, 60_exceptions.md R111). -/
structure State.SameResults (s t : State) : Prop where
  done : t.status.done = s.status.done
  kind : t.status.kind = s.status.kind
  stage : t.status.stage = s.status.stage
  cause : t.status.cause = s.status.cause
  outLen : t.outLen = s.outLen
  info0 : t.errInfo0 = s.errInfo0
  info1 : t.errInfo1 = s.errInfo1

/-- The next step is the host's 32-bit write to CMD: while idle, a command start (60_exceptions.md R105). -/
def State.startsNext (s : State) (w : Word) : Prop :=
  s.nextTurn = .host ∧ ∃ rest, s.host = .access (.write (s.cfg.base + 0x000) 4 w) :: rest

/-- Every byte of a buffer's first `n` has been written since reset. -/
def State.written (s : State) (b : Buffer) (n : Nat) : Prop := ∀ k, k < n → (memGet s.mem (bufStart b + k)).isSome = true

/-- The bytes software must have written before a command (70_reset_and_hazards.md R121). -/
def State.operandsWritten (s : State) : Instr → Prop
  | .pad | .unpad => s.written .input s.inLen.toNat
  | .encrypt | .decrypt | .encryptPadded | .decryptPadded =>
    s.written .input s.inLen.toNat ∧ s.written .key s.keyLen.toNat ∧ s.written .iv s.ivLen.toNat

/-- What software does to feed a command's result into the next command: copy `OUT[0..OUT_LEN)` to IN and write IN_LEN
(70_reset_and_hazards.md R127). -/
def State.copyOutToIn (s : State) : State :=
  { s with
    mem := memSetBytes s.mem (bufStart .input) (s.readBytes .output s.outLen.toNat)
    inLen := s.outLen }

/-- `OUT[0 .. OUT_LEN)` holds exactly the bytes `r`. -/
structure State.Result (s : State) (r : Bytes) : Prop where
  outLen : s.outLen = wordOf r.length
  bytes : ∀ k, k < r.length → memGet s.mem (bufStart .output + k) = r[k]?

/-- The two memories hold the same bytes outside a buffer. -/
def sameOutside (c : Config) (b : Buffer) (m m' : Memory) : Prop :=
  ∀ a, inBuffer c b a = false → memGet m a = memGet m' a

/-- The block length a command uses: BLOCK_LEN for PAD and UNPAD, BLOCK_SIZE for the padded commands (00_scope.md R12). -/
def State.blockLenOf (s : State) : Instr → Nat
  | .pad | .unpad => s.blockLen.toNat
  | .encrypt | .decrypt | .encryptPadded | .decryptPadded => s.cfg.blockSize

/-- The causes a command may report, in the order of its checks (60_exceptions.md R101, R102). BLOCK_LEN_RANGE cannot
occur in the padded commands of a well-formed configuration (42_padded.md R93, R94). -/
def causesOf : Instr → List Cause
  | .pad => [.success, .inLenRange, .blockLenRange]
  | .unpad => [.success, .inLenRange, .blockLenRange, .unpadLen, .padLenValue, .padByteMismatch]
  | .encrypt | .decrypt => [.success, .inLenRange, .keySize, .dataMisaligned, .ivLen, .primFault]
  | .encryptPadded => [.success, .inLenRange, .keySize, .ivLen, .primFault]
  | .decryptPadded =>
    [.success, .inLenRange, .keySize, .dataMisaligned, .ivLen, .primFault, .unpadLen, .padLenValue, .padByteMismatch]

/-- The stage a cause is reported at by a command (60_exceptions.md R101). -/
def stageOf (i : Instr) : Cause → Stage
  | .success | .illegalCmd | .inLenRange => .interface
  | .blockLenRange =>
    match i with
    | .pad | .encryptPadded => .pad
    | .unpad | .decryptPadded | .encrypt | .decrypt => .unpad
  | .unpadLen | .padLenValue | .padByteMismatch => .unpad
  | .keySize | .dataMisaligned | .ivLen | .primFault => .cbc

/-- After the last command start in the log (newest first) a STATUS read has returned BUSY = 0, or no command was started
(R131). A reset is no such read. -/
def polledSinceStart (c : Config) : List Event → Bool
  | [] => true
  | .reset :: es => polledSinceStart c es
  | .bus a o :: es =>
    match a, o with
    | .read addr _, .value v =>
      if addr = regAddr c .status ∧ v.getLsbD 0 = false then true else polledSinceStart c es
    | .write addr _ _, .written => if addr = regAddr c .cmd then false else polledSinceStart c es
    | _, _ => polledSinceStart c es

/-- The host program's run has ended (70_reset_and_hazards.md R131). -/
def State.ended (s : State) : Prop := s.host = [] ∧ polledSinceStart s.cfg s.events = true

end Sys2Proof.Machine
end

