-- ==== Sys2Proof/Certificates/Slice0/Obligations.lean ====
section
/-! DEFINITION. The statements about the PCU model, from the spec's numbered rules. -/

open Sys2Proof Sys2Proof.Machine

/-! ### Decoding (30_encoding.md) -/

/-- The six command words, written out from the table of R60, decode to their commands. -/
def Obligations.SpecWordsDecodeToTheirCommands : Prop :=
  decodeWord 0x00000001#32 = .ok .pad ∧ decodeWord 0x00000002#32 = .ok .unpad ∧
  decodeWord 0x00000003#32 = .ok .encrypt ∧ decodeWord 0x00000004#32 = .ok .decrypt ∧
  decodeWord 0x00000005#32 = .ok .encryptPadded ∧ decodeWord 0x00000006#32 = .ok .decryptPadded

/-- R60: a word is a legal command exactly when it is one of the six, and each of the six is its own command. -/
def Obligations.LegalWordsAreExactlyTheSix : Prop :=
  ∀ w : Word,
    (decodeWord w = .ok .pad ↔ w = 0x00000001#32) ∧ (decodeWord w = .ok .unpad ↔ w = 0x00000002#32) ∧
    (decodeWord w = .ok .encrypt ↔ w = 0x00000003#32) ∧ (decodeWord w = .ok .decrypt ↔ w = 0x00000004#32) ∧
    (decodeWord w = .ok .encryptPadded ↔ w = 0x00000005#32) ∧
    (decodeWord w = .ok .decryptPadded ↔ w = 0x00000006#32) ∧
    ((∃ i, decodeWord w = .ok i) ↔ 1 ≤ w.toNat ∧ w.toNat ≤ 6)

/-- R61, R62: a word with an RSV bit set is rejected under that name whatever its OP, and a word with RSV = 0 and OP 0x0
or 0x7 to 0xF is rejected as a reserved OP. -/
def Obligations.ReservedWordsAreRejectedByName : Prop :=
  ∀ w : Word,
    (w.toNat / 16 ≠ 0 → decodeWord w = .error (.reservedBits w)) ∧
    (w.toNat / 16 = 0 → (w.toNat = 0 ∨ 7 ≤ w.toNat) → decodeWord w = .error (.reservedOp w))

/-- R69: the field decoder agrees with the search of the opcode table, every row has mask 0xFFFFFFFF, and at most one
row matches a word. -/
def Obligations.DecoderIsTheOpcodeTableSearch : Prop :=
  ∀ w : Word,
    (∀ r, r ∈ opcodeTable → r.mask = 0xFFFFFFFF#32 ∧ (r.matches w = true → decodeWord w = .ok r.instr)) ∧
    ((∀ r, r ∈ opcodeTable → r.matches w = false) → ∀ i, decodeWord w ≠ .ok i) ∧
    (∀ r r', r ∈ opcodeTable → r' ∈ opcodeTable → r.matches w = true → r'.matches w = true → r = r')

/-- Decode and encode agree in both directions: a byte sequence decodes to `i` with `rest` left exactly when it is the
four bytes of `i`'s word followed by `rest`. The byte order of the word is the model's choice (log 15). -/
def Obligations.DecodeAndEncodeAgree : Prop :=
  ∀ (bs : Bytes) (i : Instr) (rest : Bytes), decode bs = .ok (i, rest) ↔ bs = encodeBytes i ++ rest

/-! ### Running a command -/

/-- When the sequencer acts on a busy PCU whose CMD decodes to `i`, the step is `exec i` on the state with that turn
taken off the list, and nothing else is done. -/
def Obligations.StepRunsTheDecodedCommand : Prop :=
  ∀ (s : State) (i : Instr), s.cfg.wf = true → s.status.busy = true → s.nextTurn = .sequencer →
    decodeWord s.cmd = .ok i → step s = exec i { s with turns := s.turns.tail }

/-- A command word placed as by a CMD write runs at the very next step (log 20). -/
def Obligations.PlacedWordRunsNext : Prop :=
  ∀ (s : State) (i : Instr), s.cfg.wf = true →
    step (s.withFetchWord 32 (encode i).toNat) = exec i (s.startCommand (encode i))

/-- R62: every word outside the six starts a command when written to CMD while idle, and that command completes with
ILLEGAL_CMD, the word as info, no primitive request and OUT unchanged. -/
def Obligations.IllegalWordStartsAndCompletesWithError : Prop :=
  ∀ (s : State) (w : Word), s.status.busy = false → ¬(1 ≤ w.toNat ∧ w.toNat ≤ 6) →
    ∃ t u, s.busWrite 0x000 4 w = (.written, t) ∧ t.cmd = w ∧ t.status.busy = true ∧ sequencerTurn t = .next u ∧
      Failed t u ⟨.invalidInput, .interface, .illegalCmd, w, 0#32⟩ [] ∧ u.mem = s.mem

/-! ### The six commands, every case -/

/-- R72: PAD completes in every state, with IN_LEN_RANGE, with BLOCK_LEN_RANGE, or with the padded input. -/
def Obligations.PadCompletesInEveryCase : Prop :=
  ∀ s : State, ∃ t, exec .pad s = .next t ∧
    if s.cfg.bufMax < s.inLen.toNat then
      Failed s t ⟨.invalidInput, .interface, .inLenRange, s.inLen, wordOf s.cfg.bufMax⟩ []
    else if badBlockLen s.blockLen.toNat then
      Failed s t ⟨.invalidInput, .pad, .blockLenRange, s.blockLen, 0#32⟩ []
    else
      ∃ p, 1 ≤ p ∧ p ≤ s.blockLen.toNat ∧ (s.inLen.toNat + p) % s.blockLen.toNat = 0 ∧
        Committed s t (s.inData ++ List.replicate p (BitVec.ofNat 8 p)) []

/-- R76: UNPAD completes in every state: IN_LEN_RANGE, then the four checks of R73 in their order, then the input
without its last `p` bytes, `p` the value of its last byte. -/
def Obligations.UnpadCompletesInEveryCase : Prop :=
  ∀ s : State, ∃ t, exec .unpad s = .next t ∧
    let d := s.inData
    let n := s.blockLen.toNat
    let p := lastByte d
    if s.cfg.bufMax < s.inLen.toNat then
      Failed s t ⟨.invalidInput, .interface, .inLenRange, s.inLen, wordOf s.cfg.bufMax⟩ []
    else if badBlockLen n then
      Failed s t ⟨.invalidInput, .unpad, .blockLenRange, s.blockLen, 0#32⟩ []
    else if d.length = 0 ∨ d.length % n ≠ 0 then
      Failed s t ⟨.invalidInput, .unpad, .unpadLen, s.inLen, s.blockLen⟩ []
    else if p.toNat = 0 ∨ n < p.toNat then
      Failed s t ⟨.invalidInput, .unpad, .padLenValue, s.inLen, s.blockLen⟩ []
    else if ¬allEqual (lastBytes d p.toNat) p then
      Failed s t ⟨.invalidInput, .unpad, .padByteMismatch, s.inLen, s.blockLen⟩ []
    else Committed s t (d.take (d.length - p.toNat)) []

/-- R87: ENCRYPT completes in every state of a well-formed configuration: IN_LEN_RANGE, KEY_SIZE, DATA_MISALIGNED,
IV_LEN in this order and with no request, then PRIM_FAULT at the first request that faults, or the CBC encryption of the
input after one `setup` and one request per block. -/
def Obligations.EncryptCompletesInEveryCase : Prop :=
  ∀ s : State, s.cfg.wf = true → ∃ t, exec .encrypt s = .next t ∧
    let B := s.cfg.blockSize
    let N := s.inLen.toNat / B
    if s.cfg.bufMax < s.inLen.toNat then
      Failed s t ⟨.invalidInput, .interface, .inLenRange, s.inLen, wordOf s.cfg.bufMax⟩ []
    else if ¬s.keySizeOk then Failed s t ⟨.invalidInput, .cbc, .keySize, s.keyLen, 0#32⟩ []
    else if s.inLen.toNat % B ≠ 0 then
      Failed s t ⟨.invalidInput, .cbc, .dataMisaligned, s.inLen, wordOf B⟩ []
    else if s.ivLen.toNat ≠ B then Failed s t ⟨.invalidInput, .cbc, .ivLen, s.ivLen, wordOf B⟩ []
    else
      (∀ m, m ≤ N → s.firstFault m →
        ∃ sent, sent.length = m + 1 ∧ Failed s t ⟨.unexpectedFault, .cbc, .primFault, faultInfo m, 0#32⟩ sent) ∧
      (s.noFaultUpTo N →
        ∃ c sent, IsCbcEncryption (primOf s.cfg) B s.keyData s.ivData s.inData c ∧ sent.length = N + 1 ∧
          Committed s t c sent)

/-- R88: DECRYPT, with ENCRYPT's checks, errors and order, and the CBC decryption of the input. -/
def Obligations.DecryptCompletesInEveryCase : Prop :=
  ∀ s : State, s.cfg.wf = true → ∃ t, exec .decrypt s = .next t ∧
    let B := s.cfg.blockSize
    let N := s.inLen.toNat / B
    if s.cfg.bufMax < s.inLen.toNat then
      Failed s t ⟨.invalidInput, .interface, .inLenRange, s.inLen, wordOf s.cfg.bufMax⟩ []
    else if ¬s.keySizeOk then Failed s t ⟨.invalidInput, .cbc, .keySize, s.keyLen, 0#32⟩ []
    else if s.inLen.toNat % B ≠ 0 then
      Failed s t ⟨.invalidInput, .cbc, .dataMisaligned, s.inLen, wordOf B⟩ []
    else if s.ivLen.toNat ≠ B then Failed s t ⟨.invalidInput, .cbc, .ivLen, s.ivLen, wordOf B⟩ []
    else
      (∀ m, m ≤ N → s.firstFault m →
        ∃ sent, sent.length = m + 1 ∧ Failed s t ⟨.unexpectedFault, .cbc, .primFault, faultInfo m, 0#32⟩ sent) ∧
      (s.noFaultUpTo N →
        ∃ p sent, IsCbcDecryption (primOf s.cfg) B s.keyData s.ivData s.inData p ∧ sent.length = N + 1 ∧
          Committed s t p sent)

/-- R93: ENCRYPT_PADDED completes in every state of a well-formed configuration: IN_LEN_RANGE, KEY_SIZE, IV_LEN, then
PRIM_FAULT at the first request that faults, or the CBC encryption of the padded input, one block per BLOCK_SIZE bytes
of it. -/
def Obligations.EncryptPaddedCompletesInEveryCase : Prop :=
  ∀ s : State, s.cfg.wf = true → ∃ t, exec .encryptPadded s = .next t ∧
    let B := s.cfg.blockSize
    let N := s.inLen.toNat / B + 1
    if s.cfg.bufMax < s.inLen.toNat then
      Failed s t ⟨.invalidInput, .interface, .inLenRange, s.inLen, wordOf s.cfg.bufMax⟩ []
    else if ¬s.keySizeOk then Failed s t ⟨.invalidInput, .cbc, .keySize, s.keyLen, 0#32⟩ []
    else if s.ivLen.toNat ≠ B then Failed s t ⟨.invalidInput, .cbc, .ivLen, s.ivLen, wordOf B⟩ []
    else
      (∀ m, m ≤ N → s.firstFault m →
        ∃ sent, sent.length = m + 1 ∧ Failed s t ⟨.unexpectedFault, .cbc, .primFault, faultInfo m, 0#32⟩ sent) ∧
      (s.noFaultUpTo N →
        ∃ p c sent, p = B - s.inLen.toNat % B ∧
          IsCbcEncryption (primOf s.cfg) B s.keyData s.ivData
            (s.inData ++ List.replicate p (BitVec.ofNat 8 p)) c ∧
          c.length = s.inLen.toNat + p ∧ sent.length = N + 1 ∧ Committed s t c sent)

/-- R94: DECRYPT_PADDED completes in every state of a well-formed configuration: DECRYPT's checks and faults at stage
CBC, then the Unpad checks of R73 on the decrypted bytes at stage UNPAD, then those bytes without their last `p`. -/
def Obligations.DecryptPaddedCompletesInEveryCase : Prop :=
  ∀ s : State, s.cfg.wf = true → ∃ t, exec .decryptPadded s = .next t ∧
    let B := s.cfg.blockSize
    let N := s.inLen.toNat / B
    if s.cfg.bufMax < s.inLen.toNat then
      Failed s t ⟨.invalidInput, .interface, .inLenRange, s.inLen, wordOf s.cfg.bufMax⟩ []
    else if ¬s.keySizeOk then Failed s t ⟨.invalidInput, .cbc, .keySize, s.keyLen, 0#32⟩ []
    else if s.inLen.toNat % B ≠ 0 then
      Failed s t ⟨.invalidInput, .cbc, .dataMisaligned, s.inLen, wordOf B⟩ []
    else if s.ivLen.toNat ≠ B then Failed s t ⟨.invalidInput, .cbc, .ivLen, s.ivLen, wordOf B⟩ []
    else
      (∀ m, m ≤ N → s.firstFault m →
        ∃ sent, sent.length = m + 1 ∧ Failed s t ⟨.unexpectedFault, .cbc, .primFault, faultInfo m, 0#32⟩ sent) ∧
      (s.noFaultUpTo N →
        ∃ q sent, IsCbcDecryption (primOf s.cfg) B s.keyData s.ivData s.inData q ∧ sent.length = N + 1 ∧
          let p := lastByte q
          if q.length = 0 then Failed s t ⟨.invalidInput, .unpad, .unpadLen, 0#32, wordOf B⟩ sent
          else if p.toNat = 0 ∨ B < p.toNat then
            Failed s t ⟨.invalidInput, .unpad, .padLenValue, s.inLen, wordOf B⟩ sent
          else if ¬allEqual (lastBytes q p.toNat) p then
            Failed s t ⟨.invalidInput, .unpad, .padByteMismatch, s.inLen, wordOf B⟩ sent
          else Committed s t (q.take (q.length - p.toNat)) sent)

/-- Each command completes successfully, with BUSY 0, DONE 1 and no error, under conditions on the state alone: the
lengths fit, the key size is accepted, no request faults, and (for UNPAD and DECRYPT_PADDED) the padding is intact. -/
def Obligations.CommandsSucceedOnGoodOperands : Prop :=
  ∀ s : State, s.cfg.wf = true → s.inLen.toNat ≤ s.cfg.bufMax →
    (¬badBlockLen s.blockLen.toNat →
      ∃ t, exec .pad s = .next t ∧ Committed s t (pad s.inData s.blockLen.toNat) []) ∧
    (∀ d, ¬badBlockLen s.blockLen.toNat → s.inData = pad d s.blockLen.toNat →
      ∃ t, exec .unpad s = .next t ∧ Committed s t d []) ∧
    (s.keySizeOk → s.ivLen.toNat = s.cfg.blockSize → s.noFaultUpTo (s.inLen.toNat / s.cfg.blockSize + 1) →
      (s.inLen.toNat % s.cfg.blockSize = 0 →
        (∃ t c sent, exec .encrypt s = .next t ∧ Committed s t c sent) ∧
        (∃ t p sent, exec .decrypt s = .next t ∧ Committed s t p sent) ∧
        (∀ d, IsCbcDecryption (primOf s.cfg) s.cfg.blockSize s.keyData s.ivData s.inData (pad d s.cfg.blockSize) →
          ∃ t sent, exec .decryptPadded s = .next t ∧ Committed s t d sent)) ∧
      (∃ t c sent, exec .encryptPadded s = .next t ∧ Committed s t c sent))

/-- R86: the requests of a CBC command, in order: `setup` with the key first, then one request per block in index order
with the handle that `setup` answered, and nothing after the first request that faults. ENCRYPT_PADDED's blocks are the
padded input's, and DECRYPT_PADDED sends what DECRYPT sends, whatever becomes of the padding (R93, R94). -/
def Obligations.PortRequestsGoInIndexOrder : Prop :=
  ∀ s : State, s.cfg.wf = true → s.inLen.toNat ≤ s.cfg.bufMax → s.keySizeOk → s.ivLen.toNat = s.cfg.blockSize →
    let B := s.cfg.blockSize
    let sends := fun (i : Instr) (all : List Request) =>
      ∃ t, exec i s = .next t ∧
        (s.noFaultUpTo (all.length - 1) → t.port.log = s.port.log ++ all) ∧
        ∀ m, m < all.length → s.firstFault m → t.port.log = s.port.log ++ all.take (m + 1)
    (s.inLen.toNat % B = 0 →
      (∃ c, IsCbcEncryption (primOf s.cfg) B s.keyData s.ivData s.inData c ∧
        sends .encrypt (encRequestsOf B s.keyData s.ivData s.inData c)) ∧
      sends .decrypt (decRequestsOf B s.keyData s.inData) ∧
      sends .decryptPadded (decRequestsOf B s.keyData s.inData)) ∧
    ∃ c, IsCbcEncryption (primOf s.cfg) B s.keyData s.ivData (pad s.inData B) c ∧
      sends .encryptPadded (encRequestsOf B s.keyData s.ivData (pad s.inData B) c)

/-- R92: on empty data with good operands a CBC command sends `setup` and nothing else: it succeeds with an empty
result, or fails with PRIM_FAULT and info 0xFFFFFFFF when `setup` faults. -/
def Obligations.EmptyDataSendsOnlySetup : Prop :=
  ∀ (s : State) (i : Instr), i = .encrypt ∨ i = .decrypt → s.cfg.wf = true → s.inLen = 0#32 → s.keySizeOk →
    s.ivLen.toNat = s.cfg.blockSize →
    ∃ t, exec i s = .next t ∧
      if s.port.draw 0 = true then
        Failed s t ⟨.unexpectedFault, .cbc, .primFault, 0xFFFFFFFF#32, 0#32⟩ [.setup s.keyData]
      else Committed s t [] [.setup s.keyData]

/-! ### What a command's result depends on -/

/-- R35: no command state survives a completion: the hidden state is discarded, nothing outside STATUS, OUT_LEN, the
info registers and OUT has changed, and what hidden state there was had no effect on the result. -/
def Obligations.NoCommandStateSurvives : Prop :=
  ∀ (i : Instr) (s : State), s.cfg.wf = true →
    ∃ t, exec i s = .next t ∧ t.seq = Seq.discarded ∧ KeptByCommand s t t.outLen.toNat ∧
    ∀ q : Seq, exec i { s with seq := q } = .next t

/-- R96: the padded commands do not read BLOCK_LEN: with another value there, everything but BLOCK_LEN comes out the
same. -/
def Obligations.PaddedCommandsIgnoreBlockLen : Prop :=
  ∀ (i : Instr) (s : State) (v : Word), i = .encryptPadded ∨ i = .decryptPadded →
    ∃ t, exec i s = .next t ∧ exec i { s with blockLen := v } = .next { t with blockLen := v }

/-- A command's result does not depend on STATUS: with any other STATUS before it, only ACCESS_ERR differs after it. -/
def Obligations.ResultsDoNotDependOnStatus : Prop :=
  ∀ (i : Instr) (s : State) (st : Status),
    ∃ t, exec i s = .next t ∧
      exec i { s with status := st } = .next { t with status := { t.status with accessErr := st.accessErr } }

/-- A command never reads OUT: with other bytes in OUT before it, its status, lengths and info values are the same, the
bytes it commits are the same, and every byte it does not commit keeps its own value. -/
def Obligations.CommandsNeverReadOut : Prop :=
  ∀ (i : Instr) (s : State) (m : Memory), s.cfg.wf = true → sameOutside s.cfg .output s.mem m →
    ∃ t u, exec i s = .next t ∧ exec i { s with mem := m } = .next u ∧ u = { t with mem := u.mem } ∧
      (∀ k, k < t.outLen.toNat →
        memGet u.mem (bufStart .output + k) = memGet t.mem (bufStart .output + k)) ∧
      (∀ k, t.outLen.toNat ≤ k → memGet u.mem (bufStart .output + k) = memGet m (bufStart .output + k))

/-- Where software has written every operand byte a command reads (R121), the command's result does not depend on the
free draws for never-written bytes. -/
def Obligations.WrittenOperandsLeaveNoFreeByte : Prop :=
  ∀ (i : Instr) (s : State) (n : Nat), s.cfg.wf = true → s.operandsWritten i →
    ∃ t, exec i s = .next t ∧ exec i { s with reads := n } = .next { t with reads := n + 1 }

/-- R101: the cause codes; and KIND, STAGE, CAUSE and the info values of every completion stand in one row of the
table, a row that names the command. No info value is a data, key or padding byte. -/
def Obligations.ErrorRecordsFollowTheTable : Prop :=
  ([Cause.success, .illegalCmd, .inLenRange, .blockLenRange, .unpadLen, .padLenValue, .padByteMismatch, .keySize,
      .dataMisaligned, .ivLen, .primFault].map Cause.code =
    [0x00#8, 0x01#8, 0x02#8, 0x10#8, 0x11#8, 0x12#8, 0x13#8, 0x20#8, 0x21#8, 0x22#8, 0x30#8]) ∧
  (∀ (s : State) (e : DecodeError), s.status.busy = true → decodeWord s.cmd = .error e →
    ∃ t, sequencerTurn s = .next t ∧ t.status.kind = .invalidInput ∧ t.status.stage = .interface ∧
      t.status.cause = .illegalCmd ∧ t.errInfo0 = s.cmd ∧ t.errInfo1 = 0#32) ∧
  ∀ (i : Instr) (s : State), s.cfg.wf = true → ∃ t, exec i s = .next t ∧ t.status.inTable ∧
    t.status.cause ∈ causesOf i ∧ t.status.stage = stageOf i t.status.cause ∧
    match t.status.cause with
    | .success => t.errInfo0 = 0#32 ∧ t.errInfo1 = 0#32
    | .illegalCmd => False
    | .inLenRange => t.errInfo0 = s.inLen ∧ t.errInfo1 = wordOf s.cfg.bufMax
    | .blockLenRange => t.errInfo0 = wordOf (s.blockLenOf i) ∧ t.errInfo1 = 0#32
    | .unpadLen | .padLenValue | .padByteMismatch =>
      t.errInfo0 = s.inLen ∧ t.errInfo1 = wordOf (s.blockLenOf i)
    | .keySize => t.errInfo0 = s.keyLen ∧ t.errInfo1 = 0#32
    | .dataMisaligned => t.errInfo0 = s.inLen ∧ t.errInfo1 = wordOf s.cfg.blockSize
    | .ivLen => t.errInfo0 = s.ivLen ∧ t.errInfo1 = wordOf s.cfg.blockSize
    | .primFault => t.errInfo1 = 0#32 ∧ ∃ m, m ≤ s.inLen.toNat / s.cfg.blockSize + 1 ∧ t.errInfo0 = faultInfo m

/-! ### The Padding Codec and the round trips -/

/-- R71: the laws of Pad. R70: its padding length is the smallest `p >= 1` with `(L + p) mod n = 0`. -/
def Obligations.PadLaws : Prop :=
  ∀ (d : Bytes) (n : Nat), 1 ≤ n → n ≤ 255 →
    ∃ p, 1 ≤ p ∧ p ≤ n ∧ (pad d n).length = d.length + p ∧ d.length < (pad d n).length ∧
      (pad d n).length ≤ d.length + n ∧ (pad d n).length % n = 0 ∧ (pad d n).take d.length = d ∧
      (∀ k, d.length ≤ k → k < (pad d n).length → (pad d n)[k]? = some (BitVec.ofNat 8 p)) ∧
      (d.length % n = 0 → p = n) ∧
      (∀ p', 1 ≤ p' → p' < p → (d.length + p') % n ≠ 0)

/-- R78(a): Unpad undoes Pad, at every stage and under both scan modes. -/
def Obligations.UnpadInvertsPad : Prop :=
  ∀ (mode : ScanMode) (d : Bytes) (n : Nat) (stage : Stage), 1 ≤ n → n ≤ 255 →
    (unpadOp mode (pad d n) n stage).1 = .ok d

/-- R79: what Unpad accepts is exactly what Pad produces, and Pad of the result gives the input back. -/
def Obligations.UnpadAcceptsExactlyPadImages : Prop :=
  ∀ (mode : ScanMode) (x : Bytes) (n : Nat) (stage : Stage), 1 ≤ n → n ≤ 255 →
    (∀ y, (unpadOp mode x n stage).1 = .ok y → pad y n = x) ∧
    ((∃ y, (unpadOp mode x n stage).1 = .ok y) ↔ ∃ y, x = pad y n)

/-- R78(b), (c): a last byte of 0 is always rejected; changing a region byte other than the last gives
PAD_BYTE_MISMATCH; changing the last byte to `q` fails exactly when the new claim is invalid, and otherwise strips `q`
bytes. -/
def Obligations.ChangedPaddingIsRejected : Prop :=
  ∀ (mode : ScanMode) (d : Bytes) (n : Nat) (stage : Stage), 1 ≤ n → n ≤ 255 →
    (∀ y, (unpadOp mode (d ++ [0#8]) n stage).1 ≠ .ok y) ∧
    (let x := pad d n
     let L := x.length
     (∀ (k : Nat) (v : Byte), L - padLength d.length n ≤ k → k < L - 1 → x[k]? ≠ some v →
       (unpadOp mode (x.set k v) n stage).1 =
         .error ⟨.invalidInput, stage, .padByteMismatch, wordOf L, wordOf n⟩) ∧
     (∀ q : Byte, q.toNat ≠ padLength d.length n →
       let y := x.set (L - 1) q
       if q.toNat = 0 ∨ n < q.toNat ∨ ¬allEqual (lastBytes y q.toNat) q then
         ∃ e, (unpadOp mode y n stage).1 = .error e
       else (unpadOp mode y n stage).1 = .ok (y.take (L - q.toNat))))

/-- R75: the scan's verdict is that every byte of the claimed region equals `p`; the two modes agree on the result and
the error record of every input; the constant-time scan visits exactly `n` bytes. That the early-exit scan has visited
`k + 1` bytes when it stops at the first mismatch counted from the lowest index, `k`, is the model's choice of a direction
(log 13). -/
def Obligations.ScanModesAgree : Prop :=
  ∀ (d : Bytes) (n : Nat) (stage : Stage),
    (unpadOp .earlyExit d n stage).1 = (unpadOp .constantTime d n stage).1 ∧
    ∀ p : Byte, p.toNat ≤ n → n ≤ d.length → ∀ mode,
      ((scanPadding mode d n p).1 = true ↔ allEqual (lastBytes d p.toNat) p) ∧
      (scanPadding .constantTime d n p).2 = n ∧
      (∀ k, k < p.toNat → (lastBytes d p.toNat)[k]? ≠ some p →
        (∀ j, j < k → (lastBytes d p.toNat)[j]? = some p) → (scanPadding .earlyExit d n p).2 = k + 1)

/-- R91: under a lawful primitive, the same written key and IV and no fault, DECRYPT of what ENCRYPT committed, copied
to IN, gives the plaintext back. -/
def Obligations.EncryptThenDecryptRestoresData : Prop :=
  ∀ s : State, s.cfg.wf = true → (primOf s.cfg).Lawful s.cfg → s.inLen.toNat ≤ s.cfg.bufMax → s.keySizeOk →
    s.ivLen.toNat = s.cfg.blockSize → s.inLen.toNat % s.cfg.blockSize = 0 →
    s.written .key s.keyLen.toNat → s.written .iv s.ivLen.toNat →
    s.noFaultUpTo (2 * (s.inLen.toNat / s.cfg.blockSize) + 1) →
    ∃ t u, exec .encrypt s = .next t ∧ exec .decrypt t.copyOutToIn = .next u ∧ u.status.kind = .noError ∧
      u.Result s.inData

/-- R98: the padded round trip, for data of any length that leaves its ciphertext fitting IN, the empty sequence and
exactly one block included. -/
def Obligations.PaddedRoundTripRestoresData : Prop :=
  ∀ s : State, s.cfg.wf = true → (primOf s.cfg).Lawful s.cfg →
    s.inLen.toNat + s.cfg.blockSize - s.inLen.toNat % s.cfg.blockSize ≤ s.cfg.bufMax → s.keySizeOk →
    s.ivLen.toNat = s.cfg.blockSize → s.written .key s.keyLen.toNat → s.written .iv s.ivLen.toNat →
    s.noFaultUpTo (2 * (s.inLen.toNat / s.cfg.blockSize) + 3) →
    ∃ t u, exec .encryptPadded s = .next t ∧ exec .decryptPadded t.copyOutToIn = .next u ∧
      u.status.kind = .noError ∧ u.Result s.inData

/-- R78, for the commands: UNPAD of what PAD committed, copied to IN, gives the data back where both fit IN. -/
def Obligations.PadThenUnpadRestoresData : Prop :=
  ∀ s : State, s.cfg.wf = true → ¬badBlockLen s.blockLen.toNat → s.inLen.toNat ≤ s.cfg.bufMax →
    (pad s.inData s.blockLen.toNat).length ≤ s.cfg.bufMax →
    ∃ t u, exec .pad s = .next t ∧ exec .unpad t.copyOutToIn = .next u ∧ u.status.kind = .noError ∧
      u.Result s.inData

/-! ### The host's accesses (20_memory.md) -/

/-- R45: an access is bus-errored exactly in the three cases, read or write, busy or not, and then changes no state;
otherwise it is accepted. -/
def Obligations.BusErrorsExactlyWhenMalformed : Prop :=
  ∀ (s : State) (off n : Nat) (v : Word),
    let bad := (n ≠ 1 ∧ n ≠ 4) ∨ (n = 4 ∧ off % 4 ≠ 0) ∨ (n = 1 ∧ off < 0x100)
    (bad → s.busRead off n = (.busError, s) ∧ s.busWrite off n v = (.busError, s)) ∧
    (¬bad → (∃ x, (s.busRead off n).1 = .value x) ∧ (s.busWrite off n v).1 = .written)

/-- R42, R47: each register reads as its 32-bit value at its offset, and the rest of the register region reads 0. -/
def Obligations.RegistersReadAtTheirOffsets : Prop :=
  ∀ s : State,
    s.readValue 0x000 4 = s.cmd ∧ s.readValue 0x004 4 = s.status.word ∧ s.readValue 0x008 4 = s.blockLen ∧
    s.readValue 0x00C 4 = s.inLen ∧ s.readValue 0x010 4 = s.keyLen ∧ s.readValue 0x014 4 = s.ivLen ∧
    s.readValue 0x018 4 = s.outLen ∧ s.readValue 0x01C 4 = s.errInfo0 ∧ s.readValue 0x020 4 = s.errInfo1 ∧
    s.readValue 0x024 4 = wordOf s.cfg.blockSize ∧ s.readValue 0x028 4 = keySizesMask s.cfg.keySizes ∧
    s.readValue 0x02C 4 = wordOf s.cfg.bufMax ∧
    ∀ off, 0x030 ≤ off → off < 0x100 → off % 4 = 0 → s.readValue off 4 = 0#32

/-- R27: bit `k-1` of CFG_KEY_SIZES is 1 exactly when `k` is in KEY_SIZES, and the default reads 0x80808000. -/
def Obligations.KeySizesMaskHasOneBitPerSize : Prop :=
  (∀ (sizes : List Nat) (k : Nat), (∀ x, x ∈ sizes → 1 ≤ x ∧ x ≤ 32) → 1 ≤ k → k ≤ 32 →
    ((keySizesMask sizes).getLsbD (k - 1) = true ↔ k ∈ sizes)) ∧
  keySizesMask Config.default.keySizes = 0x80808000#32

/-- R17, R20, R21: the fields of STATUS at their bits with their codes, the reserved bits 0, and what a host write to STATUS does: while idle, clear
ACCESS_ERR if bit 31 is 1, and nothing else; while busy, it is dropped. -/
def Obligations.StatusLayoutAndWrite : Prop :=
  (∀ st : Status,
    st.word.getLsbD 0 = st.busy ∧ st.word.getLsbD 1 = st.done ∧ st.word.extractLsb' 2 2 = st.kind.code ∧
    st.word.extractLsb' 4 2 = st.stage.code ∧ st.word.extractLsb' 6 2 = 0#2 ∧
    st.word.extractLsb' 8 8 = st.cause.code ∧ st.word.extractLsb' 16 15 = 0#15 ∧ st.word.getLsbD 31 = st.accessErr) ∧
  ([Kind.noError, .invalidInput, .unexpectedFault].map Kind.code = [0#2, 1#2, 2#2] ∧
    [Stage.interface, .pad, .cbc, .unpad].map Stage.code = [0#2, 1#2, 2#2, 3#2]) ∧
  (∀ (s : State) (w : Word),
    (s.status.busy = false →
      s.busWrite 0x004 4 w = (.written, { s with status :=
        { s.status with accessErr := s.status.accessErr && !w.getLsbD 31 } })) ∧
    (s.status.busy = true → s.busWrite 0x004 4 w = (.written, { s with status := { s.status with accessErr := true } })))

/-- R46: a 32-bit window access is four byte accesses in little-endian order, each handled on its own. -/
def Obligations.WindowAccessIsLittleEndian : Prop :=
  ∀ (s : State) (off : Nat) (v : Word), 0x100 ≤ off → off % 4 = 0 →
    (∀ j, j < 4 → (s.readValue off 4).extractLsb' (8 * j) 8 = (s.readValue (off + j) 1).extractLsb' 0 8) ∧
    s.writeValue off 4 v =
      (((s.writeValue off 1 ((v.extractLsb' 0 8).zeroExtend 32)).writeValue (off + 1) 1
        ((v.extractLsb' 8 8).zeroExtend 32)).writeValue (off + 2) 1
        ((v.extractLsb' 16 8).zeroExtend 32)).writeValue (off + 3) 1 ((v.extractLsb' 24 8).zeroExtend 32)

/-- A byte written to IV or IN while idle is what the next read returns, a byte written to KEY is held though it reads
0, no other byte and no register changes; an operand register reads what was written, and no other register and no byte
changes. -/
def Obligations.WritesAreVisibleAtOnce : Prop :=
  ∀ (s : State) (v : Word), s.cfg.wf = true → s.status.busy = false →
    (∀ off, inBuffer s.cfg .iv off = true ∨ inBuffer s.cfg .input off = true →
      ((s.busWrite off 1 v).2.busRead off 1).1 = .value ((v.extractLsb' 0 8).zeroExtend 32)) ∧
    (∀ off, inBuffer s.cfg .key off = true →
      memGet (s.busWrite off 1 v).2.mem off = some (v.extractLsb' 0 8)) ∧
    (∀ off, 0x100 ≤ off →
      let t := (s.busWrite off 1 v).2
      t = { s with mem := t.mem } ∧ ∀ a, a ≠ off → memGet t.mem a = memGet s.mem a) ∧
    (∀ r, r ∈ [Reg.blockLen, .inLen, .keyLen, .ivLen] →
      let t := (s.busWrite (regOffset r) 4 v).2
      (t.busRead (regOffset r) 4).1 = .value v ∧ t.mem = s.mem ∧ ∀ r', r' ≠ r → t.readReg r' = s.readReg r')

/-- R49: writes to the read-only registers and to OUT are ignored while idle, and a KEY byte reads 0 whatever KEY
holds. -/
def Obligations.ReadOnlyAndWriteOnlyTargets : Prop :=
  ∀ (s : State) (v : Word), s.cfg.wf = true →
    (s.status.busy = false →
      (∀ r, r ∈ [Reg.outLen, .errInfo0, .errInfo1, .cfgBlockSize, .cfgKeySizes, .cfgBufMax] →
        s.busWrite (regOffset r) 4 v = (.written, s)) ∧
      (∀ off, inBuffer s.cfg .output off = true → s.busWrite off 1 v = (.written, s))) ∧
    (∀ off, inBuffer s.cfg .key off = true → (s.busRead off 1).1 = .value 0#32)

/-- R48: a reserved register or byte reads 0, and a write to it is ignored while idle and dropped with ACCESS_ERR while
busy. -/
def Obligations.ReservedOffsetsReadZeroAndIgnoreWrites : Prop :=
  ∀ (s : State) (v : Word),
    (∀ off, 0x030 ≤ off → off < 0x100 → off % 4 = 0 →
      (s.busRead off 4).1 = .value 0#32 ∧
      s.busWrite off 4 v =
        (.written, if s.status.busy then { s with status := { s.status with accessErr := true } } else s)) ∧
    (∀ off, 0x100 ≤ off → (∀ b, inBuffer s.cfg b off = false) →
      (s.busRead off 1).1 = .value 0#32 ∧
      s.busWrite off 1 v =
        (.written, if s.status.busy then { s with status := { s.status with accessErr := true } } else s))

/-- R106: an accepted write while BUSY changes nothing but ACCESS_ERR, which it sets. An accepted read, busy or not, is
served with the value there and changes nothing of the PCU (R52): the model's count of read events moves on (log 5). -/
def Obligations.WritesWhileBusyAreDropped : Prop :=
  ∀ (s : State) (off n : Nat) (v : Word), isBusError off n = false →
    (s.status.busy = true →
      s.busWrite off n v = (.written, { s with status := { s.status with accessErr := true } })) ∧
    s.busRead off n = (.value (s.readValue off n), { s with reads := s.reads + 1 })

/-- R105: what a CMD write does while idle, and that the *complete* step is then enabled. -/
def Obligations.CmdWriteStartsACommand : Prop :=
  ∀ (s : State) (w : Word), s.status.busy = false →
    ∃ t, s.busWrite 0x000 4 w = (.written, t) ∧ t.cmd = w ∧ t.status.busy = true ∧ t.status.done = false ∧
      t.status.kind = .noError ∧ t.status.stage = .interface ∧ t.status.cause = .success ∧ t.errInfo0 = 0#32 ∧
      t.errInfo1 = 0#32 ∧ t.status.accessErr = s.status.accessErr ∧
      t = { s with cmd := t.cmd, status := t.status, errInfo0 := t.errInfo0, errInfo1 := t.errInfo1 } ∧
      ∃ u, sequencerTurn t = .next u ∧ u.status.busy = false ∧ u.status.done = true

/-- R53: a read repeated with nothing in between returns the same value where every byte it moves has been written; a
write repeated to any offset but CMD changes nothing more; a CMD write while idle starts a command each time. -/
def Obligations.ReadsAndWritesAreIdempotent : Prop :=
  ∀ (s : State) (off n : Nat) (v : Word), s.Inv →
    ((∀ k, k < n → bufferAt s.cfg (off + k) ≠ none → (memGet s.mem (off + k)).isSome = true) →
      ((s.busRead off n).2.busRead off n).1 = (s.busRead off n).1) ∧
    (off ≠ 0x000 → (s.busWrite off n v).2.busWrite off n v = s.busWrite off n v) ∧
    (s.status.busy = false → (s.busWrite 0x000 4 v).2.status.busy = true)

/-- The host's turn on a KEY it cannot read: two states that differ in KEY bytes only give the same outcomes at the
bus, and afterwards still differ in KEY bytes only. -/
def Obligations.HostCannotLearnKey : Prop :=
  ∀ (s : State) (m : Memory), s.cfg.wf = true → sameOutside s.cfg .key s.mem m →
    ∀ t, hostTurn s = .next t →
      ∃ u, hostTurn { s with mem := m } = .next u ∧ u.events = t.events ∧ u = { t with mem := u.mem } ∧
        sameOutside s.cfg .key t.mem u.mem

/-- R68: `wait` polls STATUS and stays while bit 0 of the value is 1; `run`, `wbytes`, `wwords` and `rbytes` expand as
the rule gives. -/
def Obligations.HostNotationExpands : Prop :=
  (∀ (s : State) (rest : List HostStep), s.cfg.wf = true → s.host = .wait :: rest →
    hostTurn s = .next { s with
      host := if s.status.busy then s.host else rest
      reads := s.reads + 1
      events := .bus (.read (s.cfg.base + 0x004) 4) (.value s.status.word) :: s.events }) ∧
  (∀ (base : Nat) (i : Instr),
    HostOp.expand base (.run i) = HostOp.expand base (.w32 0x000 (encode i)) ++ HostOp.expand base .wait) ∧
  (∀ (base off : Nat) (bs : Bytes) (k : Nat), k < bs.length →
    (HostOp.expand base (.wbytes off bs)).length = bs.length ∧
    (HostOp.expand base (.wbytes off bs))[k]? =
      some (.access (.write (base + off + k) 1 ((bs.getD k 0#8).zeroExtend 32)))) ∧
  (∀ (base off : Nat) (ws : List Word) (k : Nat), k < ws.length →
    (HostOp.expand base (.wwords off ws)).length = ws.length ∧
    (HostOp.expand base (.wwords off ws))[k]? = some (.access (.write (base + off + 4 * k) 4 (ws.getD k 0#32)))) ∧
  (∀ base off n k : Nat, k < n →
    (HostOp.expand base (.rbytes off n)).length = n ∧
    (HostOp.expand base (.rbytes off n))[k]? = some (.access (.read (base + off + k) 1)))

/-- R40: an access outside the aperture does not reach the PCU: nothing of it changes and the run goes on; that the model
logs such an access with an outcome of its own is its choice (log 10). Inside, the access acts at its offset from BASE. When
the host acts and an access is next in its program, the step is that access (R10, R54). -/
def Obligations.ApertureDecodesFromBase : Prop :=
  ∀ (s : State) (a : Access),
    (¬(s.cfg.base ≤ a.addr ∧ a.addr < s.cfg.base + 0x40000) →
      hostAccess s a = .next { s with events := .bus a .outside :: s.events }) ∧
    (∀ off, off < 0x40000 → a.addr = s.cfg.base + off →
      ∃ t, hostAccess s a = .next t ∧ t = ((s.busAccess a off).2.logEvent (.bus a (s.busAccess a off).1))) ∧
    (∀ rest, s.cfg.wf = true → s.nextTurn = .host → s.host = .access a :: rest →
      step s = hostAccess { s with turns := s.turns.tail, host := rest } a)

/-! ### Reset -/

/-- R37: the values right after reset. -/
def Obligations.ResetValues : Prop :=
  let s := State.reset
  s.cmd = 0#32 ∧ s.status.word = 0#32 ∧ s.blockLen = 0#32 ∧ s.inLen = 0#32 ∧ s.keyLen = 0#32 ∧ s.ivLen = 0#32 ∧
  s.outLen = 0#32 ∧ s.errInfo0 = 0#32 ∧ s.errInfo1 = 0#32 ∧ (∀ a, memGet s.mem a = none) ∧ s.seq = Seq.discarded ∧
  s.readValue 0x024 4 = 16#32 ∧ s.readValue 0x028 4 = 0x80808000#32 ∧ s.readValue 0x02C 4 = 4096#32

/-- R118, R119: a reset turn, busy or not and whatever the host was about to do, gives the reset values, leaves no
buffer byte a value, discards the hidden state and keeps the configuration. That the host's program and the port are left
as they are is the model's inference (log 16). -/
def Obligations.ResetWinsAndAborts : Prop :=
  ∀ s : State, s.cfg.wf = true → s.nextTurn = .reset →
    ∃ t, step s = .next t ∧ t.cfg = s.cfg ∧ t.cmd = 0#32 ∧ t.status.word = 0#32 ∧ t.blockLen = 0#32 ∧
      t.inLen = 0#32 ∧ t.keyLen = 0#32 ∧ t.ivLen = 0#32 ∧ t.outLen = 0#32 ∧ t.errInfo0 = 0#32 ∧ t.errInfo1 = 0#32 ∧
      (∀ a, memGet t.mem a = none) ∧ t.seq = Seq.discarded ∧ t.port = s.port ∧ t.host = s.host

/-! ### The whole machine -/

/-- The invariant holds at reset. -/
def Obligations.ResetSatisfiesTheInvariant : Prop := State.reset.Inv

/-- The invariant is kept by every step, from every state that has it. -/
def Obligations.EveryStepKeepsTheInvariant : Prop := ∀ s t : State, s.Inv → step s = .next t → t.Inv

/-- R18: BUSY is set only by an accepted CMD write and cleared only by a completion or a reset; while it is 1 the
sequencer's turn completes the command, and the results may then be read. R19, R24, R25, R111: DONE, KIND, STAGE, CAUSE,
OUT_LEN and the info registers change only by a command start, which leaves OUT_LEN, by a completion or by a reset; so
results that may be read stay, with OUT, until the next start or a reset. -/
def Obligations.BusyAndResultsRule : Prop :=
  ∀ s t : State, step s = .next t →
    (s.status.busy = false → t.status.busy = true → ∃ w, s.startsNext w ∧ t.cmd = w) ∧
    (s.status.busy = true → t.status.busy = false → s.nextTurn = .sequencer ∨ s.nextTurn = .reset) ∧
    (s.status.busy = true → s.nextTurn = .sequencer → t.resultsValid) ∧
    (s.nextTurn = .reset ∨ (s.nextTurn = .sequencer ∧ s.status.busy = true) ∨
      (s.status.busy = false ∧ t.status.busy = true ∧ (∃ w, s.startsNext w) ∧ t.outLen = s.outLen) ∨ s.SameResults t) ∧
    (s.resultsValid → t.status.busy = false → s.nextTurn ≠ .reset →
      t.resultsValid ∧ s.SameResults t ∧
        ∀ k, k < s.cfg.outMax → memGet t.mem (bufStart .output + k) = memGet s.mem (bufStart .output + k))

/-- R23: ACCESS_ERR is set only by a dropped write, one that is accepted while BUSY, and cleared only by a STATUS write
with bit 31 while idle, or by reset. -/
def Obligations.AccessErrIsSticky : Prop :=
  ∀ s t : State, step s = .next t →
    (s.status.accessErr = false → t.status.accessErr = true →
      s.status.busy = true ∧ s.nextTurn = .host ∧
        ∃ off n v rest, s.host = .access (.write (s.cfg.base + off) n v) :: rest ∧ off < 0x40000 ∧
          isBusError off n = false) ∧
    (s.status.accessErr = true → t.status.accessErr = false →
      s.nextTurn = .reset ∨
      (s.status.busy = false ∧ s.nextTurn = .host ∧
        ∃ v rest, s.host = .access (.write (s.cfg.base + 0x004) 4 v) :: rest ∧ v.getLsbD 31 = true))

/-- R32: an OUT byte changes only by a reset or by the successful completion whose result covers it. -/
def Obligations.OnlyACommitWritesOut : Prop :=
  ∀ (s t : State) (k : Nat), s.cfg.wf = true → k < s.cfg.outMax → step s = .next t →
    memGet t.mem (bufStart .output + k) ≠ memGet s.mem (bufStart .output + k) →
    s.nextTurn = .reset ∨
    (s.nextTurn = .sequencer ∧ s.status.busy = true ∧ t.status.busy = false ∧ t.status.kind = .noError ∧
      k < t.outLen.toNat)

/-- The operand registers, CMD, KEY, IV and IN change only in the host's turn or by a reset, and never while a command
runs except by a reset; the configuration never changes. -/
def Obligations.OperandsBelongToTheHost : Prop :=
  ∀ s t : State, s.cfg.wf = true → step s = .next t → t.cfg = s.cfg ∧
    (s.nextTurn ≠ .reset → s.nextTurn ≠ .host ∨ s.status.busy = true →
      t.cmd = s.cmd ∧ t.blockLen = s.blockLen ∧ t.inLen = s.inLen ∧ t.keyLen = s.keyLen ∧ t.ivLen = s.ivLen ∧
      ∀ b a, b ≠ .output → inBuffer s.cfg b a = true → memGet t.mem a = memGet s.mem a)

/-- R125, R126: while a command runs, no host access changes OUT, OUT_LEN or the zeros in KIND, STAGE, CAUSE and the
info registers. -/
def Obligations.NothingPartialIsVisibleWhileBusy : Prop :=
  ∀ s t : State, s.Inv → s.status.busy = true → s.nextTurn = .host ∨ s.nextTurn = .work → step s = .next t →
    t.status.busy = true ∧ t.outLen = s.outLen ∧ t.mem = s.mem ∧
    t.status.word &&& 0x7FFFFFFE#32 = 0#32 ∧ t.errInfo0 = 0#32 ∧ t.errInfo1 = 0#32

/-- R108, as a litmus: a write to IN_LEN against a completion, in both orders. Before it, the write is dropped and
ACCESS_ERR set; after it, the write is carried out and ACCESS_ERR unchanged. -/
def Obligations.WriteAgainstCompletionBothOrders : Prop :=
  ∀ (s : State) (w : Word), s.cfg.wf = true → s.status.busy = true →
    s.host = [.access (.write (s.cfg.base + 0x00C) 4 w)] →
    (∃ t u, step { s with turns := [.host, .sequencer] } = .next t ∧ step t = .next u ∧ u.inLen = s.inLen ∧
      u.status.accessErr = true ∧ u.status.busy = false) ∧
    (∃ t u, step { s with turns := [.sequencer, .host] } = .next t ∧ step t = .next u ∧ u.inLen = w ∧
      u.status.accessErr = s.status.accessErr ∧ u.status.busy = false)

/-- A work turn changes hidden state only, whatever the command, and what the command commits is the same with it as
without it. -/
def Obligations.WorkIsUnobservable : Prop :=
  ∀ s : State, s.cfg.wf = true → s.nextTurn = .work →
    ∃ t, step s = .next t ∧ t = { s with turns := s.turns.tail, seq := t.seq } ∧
      sequencerTurn { t with seq := s.seq } = sequencerTurn t

/-- R34: the hidden state while a command runs. A work turn (the model's own, log 12) takes it to the next request: from
none to `setup`, from `setup` to block 0, from block `i` to block `i + 1` (one that faults stays); with no request left, no command running or an
illegal word it stays. PAD and UNPAD stage their result in RES, and `j` is the number of bytes the scan visited (log 13).
While a CBC command waits for block `i` the hidden state is that of `Seq.AwaitsEnc` or `Seq.AwaitsDec`: ENCRYPT_PADDED's
over the padded input, DECRYPT_PADDED's the same as DECRYPT's. After the last answer RES is the whole result, and for
DECRYPT_PADDED what Unpad leaves of it. -/
def Obligations.HiddenStateWhileRunning : Prop :=
  (∀ s : State, s.cfg.wf = true → s.nextTurn = .work →
    ∃ t, step s = .next t ∧
      (s.status.busy = false ∨ (∃ e, decodeWord s.cmd = .error e) → t.seq = s.seq) ∧
      ∀ i, s.status.busy = true → decodeWord s.cmd = .ok i →
        match s.seq.pending with
        | none => t.seq = if s.seq.handle.isSome = true then s.seq else s.hiddenAt i 0
        | some (.setup _) => t.seq = s.hiddenAt i 1
        | some (.enc _ _) | some (.dec _ _) => t.seq = s.hiddenAt i (s.seq.blockIndex + 2)) ∧
  ∀ s : State, s.cfg.wf = true → s.inLen.toNat ≤ s.cfg.bufMax →
    let B := s.cfg.blockSize
    let N := s.inLen.toNat / B
    (∀ m, ¬badBlockLen s.blockLen.toNat →
      s.hiddenAt .pad m = { s.seq with res := pad s.inData s.blockLen.toNat, scanIndex := 0 }) ∧
    (∀ m, let u := unpadOp s.cfg.scanMode s.inData s.blockLen.toNat .unpad
      (∀ r, u.1 = .ok r → s.hiddenAt .unpad m = { s.seq with res := r, scanIndex := u.2 }) ∧
      (∀ e, u.1 = .error e → s.hiddenAt .unpad m = { s.seq with scanIndex := u.2 })) ∧
    (s.keySizeOk → s.ivLen.toNat = B →
      (s.inLen.toNat % B = 0 →
        (∃ c, IsCbcEncryption (primOf s.cfg) B s.keyData s.ivData s.inData c ∧
          (∀ i, i < N → s.noFaultUpTo i →
            (s.hiddenAt .encrypt (i + 1)).AwaitsEnc B s.keyData s.ivData s.inData c i) ∧
          (s.noFaultUpTo N →
            (s.hiddenAt .encrypt (N + 1)).res = c ∧ (s.hiddenAt .encrypt (N + 1)).pending = none)) ∧
        (∃ p, IsCbcDecryption (primOf s.cfg) B s.keyData s.ivData s.inData p ∧
          (∀ i, i < N → s.noFaultUpTo i →
            (s.hiddenAt .decrypt (i + 1)).AwaitsDec B s.keyData s.ivData s.inData p i ∧
            s.hiddenAt .decryptPadded (i + 1) = s.hiddenAt .decrypt (i + 1)) ∧
          (s.noFaultUpTo N →
            (s.hiddenAt .decrypt (N + 1)).res = p ∧ (s.hiddenAt .decrypt (N + 1)).pending = none ∧
            let u := unpadOp s.cfg.scanMode p B .unpad
            (s.hiddenAt .decryptPadded (N + 1)).scanIndex = u.2 ∧
            (s.hiddenAt .decryptPadded (N + 1)).pending = none ∧
            ∀ r, u.1 = .ok r → (s.hiddenAt .decryptPadded (N + 1)).res = r))) ∧
      (∃ c, IsCbcEncryption (primOf s.cfg) B s.keyData s.ivData (pad s.inData B) c ∧
        (∀ i, i < N + 1 → s.noFaultUpTo i →
          (s.hiddenAt .encryptPadded (i + 1)).AwaitsEnc B s.keyData s.ivData (pad s.inData B) c i) ∧
        (s.noFaultUpTo (N + 1) →
          (s.hiddenAt .encryptPadded (N + 2)).res = c ∧ (s.hiddenAt .encryptPadded (N + 2)).pending = none)))

/-- The PCU never stops: with a well-formed configuration every step answers a next state of which that is true again,
whatever the host's program is. An ill-formed configuration is refused at every step (log 11). -/
def Obligations.EveryStepAnswers : Prop :=
  (∀ s : State, s.cfg.wf = true → ∃ t, step s = .next t ∧ t.cfg.wf = true) ∧
  ∀ s : State, s.cfg.wf = false → step s = .refused .illFormedConfig

/-- An idle PCU with no host access to come keeps every register and buffer, whoever acts next but reset. -/
def Obligations.IdleKeepsEverything : Prop :=
  ∀ s : State, s.cfg.wf = true → s.status.busy = false → s.host = [] → s.nextTurn ≠ .reset →
    step s = .next { s with turns := s.turns.tail }

/-- R131: the end of a run means no command is running: a busy PCU's log shows no STATUS read with BUSY = 0 since the
last start. The property holds at reset and every step keeps it. -/
def Obligations.EndedRunHasNoRunningCommand : Prop :=
  let ok := fun s : State => s.status.busy = true → polledSinceStart s.cfg s.events = false
  ok State.reset ∧ (∀ s t : State, ok s → step s = .next t → ok t) ∧
    ∀ s : State, ok s → s.ended → s.status.busy = false
end

