-- ==== Sys2Proof/Laws/Memory.lean ====
section
/-! SUPPORT. The laws of memory: a read after a write, and the canonical form kept by every operation. -/

namespace Sys2Proof.Machine

@[simp] theorem memGet_nil (a : Nat) : memGet [] a = none := rfl

@[simp] theorem memSetBytes_nil (m : Memory) (a : Nat) : memSetBytes m a [] = m := by cases m <;> rfl

theorem memSetBytes_cons (m : Memory) (a : Nat) (b : Byte) (bs : Bytes) :
    memSetBytes m a (b :: bs) = memSetBytes (memSet m a b) (a + 1) bs := by cases m <;> rfl

/-- A byte reads as the last value written to it, and a write leaves every other byte alone. -/
theorem memGet_memSet (m : Memory) (a : Nat) (b : Byte) (x : Nat) :
    memGet (memSet m a b) x = if x = a then some b else memGet m x := by
  induction m with
  | nil => simp [memSet, memGet]
  | cons c m ih =>
    obtain ⟨k, v⟩ := c
    simp only [memSet]
    split
    · simp [memGet]
    · split
      · rename_i h; subst h; by_cases hx : x = a <;> simp [memGet, hx]
      · simp only [memGet, ih]
        by_cases hk : x = k
        · rw [if_pos hk, if_pos hk, if_neg (by omega)]
        · simp [hk]

/-- A byte sequence written at `a` reads back byte by byte, and every byte outside it is left alone. -/
theorem memGet_memSetBytes (bs : Bytes) (m : Memory) (a x : Nat) :
    memGet (memSetBytes m a bs) x = if a ≤ x ∧ x < a + bs.length then bs[x - a]? else memGet m x := by
  induction bs generalizing m a with
  | nil => rw [memSetBytes_nil, if_neg (by simp)]
  | cons b bs ih =>
    rw [memSetBytes_cons, ih, memGet_memSet]
    by_cases h1 : x = a
    · subst h1; simp
    · by_cases h2 : a ≤ x ∧ x < a + (b :: bs).length
      · simp only [List.length_cons] at h2
        rw [if_pos (by omega), if_pos (by simpa using h2)]
        obtain ⟨j, rfl⟩ : ∃ j, x = a + 1 + j := ⟨x - (a + 1), by omega⟩
        rw [show a + 1 + j - (a + 1) = j by omega, show a + 1 + j - a = j + 1 by omega, List.getElem?_cons_succ]
      · simp only [List.length_cons] at h2
        rw [if_neg (by omega), if_neg h1, if_neg (by simpa using h2)]

/-- Every entry of a memory after a write is the one written or an entry it had before. -/
theorem mem_memSet {m : Memory} {a : Nat} {b : Byte} {c : Host.Cell} (h : c ∈ memSet m a b) :
    c = (a, b) ∨ c ∈ m := by
  induction m with
  | nil => simpa [memSet] using h
  | cons d m ih =>
    obtain ⟨k, v⟩ := d
    simp only [memSet] at h
    split at h
    · simpa using h
    · split at h
      · simp only [List.mem_cons] at h ⊢; tauto
      · rcases List.mem_cons.1 h with h | h
        · exact .inr (h ▸ List.mem_cons_self ..)
        · exact (ih h).imp id (List.mem_cons_of_mem _)

/-- A write keeps the canonical form. -/
theorem memSet_wf {m : Memory} (h : Memory.wf m) (a : Nat) (b : Byte) : Memory.wf (memSet m a b) := by
  induction m with
  | nil => exact List.pairwise_singleton ..
  | cons c m ih =>
    obtain ⟨k, v⟩ := c
    obtain ⟨hk, hm⟩ := List.pairwise_cons.1 h
    simp only [memSet]
    split
    · rename_i hlt
      refine List.pairwise_cons.2 ⟨fun x hx => ?_, h⟩
      rcases List.mem_cons.1 hx with rfl | hx
      · exact hlt
      · exact Nat.lt_trans hlt (hk x hx)
    · split
      · rename_i heq; subst heq; exact List.pairwise_cons.2 ⟨hk, hm⟩
      · refine List.pairwise_cons.2 ⟨fun x hx => ?_, ih hm⟩
        rcases mem_memSet hx with rfl | hx
        · show k < a; omega
        · exact hk x hx

/-- Writing a byte sequence keeps the canonical form. -/
theorem memSetBytes_wf (bs : Bytes) {m : Memory} (h : Memory.wf m) (a : Nat) : Memory.wf (memSetBytes m a bs) := by
  induction bs generalizing m a with
  | nil => simpa using h
  | cons b bs ih => rw [memSetBytes_cons]; exact ih (memSet_wf h a b) _

/-- The offset of every entry after writing a byte sequence is one written or one there before. -/
theorem mem_memSetBytes {bs : Bytes} {m : Memory} {a : Nat} {c : Host.Cell} (h : c ∈ memSetBytes m a bs) :
    (a ≤ c.1 ∧ c.1 < a + bs.length) ∨ c ∈ m := by
  induction bs generalizing m a with
  | nil => exact .inr (by simpa using h)
  | cons b bs ih =>
    rw [memSetBytes_cons] at h
    simp only [List.length_cons]
    rcases ih h with h | h
    · exact .inl (by omega)
    · rcases mem_memSet h with rfl | h
      · exact .inl ⟨Nat.le_refl _, by simp⟩
      · exact .inr h

/-- In canonical memory, writing the same byte twice is writing it once. -/
theorem memSet_memSet_same (m : Memory) (a : Nat) (b b' : Byte) : memSet (memSet m a b) a b' = memSet m a b' := by
  induction m with
  | nil => simp [memSet]
  | cons c m ih =>
    obtain ⟨k, v⟩ := c
    simp only [memSet]
    split
    · simp [memSet]
    · split
      · simp [memSet]
      · rename_i h1 h2; simp [memSet, h1, h2, ih]

/-- Writes to different bytes commute. -/
theorem memSet_comm (m : Memory) {a a' : Nat} (b b' : Byte) (h : a < a') :
    memSet (memSet m a b) a' b' = memSet (memSet m a' b') a b := by
  induction m with
  | nil => simp [memSet, show ¬a' < a by omega, show ¬a' = a by omega, h]
  | cons c m ih =>
    obtain ⟨k, v⟩ := c
    simp only [memSet]
    rcases Nat.lt_trichotomy a k with h1 | h1 | h1
    · have h3 : ¬a' < a ∧ ¬a' = a := ⟨by omega, by omega⟩
      rcases Nat.lt_trichotomy a' k with h2 | h2 | h2
      · simp [memSet, h1, h2, h3, h]
      · simp [memSet, h1, h2, Nat.lt_asymm h1, Nat.ne_of_gt h1]
      · simp [memSet, h1, h3, Nat.lt_asymm h2, Nat.ne_of_gt h2]
    · subst h1
      simp [memSet, show ¬a' < a by omega, show ¬a' = a by omega]
    · rcases Nat.lt_trichotomy a' k with h2 | h2 | h2
      · omega
      · omega
      · simp [memSet, show ¬a < k by omega, show ¬a = k by omega, show ¬a' < k by omega, show ¬a' = k by omega, ih]

/-- Two canonical memories that read the same everywhere are equal. -/
theorem memory_ext {m m' : Memory} (h : Memory.wf m) (h' : Memory.wf m') (he : ∀ a, memGet m a = memGet m' a) :
    m = m' := by
  induction m generalizing m' with
  | nil =>
    cases m' with
    | nil => rfl
    | cons c _ => simpa [memGet] using he c.1
  | cons c m ih =>
    cases m' with
    | nil => simpa [memGet] using he c.1
    | cons c' m' =>
      obtain ⟨k, v⟩ := c
      obtain ⟨k', v'⟩ := c'
      obtain ⟨hk, hm⟩ := List.pairwise_cons.1 h
      obtain ⟨hk', hm'⟩ := List.pairwise_cons.1 h'
      have none_below : ∀ {l : Memory} {x : Nat}, (∀ e ∈ l, x < e.1) → memGet l x = none := by
        intro l x hl
        induction l with
        | nil => rfl
        | cons e l ihl =>
          obtain ⟨y, w⟩ := e
          have hy : x < y := hl (y, w) (List.mem_cons_self ..)
          simp only [memGet, if_neg (Nat.ne_of_lt hy)]
          exact ihl fun e he => hl e (List.mem_cons_of_mem _ he)
      have hkk : k = k' := by
        rcases Nat.lt_trichotomy k k' with hlt | heq | hlt
        · have := he k
          rw [none_below (l := (k', v') :: m') (by
            intro e hmem
            rcases List.mem_cons.1 hmem with rfl | hmem
            · exact hlt
            · exact Nat.lt_trans hlt (hk' e hmem))] at this
          simp [memGet] at this
        · exact heq
        · have := he k'
          rw [none_below (l := (k, v) :: m) (by
            intro e hmem
            rcases List.mem_cons.1 hmem with rfl | hmem
            · exact hlt
            · exact Nat.lt_trans hlt (hk e hmem))] at this
          simp [memGet] at this
      subst hkk
      have hv : v = v' := by simpa [memGet] using he k
      subst hv
      rw [ih hm hm' fun a => ?_]
      by_cases hak : a = k
      · subst hak; rw [none_below hk, none_below hk']
      · simpa [memGet, hak] using he a

end Sys2Proof.Machine
end

