-- ==== Sys2Proof/Laws/State.lean ====
section
/-! SUPPORT. One lemma per field per named update of State, so that no later proof unfolds a record update. -/

namespace Sys2Proof.Machine

/-! ### startCommand -/

@[simp] theorem State.startCommand_cfg (s : State) (w : Word) : (s.startCommand w).cfg = s.cfg := rfl
@[simp] theorem State.startCommand_cmd (s : State) (w : Word) : (s.startCommand w).cmd = w := rfl
@[simp] theorem State.startCommand_status (s : State) (w : Word) : (s.startCommand w).status = s.status.started := rfl
@[simp] theorem State.startCommand_blockLen (s : State) (w : Word) : (s.startCommand w).blockLen = s.blockLen := rfl
@[simp] theorem State.startCommand_inLen (s : State) (w : Word) : (s.startCommand w).inLen = s.inLen := rfl
@[simp] theorem State.startCommand_keyLen (s : State) (w : Word) : (s.startCommand w).keyLen = s.keyLen := rfl
@[simp] theorem State.startCommand_ivLen (s : State) (w : Word) : (s.startCommand w).ivLen = s.ivLen := rfl
@[simp] theorem State.startCommand_outLen (s : State) (w : Word) : (s.startCommand w).outLen = s.outLen := rfl
@[simp] theorem State.startCommand_errInfo0 (s : State) (w : Word) : (s.startCommand w).errInfo0 = 0#32 := rfl
@[simp] theorem State.startCommand_errInfo1 (s : State) (w : Word) : (s.startCommand w).errInfo1 = 0#32 := rfl
@[simp] theorem State.startCommand_mem (s : State) (w : Word) : (s.startCommand w).mem = s.mem := rfl
@[simp] theorem State.startCommand_seq (s : State) (w : Word) : (s.startCommand w).seq = s.seq := rfl
@[simp] theorem State.startCommand_port (s : State) (w : Word) : (s.startCommand w).port = s.port := rfl
@[simp] theorem State.startCommand_host (s : State) (w : Word) : (s.startCommand w).host = s.host := rfl
@[simp] theorem State.startCommand_turns (s : State) (w : Word) : (s.startCommand w).turns = s.turns := rfl
@[simp] theorem State.startCommand_events (s : State) (w : Word) : (s.startCommand w).events = s.events := rfl
@[simp] theorem State.startCommand_reads (s : State) (w : Word) : (s.startCommand w).reads = s.reads := rfl

/-! ### raiseError -/

@[simp] theorem State.raiseError_cfg (s : State) (e : ErrorRec) : (s.raiseError e).cfg = s.cfg := rfl
@[simp] theorem State.raiseError_cmd (s : State) (e : ErrorRec) : (s.raiseError e).cmd = s.cmd := rfl
@[simp] theorem State.raiseError_status (s : State) (e : ErrorRec) : (s.raiseError e).status = s.status.failed e := rfl
@[simp] theorem State.raiseError_blockLen (s : State) (e : ErrorRec) : (s.raiseError e).blockLen = s.blockLen := rfl
@[simp] theorem State.raiseError_inLen (s : State) (e : ErrorRec) : (s.raiseError e).inLen = s.inLen := rfl
@[simp] theorem State.raiseError_keyLen (s : State) (e : ErrorRec) : (s.raiseError e).keyLen = s.keyLen := rfl
@[simp] theorem State.raiseError_ivLen (s : State) (e : ErrorRec) : (s.raiseError e).ivLen = s.ivLen := rfl
@[simp] theorem State.raiseError_outLen (s : State) (e : ErrorRec) : (s.raiseError e).outLen = 0#32 := rfl
@[simp] theorem State.raiseError_errInfo0 (s : State) (e : ErrorRec) : (s.raiseError e).errInfo0 = e.info0 := rfl
@[simp] theorem State.raiseError_errInfo1 (s : State) (e : ErrorRec) : (s.raiseError e).errInfo1 = e.info1 := rfl
@[simp] theorem State.raiseError_mem (s : State) (e : ErrorRec) : (s.raiseError e).mem = s.mem := rfl
@[simp] theorem State.raiseError_seq (s : State) (e : ErrorRec) : (s.raiseError e).seq = s.seq := rfl
@[simp] theorem State.raiseError_port (s : State) (e : ErrorRec) : (s.raiseError e).port = s.port := rfl
@[simp] theorem State.raiseError_host (s : State) (e : ErrorRec) : (s.raiseError e).host = s.host := rfl
@[simp] theorem State.raiseError_turns (s : State) (e : ErrorRec) : (s.raiseError e).turns = s.turns := rfl
@[simp] theorem State.raiseError_events (s : State) (e : ErrorRec) : (s.raiseError e).events = s.events := rfl
@[simp] theorem State.raiseError_reads (s : State) (e : ErrorRec) : (s.raiseError e).reads = s.reads := rfl

/-! ### commitResult -/

@[simp] theorem State.commitResult_cfg (s : State) (r : Bytes) : (s.commitResult r).cfg = s.cfg := rfl
@[simp] theorem State.commitResult_cmd (s : State) (r : Bytes) : (s.commitResult r).cmd = s.cmd := rfl
@[simp] theorem State.commitResult_status (s : State) (r : Bytes) : (s.commitResult r).status = s.status.succeeded := rfl
@[simp] theorem State.commitResult_blockLen (s : State) (r : Bytes) : (s.commitResult r).blockLen = s.blockLen := rfl
@[simp] theorem State.commitResult_inLen (s : State) (r : Bytes) : (s.commitResult r).inLen = s.inLen := rfl
@[simp] theorem State.commitResult_keyLen (s : State) (r : Bytes) : (s.commitResult r).keyLen = s.keyLen := rfl
@[simp] theorem State.commitResult_ivLen (s : State) (r : Bytes) : (s.commitResult r).ivLen = s.ivLen := rfl
@[simp] theorem State.commitResult_outLen (s : State) (r : Bytes) : (s.commitResult r).outLen = wordOf r.length := rfl
@[simp] theorem State.commitResult_errInfo0 (s : State) (r : Bytes) : (s.commitResult r).errInfo0 = 0#32 := rfl
@[simp] theorem State.commitResult_errInfo1 (s : State) (r : Bytes) : (s.commitResult r).errInfo1 = 0#32 := rfl
@[simp] theorem State.commitResult_mem (s : State) (r : Bytes) : (s.commitResult r).mem = memSetBytes s.mem (bufStart .output) r := rfl
@[simp] theorem State.commitResult_seq (s : State) (r : Bytes) : (s.commitResult r).seq = s.seq := rfl
@[simp] theorem State.commitResult_port (s : State) (r : Bytes) : (s.commitResult r).port = s.port := rfl
@[simp] theorem State.commitResult_host (s : State) (r : Bytes) : (s.commitResult r).host = s.host := rfl
@[simp] theorem State.commitResult_turns (s : State) (r : Bytes) : (s.commitResult r).turns = s.turns := rfl
@[simp] theorem State.commitResult_events (s : State) (r : Bytes) : (s.commitResult r).events = s.events := rfl
@[simp] theorem State.commitResult_reads (s : State) (r : Bytes) : (s.commitResult r).reads = s.reads := rfl

/-! ### endCommand -/

@[simp] theorem State.endCommand_cfg (s : State) (sent : List Request) : (s.endCommand sent).cfg = s.cfg := rfl
@[simp] theorem State.endCommand_cmd (s : State) (sent : List Request) : (s.endCommand sent).cmd = s.cmd := rfl
@[simp] theorem State.endCommand_status (s : State) (sent : List Request) : (s.endCommand sent).status = s.status := rfl
@[simp] theorem State.endCommand_blockLen (s : State) (sent : List Request) : (s.endCommand sent).blockLen = s.blockLen := rfl
@[simp] theorem State.endCommand_inLen (s : State) (sent : List Request) : (s.endCommand sent).inLen = s.inLen := rfl
@[simp] theorem State.endCommand_keyLen (s : State) (sent : List Request) : (s.endCommand sent).keyLen = s.keyLen := rfl
@[simp] theorem State.endCommand_ivLen (s : State) (sent : List Request) : (s.endCommand sent).ivLen = s.ivLen := rfl
@[simp] theorem State.endCommand_outLen (s : State) (sent : List Request) : (s.endCommand sent).outLen = s.outLen := rfl
@[simp] theorem State.endCommand_errInfo0 (s : State) (sent : List Request) : (s.endCommand sent).errInfo0 = s.errInfo0 := rfl
@[simp] theorem State.endCommand_errInfo1 (s : State) (sent : List Request) : (s.endCommand sent).errInfo1 = s.errInfo1 := rfl
@[simp] theorem State.endCommand_mem (s : State) (sent : List Request) : (s.endCommand sent).mem = s.mem := rfl
@[simp] theorem State.endCommand_seq (s : State) (sent : List Request) : (s.endCommand sent).seq = Seq.discarded := rfl
@[simp] theorem State.endCommand_port (s : State) (sent : List Request) : (s.endCommand sent).port = s.port.advance sent := rfl
@[simp] theorem State.endCommand_host (s : State) (sent : List Request) : (s.endCommand sent).host = s.host := rfl
@[simp] theorem State.endCommand_turns (s : State) (sent : List Request) : (s.endCommand sent).turns = s.turns := rfl
@[simp] theorem State.endCommand_events (s : State) (sent : List Request) : (s.endCommand sent).events = s.events := rfl
@[simp] theorem State.endCommand_reads (s : State) (sent : List Request) : (s.endCommand sent).reads = s.reads + 1 := rfl

/-! ### applyReset -/

@[simp] theorem State.applyReset_cfg (s : State) : s.applyReset.cfg = s.cfg := rfl
@[simp] theorem State.applyReset_cmd (s : State) : s.applyReset.cmd = 0#32 := rfl
@[simp] theorem State.applyReset_status (s : State) : s.applyReset.status = Status.reset := rfl
@[simp] theorem State.applyReset_blockLen (s : State) : s.applyReset.blockLen = 0#32 := rfl
@[simp] theorem State.applyReset_inLen (s : State) : s.applyReset.inLen = 0#32 := rfl
@[simp] theorem State.applyReset_keyLen (s : State) : s.applyReset.keyLen = 0#32 := rfl
@[simp] theorem State.applyReset_ivLen (s : State) : s.applyReset.ivLen = 0#32 := rfl
@[simp] theorem State.applyReset_outLen (s : State) : s.applyReset.outLen = 0#32 := rfl
@[simp] theorem State.applyReset_errInfo0 (s : State) : s.applyReset.errInfo0 = 0#32 := rfl
@[simp] theorem State.applyReset_errInfo1 (s : State) : s.applyReset.errInfo1 = 0#32 := rfl
@[simp] theorem State.applyReset_mem (s : State) : s.applyReset.mem = [] := rfl
@[simp] theorem State.applyReset_seq (s : State) : s.applyReset.seq = Seq.discarded := rfl
@[simp] theorem State.applyReset_port (s : State) : s.applyReset.port = s.port := rfl
@[simp] theorem State.applyReset_host (s : State) : s.applyReset.host = s.host := rfl
@[simp] theorem State.applyReset_turns (s : State) : s.applyReset.turns = s.turns := rfl
@[simp] theorem State.applyReset_events (s : State) : s.applyReset.events = .reset :: s.events := rfl
@[simp] theorem State.applyReset_reads (s : State) : s.applyReset.reads = s.reads := rfl

/-! ### logEvent -/

@[simp] theorem State.logEvent_cfg (s : State) (e : Event) : (s.logEvent e).cfg = s.cfg := rfl
@[simp] theorem State.logEvent_cmd (s : State) (e : Event) : (s.logEvent e).cmd = s.cmd := rfl
@[simp] theorem State.logEvent_status (s : State) (e : Event) : (s.logEvent e).status = s.status := rfl
@[simp] theorem State.logEvent_blockLen (s : State) (e : Event) : (s.logEvent e).blockLen = s.blockLen := rfl
@[simp] theorem State.logEvent_inLen (s : State) (e : Event) : (s.logEvent e).inLen = s.inLen := rfl
@[simp] theorem State.logEvent_keyLen (s : State) (e : Event) : (s.logEvent e).keyLen = s.keyLen := rfl
@[simp] theorem State.logEvent_ivLen (s : State) (e : Event) : (s.logEvent e).ivLen = s.ivLen := rfl
@[simp] theorem State.logEvent_outLen (s : State) (e : Event) : (s.logEvent e).outLen = s.outLen := rfl
@[simp] theorem State.logEvent_errInfo0 (s : State) (e : Event) : (s.logEvent e).errInfo0 = s.errInfo0 := rfl
@[simp] theorem State.logEvent_errInfo1 (s : State) (e : Event) : (s.logEvent e).errInfo1 = s.errInfo1 := rfl
@[simp] theorem State.logEvent_mem (s : State) (e : Event) : (s.logEvent e).mem = s.mem := rfl
@[simp] theorem State.logEvent_seq (s : State) (e : Event) : (s.logEvent e).seq = s.seq := rfl
@[simp] theorem State.logEvent_port (s : State) (e : Event) : (s.logEvent e).port = s.port := rfl
@[simp] theorem State.logEvent_host (s : State) (e : Event) : (s.logEvent e).host = s.host := rfl
@[simp] theorem State.logEvent_turns (s : State) (e : Event) : (s.logEvent e).turns = s.turns := rfl
@[simp] theorem State.logEvent_events (s : State) (e : Event) : (s.logEvent e).events = e :: s.events := rfl
@[simp] theorem State.logEvent_reads (s : State) (e : Event) : (s.logEvent e).reads = s.reads := rfl

/-! ### popTurn -/

@[simp] theorem State.popTurn_cfg (s : State) : s.popTurn.cfg = s.cfg := rfl
@[simp] theorem State.popTurn_cmd (s : State) : s.popTurn.cmd = s.cmd := rfl
@[simp] theorem State.popTurn_status (s : State) : s.popTurn.status = s.status := rfl
@[simp] theorem State.popTurn_blockLen (s : State) : s.popTurn.blockLen = s.blockLen := rfl
@[simp] theorem State.popTurn_inLen (s : State) : s.popTurn.inLen = s.inLen := rfl
@[simp] theorem State.popTurn_keyLen (s : State) : s.popTurn.keyLen = s.keyLen := rfl
@[simp] theorem State.popTurn_ivLen (s : State) : s.popTurn.ivLen = s.ivLen := rfl
@[simp] theorem State.popTurn_outLen (s : State) : s.popTurn.outLen = s.outLen := rfl
@[simp] theorem State.popTurn_errInfo0 (s : State) : s.popTurn.errInfo0 = s.errInfo0 := rfl
@[simp] theorem State.popTurn_errInfo1 (s : State) : s.popTurn.errInfo1 = s.errInfo1 := rfl
@[simp] theorem State.popTurn_mem (s : State) : s.popTurn.mem = s.mem := rfl
@[simp] theorem State.popTurn_seq (s : State) : s.popTurn.seq = s.seq := rfl
@[simp] theorem State.popTurn_port (s : State) : s.popTurn.port = s.port := rfl
@[simp] theorem State.popTurn_host (s : State) : s.popTurn.host = s.host := rfl
@[simp] theorem State.popTurn_turns (s : State) : s.popTurn.turns = s.turns.tail := rfl
@[simp] theorem State.popTurn_events (s : State) : s.popTurn.events = s.events := rfl
@[simp] theorem State.popTurn_reads (s : State) : s.popTurn.reads = s.reads := rfl

/-! ### STATUS -/

@[simp] theorem Status.started_busy (st : Status) : st.started.busy = true := rfl
@[simp] theorem Status.started_done (st : Status) : st.started.done = false := rfl
@[simp] theorem Status.started_kind (st : Status) : st.started.kind = .noError := rfl
@[simp] theorem Status.started_stage (st : Status) : st.started.stage = .interface := rfl
@[simp] theorem Status.started_cause (st : Status) : st.started.cause = .success := rfl
@[simp] theorem Status.started_accessErr (st : Status) : st.started.accessErr = st.accessErr := rfl
@[simp] theorem Status.succeeded_busy (st : Status) : st.succeeded.busy = false := rfl
@[simp] theorem Status.succeeded_done (st : Status) : st.succeeded.done = true := rfl
@[simp] theorem Status.succeeded_kind (st : Status) : st.succeeded.kind = .noError := rfl
@[simp] theorem Status.succeeded_stage (st : Status) : st.succeeded.stage = .interface := rfl
@[simp] theorem Status.succeeded_cause (st : Status) : st.succeeded.cause = .success := rfl
@[simp] theorem Status.succeeded_accessErr (st : Status) : st.succeeded.accessErr = st.accessErr := rfl
@[simp] theorem Status.failed_busy (st : Status) (e : ErrorRec) : (st.failed e).busy = false := rfl
@[simp] theorem Status.failed_done (st : Status) (e : ErrorRec) : (st.failed e).done = true := rfl
@[simp] theorem Status.failed_kind (st : Status) (e : ErrorRec) : (st.failed e).kind = e.kind := rfl
@[simp] theorem Status.failed_stage (st : Status) (e : ErrorRec) : (st.failed e).stage = e.stage := rfl
@[simp] theorem Status.failed_cause (st : Status) (e : ErrorRec) : (st.failed e).cause = e.cause := rfl
@[simp] theorem Status.failed_accessErr (st : Status) (e : ErrorRec) : (st.failed e).accessErr = st.accessErr := rfl
@[simp] theorem Status.dropped_busy (st : Status) : st.dropped.busy = st.busy := rfl
@[simp] theorem Status.dropped_done (st : Status) : st.dropped.done = st.done := rfl
@[simp] theorem Status.dropped_kind (st : Status) : st.dropped.kind = st.kind := rfl
@[simp] theorem Status.dropped_stage (st : Status) : st.dropped.stage = st.stage := rfl
@[simp] theorem Status.dropped_cause (st : Status) : st.dropped.cause = st.cause := rfl
@[simp] theorem Status.dropped_accessErr (st : Status) : st.dropped.accessErr = true := rfl

/-- A host write to STATUS can only clear ACCESS_ERR (10_state.md R17). -/
theorem Status.hostWrite_eq (st : Status) (w : Word) :
    st.hostWrite w = { st with accessErr := st.accessErr && !w.getLsbD 31 } := by
  unfold Status.hostWrite
  cases w.getLsbD 31 <;> cases st <;> simp

end Sys2Proof.Machine
end

