-- ==== Sys2Proof/Laws/Commands.lean ====
section
/-! SUPPORT. One lemma per shared operation of the commands: dispatch, the interface check, and what the two completions
do and leave alone. -/

namespace Sys2Proof.Machine

/-- Every arm of exec is the same shape over its operation's body. -/
theorem exec_eq_runCommand (i : Instr) (s : State) : exec i s = runCommand (bodyOf i) s := by cases i <;> rfl

/-- A command always answers a next state: the completion of its body's result. -/
theorem runCommand_eq (body : Body) (s : State) :
    runCommand body s = .next (s.complete (runBody body s).1 (runBody body s).2.sent) := rfl

/-- The interface check (30_encoding.md R64): too long an input never reaches the body. -/
theorem runBody_of_inLen_gt (body : Body) {s : State} (h : s.cfg.bufMax < s.inLen.toNat) :
    runBody body s = (.error (inLenError s.snapshot), ⟨s.seq, []⟩) := if_pos h

/-- The interface check passed: the body runs on the snapshot, with no request sent yet. -/
theorem runBody_of_inLen_le (body : Body) {s : State} (h : s.inLen.toNat ≤ s.cfg.bufMax) :
    runBody body s = body (primOf s.cfg) s.port.draw s.snapshot ⟨s.seq, []⟩ := if_neg (Nat.not_lt.2 h)

/-- What a successful completion does, and its frame (60_exceptions.md R104). -/
theorem committed_complete (s : State) (r : Bytes) (sent : List Request) :
    Committed s (s.complete (.ok r) sent) r sent where
  kept := {
    cfg := rfl, cmd := rfl, blockLen := rfl, inLen := rfl, keyLen := rfl, ivLen := rfl, accessErr := rfl
    memory := fun a ha => (memGet_memSetBytes r s.mem _ a).trans (if_neg ha)
    host := rfl, turns := rfl, events := rfl }
  ended := ⟨rfl, rfl, rfl, rfl, rfl⟩
  out := fun k hk => by
    refine (memGet_memSetBytes r s.mem (bufStart .output) _).trans ?_
    rw [if_pos ⟨Nat.le_add_right .., by omega⟩, Nat.add_sub_cancel_left]
  outLen := rfl
  kind := rfl
  stage := rfl
  cause := rfl
  info0 := rfl
  info1 := rfl

/-- What an error completion does, and its frame (60_exceptions.md R103). -/
theorem failed_complete (s : State) (e : ErrorRec) (sent : List Request) :
    Failed s (s.complete (.error e) sent) e sent where
  kept := ⟨rfl, rfl, rfl, rfl, rfl, rfl, rfl, fun _ _ => rfl, rfl, rfl, rfl⟩
  ended := ⟨rfl, rfl, rfl, rfl, rfl⟩
  outLen := rfl
  kind := rfl
  stage := rfl
  cause := rfl
  info0 := rfl
  info1 := rfl

/-- An error completion, with its record given in another spelling. -/
theorem failed_of_eq (s : State) {e e' : ErrorRec} (h : e = e') (sent : List Request) :
    Failed s (s.complete (.error e) sent) e' sent := h ▸ failed_complete s e sent

/-- A command's next state from what its body answers and the requests it sends. -/
theorem exec_of_run {i : Instr} {s : State} {r : CmdResult} {sent : List Request}
    (h1 : (runBody (bodyOf i) s).1 = r) (h2 : (runBody (bodyOf i) s).2.sent = sent) :
    exec i s = .next (s.complete r sent) := by rw [exec_eq_runCommand, runCommand_eq, h1, h2]

/-- Staging a result in RES keeps the result and the requests (10_state.md R34). -/
@[simp] theorem stage_fst (e : Engine) (r : CmdResult) (n : Nat) : (e.stage r n).1 = r := by cases r <;> rfl

@[simp] theorem stage_sent (e : Engine) (r : CmdResult) (n : Nat) : (e.stage r n).2.sent = e.sent := by
  cases r <;> rfl

/-- The byte the Unpad checks read is the last one (40_padding.md R73). -/
theorem getD_pred_length (d : Bytes) : d.getD (d.length - 1) 0#8 = lastByte d := by
  simp [List.getLastD_eq_getLast?, List.getLast?_eq_getElem?, List.getD_eq_getElem?_getD]

/-- A request's draw after the requests `sent` is the draw that many further on (41_cbc.md R81; log 7). -/
theorem advance_draw (p : Port) (sent : List Request) (m : Nat) :
    (p.advance sent).draw m = p.draw (sent.length + m) := by
  simp [Port.draw, Port.advance, List.getD_eq_getElem?_getD, List.getElem?_drop, Nat.add_assoc]

@[simp] theorem readBytes_length (s : State) (b : Buffer) (n : Nat) : (s.readBytes b n).length = n := by
  simp [State.readBytes]

theorem readBytes_getElem? (s : State) (b : Buffer) {n k : Nat} (h : k < n) :
    (s.readBytes b n)[k]? = some (s.readByte (bufStart b + k)) := by
  simp [State.readBytes, h]

/-- A longer read begins with the shorter one. -/
theorem readBytes_take (s : State) (b : Buffer) {n k : Nat} (h : k ≤ n) :
    (s.readBytes b n).take k = s.readBytes b k := by
  simp [State.readBytes, List.take_range, Nat.min_eq_left h, ← List.map_take]

/-- The snapshot's data where the interface check passes (10_state.md R39). -/
theorem snapshot_data {s : State} (h : s.inLen.toNat ≤ s.cfg.bufMax) : s.snapshot.data = s.inData := by
  simp [State.snapshot, State.inData, Nat.min_eq_left h]

@[simp] theorem snapshot_blockLen (s : State) : s.snapshot.blockLen = s.blockLen := rfl
@[simp] theorem snapshot_inLen (s : State) : s.snapshot.inLen = s.inLen := rfl
@[simp] theorem snapshot_keyLen (s : State) : s.snapshot.keyLen = s.keyLen := rfl
@[simp] theorem snapshot_ivLen (s : State) : s.snapshot.ivLen = s.ivLen := rfl
@[simp] theorem snapshot_cfg (s : State) : s.snapshot.cfg = s.cfg := rfl

/-- What a well-formed configuration says, as plain facts (00_scope.md R5). -/
theorem Config.wf_facts {c : Config} (h : c.wf = true) :
    1 ≤ c.blockSize ∧ c.blockSize ≤ 255 ∧ c.keySizes ≠ [] ∧ (∀ k, k ∈ c.keySizes → 1 ≤ k ∧ k ≤ 32) ∧
      1 ≤ c.bufMax ∧ c.bufMax ≤ 65536 ∧ c.base % 0x40000 = 0 ∧
      (c.prim = .toy4 → c.blockSize = 4 ∧ c.keySizes = [4]) := by
  simp only [Config.wf, Config.blockSizeOk, Config.ivFits, Config.keySizesNonEmpty, Config.keySizesInRange,
    Config.bufMaxOk, Config.baseAligned, Config.primFits, Bool.and_eq_true, decide_eq_true_eq, List.all_eq_true] at h
  obtain ⟨⟨⟨⟨⟨⟨h1, -⟩, h3⟩, h4⟩, h5⟩, h6⟩, h7⟩ := h
  refine ⟨h1.1, h1.2, h3, h4, h5.1, h5.2, h6, fun hp => ?_⟩
  rw [hp] at h7
  simpa using h7

/-- The snapshot's key operand is `KEY[0 .. KEY_LEN)` (10_state.md R29). -/
theorem snapshot_keyBytes {s : State} (hc : s.cfg.wf = true) (h : s.keySizeOk) :
    s.snapshot.keyBytes = s.keyData :=
  readBytes_take s .key ((Config.wf_facts hc).2.2.2.1 _ h).2

/-- The snapshot's IV operand is `IV[0 .. BLOCK_SIZE)` (10_state.md R30). -/
theorem snapshot_ivBlock {s : State} (hc : s.cfg.wf = true) : s.snapshot.ivBlock = s.ivData :=
  readBytes_take s .iv (Nat.le_trans (Config.wf_facts hc).2.1 (by decide))

@[simp] theorem inData_length (s : State) : s.inData.length = s.inLen.toNat := readBytes_length ..
@[simp] theorem keyData_length (s : State) : s.keyData.length = s.keyLen.toNat := readBytes_length ..
@[simp] theorem ivData_length (s : State) : s.ivData.length = s.cfg.blockSize := readBytes_length ..

/-- A 32-bit register's value is the register word of its number. -/
@[simp] theorem wordOf_toNat (w : Word) : wordOf w.toNat = w := by simp

end Sys2Proof.Machine
end

