-- ==== Sys2Proof/Laws/Decode.lean ====
section
/-! SUPPORT. The byte-order helpers undo each other, and a command word's fields by its number. -/

namespace Sys2Proof

/-- Bit `i` of a little-endian word is a bit of one of its four bytes. -/
theorem wordOfBytes_getLsbD (b0 b1 b2 b3 : Byte) (i : Nat) :
    (wordOfBytes b0 b1 b2 b3).getLsbD i =
      if i < 8 then b0.getLsbD i else if i < 16 then b1.getLsbD (i - 8)
      else if i < 24 then b2.getLsbD (i - 16) else b3.getLsbD (i - 24) := by
  change BitVec.getLsbD (w := 8 + 8 + 8 + 8) (b3 ++ b2 ++ b1 ++ b0) i = _
  simp only [BitVec.getLsbD_append]
  by_cases h1 : i < 8
  · simp [h1]
  · by_cases h2 : i < 16
    · simp [h1, h2, show i - 8 < 8 by omega]
    · by_cases h3 : i < 24
      · simp [h1, h2, h3, show ¬i - 8 < 8 by omega, show i - 8 - 8 = i - 16 by omega, show i - 16 < 8 by omega]
      · simp [h1, h2, h3, show ¬i - 8 < 8 by omega, show ¬i - 8 - 8 < 8 by omega,
          show i - 8 - 8 - 8 = i - 24 by omega]

/-- Bit `i` of byte `j` of a word. -/
theorem byteOfWord_getLsbD (w : Word) (j i : Nat) :
    (byteOfWord w j).getLsbD i = (decide (i < 8) && w.getLsbD (8 * j + i)) := by
  simp [byteOfWord, BitVec.getLsbD_extractLsb']

/-- A word is made up of its four bytes. -/
theorem wordOfBytes_byteOfWord (w : Word) :
    wordOfBytes (byteOfWord w 0) (byteOfWord w 1) (byteOfWord w 2) (byteOfWord w 3) = w := by
  apply BitVec.eq_of_getLsbD_eq
  intro i hi
  simp only [wordOfBytes_getLsbD, byteOfWord_getLsbD]
  split
  · simp [*]
  · split
    · rw [show 8 * 1 + (i - 8) = i by omega]; simp; omega
    · split
      · rw [show 8 * 2 + (i - 16) = i by omega]; simp; omega
      · rw [show 8 * 3 + (i - 24) = i by omega]; simp; omega

/-- The bytes of a word made up of four bytes. -/
theorem bytesOfWord_wordOfBytes (b0 b1 b2 b3 : Byte) : bytesOfWord (wordOfBytes b0 b1 b2 b3) = [b0, b1, b2, b3] := by
  have h : ∀ j b, (∀ i, i < 8 → (wordOfBytes b0 b1 b2 b3).getLsbD (8 * j + i) = b.getLsbD i) →
      byteOfWord (wordOfBytes b0 b1 b2 b3) j = b := fun j b hb => by
    apply BitVec.eq_of_getLsbD_eq
    intro i hi
    rw [byteOfWord_getLsbD, hb i hi]
    simp [hi]
  have h0 := h 0 b0 fun i hi => by rw [wordOfBytes_getLsbD, if_pos (by omega)]; congr 1; omega
  have h1 := h 1 b1 fun i hi => by
    rw [wordOfBytes_getLsbD, if_neg (by omega), if_pos (by omega)]; congr 1; omega
  have h2 := h 2 b2 fun i hi => by
    rw [wordOfBytes_getLsbD, if_neg (by omega), if_neg (by omega), if_pos (by omega)]; congr 1; omega
  have h3 := h 3 b3 fun i hi => by
    rw [wordOfBytes_getLsbD, if_neg (by omega), if_neg (by omega), if_neg (by omega)]; congr 1; omega
  simp [bytesOfWord, show List.range 4 = [0, 1, 2, 3] from rfl, h0, h1, h2, h3]

/-- The low byte of a zero-extended byte is the byte (20_memory.md R46). -/
theorem byteOfWord_zeroExtend (b : Byte) : byteOfWord (b.zeroExtend 32) 0 = b := by
  apply BitVec.eq_of_getLsbD_eq
  intro i hi
  rw [byteOfWord_getLsbD]
  simp [BitVec.zeroExtend, hi, show i < 32 by omega]

/-- OP is the word's number modulo 16 (30_encoding.md R59). -/
theorem opField_toNat (w : Word) : (opField w).toNat = w.toNat % 16 := by simp [opField, BitVec.extractLsb'_toNat]

/-- RSV is 0 exactly when the word's number is below 16 (30_encoding.md R59). -/
theorem rsvField_eq_zero (w : Word) : rsvField w = 0#28 ↔ w.toNat < 16 := by
  have hw := w.isLt
  rw [← BitVec.toNat_inj]
  simp only [rsvField, BitVec.extractLsb'_toNat, Nat.shiftRight_eq_div_pow, BitVec.toNat_ofNat]
  omega

end Sys2Proof
end

