-- ==== Sys2Proof/Laws/Bus.lean ====
section
/-! SUPPORT. The windows are disjoint, which register an offset is, and one lemma per bus operation: what a read and a write
can do (20_memory.md R42 to R50, 60_exceptions.md R106, R107). -/

namespace Sys2Proof.Machine

/-! ### The windows -/

theorem inBuffer_iff (c : Config) (b : Buffer) (off : Nat) :
    inBuffer c b off = true ↔ bufStart b ≤ off ∧ off < bufStart b + bufCap c b := by simp [inBuffer]

theorem not_inBuffer_iff (c : Config) (b : Buffer) (off : Nat) :
    inBuffer c b off = false ↔ ¬(bufStart b ≤ off ∧ off < bufStart b + bufCap c b) := by simp [inBuffer]

theorem inBuffer_start (c : Config) (b : Buffer) {k : Nat} (h : k < bufCap c b) : inBuffer c b (bufStart b + k) = true :=
  (inBuffer_iff ..).2 ⟨Nat.le_add_right .., by omega⟩

/-- No two buffers share a byte (20_memory.md R43). -/
theorem inBuffer_inj {c : Config} (hc : c.wf = true) {b b' : Buffer} {off : Nat} (h : inBuffer c b off = true)
    (h' : inBuffer c b' off = true) : b = b' := by
  have hwf := Config.wf_facts hc
  rw [inBuffer_iff] at h h'
  cases b <;> cases b' <;> first
    | rfl
    | (exfalso
       simp only [bufStart, bufCap, Config.keyMax, Config.ivMax, Config.outMax] at h h'
       omega)

/-- The buffer an offset lies in (20_memory.md R43). -/
theorem bufferAt_eq_some {c : Config} (hc : c.wf = true) {b : Buffer} {off : Nat} :
    bufferAt c off = some b ↔ inBuffer c b off = true := by
  unfold bufferAt
  constructor
  · intro h
    split at h; · cases h; assumption
    split at h; · cases h; assumption
    split at h; · cases h; assumption
    split at h; · cases h; assumption
    cases h
  · intro h
    split; · rename_i h1; rw [inBuffer_inj hc h h1]
    split; · rename_i h1; rw [inBuffer_inj hc h h1]
    split; · rename_i h1; rw [inBuffer_inj hc h h1]
    split; · rename_i h1; rw [inBuffer_inj hc h h1]
    cases b <;> contradiction

/-- An offset outside every buffer is reserved (20_memory.md R48, R50). -/
theorem bufferAt_eq_none {c : Config} {off : Nat} (h : ∀ b, inBuffer c b off = false) : bufferAt c off = none := by
  simp [bufferAt, h]

/-- Every buffer lies in the window region (20_memory.md R41, R43). -/
theorem le_of_inBuffer {c : Config} {b : Buffer} {off : Nat} (h : inBuffer c b off = true) : 0x100 ≤ off := by
  rw [inBuffer_iff] at h
  cases b <;> simp only [bufStart] at h <;> omega

/-! ### The registers -/

theorem regAt_offset (r : Reg) : regAt (regOffset r) = some r := by cases r <;> decide

theorem regAt_reserved {off : Nat} (h : 0x030 ≤ off) : regAt off = none := by
  simp only [regAt, allRegs, List.find?_eq_none, List.mem_cons, List.not_mem_nil, or_false, beq_iff_eq]
  rintro r (rfl | rfl | rfl | rfl | rfl | rfl | rfl | rfl | rfl | rfl | rfl | rfl) <;> simp only [regOffset] <;> omega

theorem regOffset_facts (r : Reg) : regOffset r < 0x100 ∧ regOffset r % 4 = 0 := by cases r <;> decide

theorem regOffset_of_regAt {off : Nat} {r : Reg} (h : regAt off = some r) : regOffset r = off := by
  have := List.find?_some h
  simpa using this

/-- A register read and a register write, at the register's offset (20_memory.md R47). -/
@[simp] theorem readValue_reg (s : State) (r : Reg) (n : Nat) : s.readValue (regOffset r) n = s.readReg r := by
  simp [State.readValue, inRegisterRegion, (regOffset_facts r).1, regAt_offset]

@[simp] theorem writeValue_reg (s : State) (r : Reg) (n : Nat) (v : Word) :
    s.writeValue (regOffset r) n v = s.writeReg r v := by
  simp [State.writeValue, inRegisterRegion, (regOffset_facts r).1, regAt_offset]

/-! ### What an access can do -/

/-- The bus-error rule, as the three cases of R45. -/
theorem isBusError_iff (off n : Nat) :
    isBusError off n = true ↔ (n ≠ 1 ∧ n ≠ 4) ∨ (n = 4 ∧ off % 4 ≠ 0) ∨ (n = 1 ∧ off < 0x100) := by
  simp [isBusError, inRegisterRegion, or_assoc]

@[simp] theorem isBusError_reg (r : Reg) : isBusError (regOffset r) 4 = false := by cases r <;> decide

/-- An accepted register access is 32 bits wide and aligned (20_memory.md R45). -/
theorem accepted_cases {off n : Nat} (h : isBusError off n = false) :
    (n = 4 ∧ off % 4 = 0) ∨ (n = 1 ∧ 0x100 ≤ off) := by
  by_contra hn
  have := (isBusError_iff off n).2 (by omega)
  simp [h] at this

/-- What a window byte write can do (20_memory.md R48 to R50). -/
theorem writeWindowByte_cases (s : State) (off : Nat) (b : Byte) :
    s.writeWindowByte off b = s ∨
      (s.writeWindowByte off b = { s with mem := memSet s.mem off b } ∧
        ∃ buf, buf ≠ .output ∧ bufferAt s.cfg off = some buf) := by
  unfold State.writeWindowByte
  split
  · exact .inr ⟨rfl, .key, by simp, ‹_›⟩
  · exact .inr ⟨rfl, .iv, by simp, ‹_›⟩
  · exact .inr ⟨rfl, .input, by simp, ‹_›⟩
  · exact .inl rfl
  · exact .inl rfl

@[simp] theorem writeWindowByte_cfg (s : State) (off : Nat) (b : Byte) : (s.writeWindowByte off b).cfg = s.cfg := by
  rcases writeWindowByte_cases s off b with h | ⟨h, -⟩ <;> rw [h]

/-- A window byte write is an update of memory alone. -/
theorem writeWindowByte_eq (s : State) (off : Nat) (b : Byte) :
    s.writeWindowByte off b = { s with mem := (s.writeWindowByte off b).mem } := by
  rcases writeWindowByte_cases s off b with h | ⟨h, -⟩ <;> rw [h]

/-- The host may write this byte: it lies in KEY, IV or IN (20_memory.md R43). -/
def hostWritable (c : Config) (off : Nat) : Bool :=
  match bufferAt c off with
  | some .key | some .iv | some .input => true
  | some .output | none => false

/-- Every byte after a window byte write (20_memory.md R46, R48, R49). -/
theorem memGet_writeWindowByte (s : State) (off : Nat) (b : Byte) (a : Nat) :
    memGet (s.writeWindowByte off b).mem a = if a = off ∧ hostWritable s.cfg off = true then some b else memGet s.mem a := by
  unfold State.writeWindowByte hostWritable
  cases h : bufferAt s.cfg off with
  | none => simp
  | some buf => cases buf <;> simp [memGet_memSet]

/-- A window byte write keeps the canonical form of memory. -/
theorem writeWindowByte_wf {s : State} (h : Memory.wf s.mem) (off : Nat) (b : Byte) :
    Memory.wf (s.writeWindowByte off b).mem := by
  rcases writeWindowByte_cases s off b with e | ⟨e, -⟩ <;> rw [e]
  · exact h
  · exact memSet_wf h _ _

/-- What an idle write can do: a register write, or window byte writes at the offset and the ones after it. -/
theorem writeValue_cases (s : State) {off n : Nat} (v : Word) (h : isBusError off n = false) :
    (∃ r, off = regOffset r ∧ n = 4 ∧ s.writeValue off n v = s.writeReg r v) ∨
      (off < 0x100 ∧ s.writeValue off n v = s) ∨
      (0x100 ≤ off ∧ n = 1 ∧ s.writeValue off n v = s.writeWindowByte off (byteOfWord v 0)) ∨
      (0x100 ≤ off ∧ n = 4 ∧ s.writeValue off n v =
        (((s.writeWindowByte off (byteOfWord v 0)).writeWindowByte (off + 1) (byteOfWord v 1)).writeWindowByte (off + 2)
          (byteOfWord v 2)).writeWindowByte (off + 3) (byteOfWord v 3)) := by
  rcases accepted_cases h with ⟨rfl, -⟩ | ⟨rfl, h1⟩
  · by_cases h1 : off < 0x100
    · cases hr : regAt off with
      | none => exact .inr (.inl ⟨h1, by simp [State.writeValue, inRegisterRegion, h1, hr]⟩)
      | some r =>
        refine .inl ⟨r, (regOffset_of_regAt hr).symm, rfl, ?_⟩
        simp [State.writeValue, inRegisterRegion, h1, hr]
    · exact .inr (.inr (.inr ⟨by omega, rfl, by simp [State.writeValue, inRegisterRegion, h1]⟩))
  · have h2 : ¬off < 0x100 := by omega
    exact .inr (.inr (.inl ⟨h1, rfl, by simp [State.writeValue, inRegisterRegion, h2]⟩))

/-- What a host write can do: a bus error, a drop while BUSY, or its effect while idle. -/
theorem busWrite_cases (s : State) (off n : Nat) (v : Word) :
    (isBusError off n = true ∧ s.busWrite off n v = (.busError, s)) ∨
      (isBusError off n = false ∧ s.status.busy = true ∧
        s.busWrite off n v = (.written, { s with status := { s.status with accessErr := true } })) ∨
      (isBusError off n = false ∧ s.status.busy = false ∧ s.busWrite off n v = (.written, s.writeValue off n v)) := by
  cases h : isBusError off n with
  | true => exact .inl ⟨rfl, by simp [State.busWrite, h]⟩
  | false =>
    cases hb : s.status.busy with
    | true => exact .inr (.inl ⟨rfl, rfl, by simp [State.busWrite, h, State.acceptWrite, hb, Status.dropped]⟩)
    | false => exact .inr (.inr ⟨rfl, rfl, by simp [State.busWrite, h, State.acceptWrite, hb]⟩)

/-- What a host read can do: a bus error, or its value and one more read event. -/
theorem busRead_cases (s : State) (off n : Nat) :
    (isBusError off n = true ∧ s.busRead off n = (.busError, s)) ∨
      (isBusError off n = false ∧ s.busRead off n = (.value (s.readValue off n), { s with reads := s.reads + 1 })) := by
  cases h : isBusError off n <;> simp [State.busRead, h]

/-- A one-byte write while idle (20_memory.md R46). -/
theorem busWrite_byte {s : State} (hb : s.status.busy = false) {off : Nat} (h : 0x100 ≤ off) (v : Word) :
    s.busWrite off 1 v = (.written, s.writeWindowByte off (byteOfWord v 0)) := by
  have n0 : ¬off < 0x100 := by omega
  have hbe : isBusError off 1 = false := by simp [isBusError, inRegisterRegion]; omega
  simp [State.busWrite, hbe, State.acceptWrite, hb, State.writeValue, inRegisterRegion, n0]

/-- A one-byte read (20_memory.md R46). -/
theorem busRead_byte (s : State) {off : Nat} (h : 0x100 ≤ off) :
    s.busRead off 1 = (.value ((s.readWindowByte off).zeroExtend 32), { s with reads := s.reads + 1 }) := by
  have n0 : ¬off < 0x100 := by omega
  have hbe : isBusError off 1 = false := by simp [isBusError, inRegisterRegion]; omega
  simp [State.busRead, hbe, State.readValue, inRegisterRegion, n0]

/-- A register write while idle (20_memory.md R47). -/
theorem busWrite_reg {s : State} (hb : s.status.busy = false) (r : Reg) (v : Word) :
    s.busWrite (regOffset r) 4 v = (.written, s.writeReg r v) := by
  simp [State.busWrite, State.acceptWrite, hb]

/-- An access inside the aperture reaches the PCU at its offset (20_memory.md R40). -/
theorem hostAccess_inside {s : State} {a : Access} {off : Nat} (h : off < 0x40000) (ha : a.addr = s.cfg.base + off) :
    hostAccess s a = .next ((s.busAccess a off).2.logEvent (.bus a (s.busAccess a off).1)) := by
  have : offsetOf s.cfg a.addr = some off := by
    unfold offsetOf
    rw [if_pos (by omega), ha, Nat.add_sub_cancel_left]
  simp [hostAccess, State.access, this]

/-- An access outside it leaves the PCU as it is (R40; log 10). -/
theorem hostAccess_outside {s : State} {a : Access} (h : ¬(s.cfg.base ≤ a.addr ∧ a.addr < s.cfg.base + 0x40000)) :
    hostAccess s a = .next (s.logEvent (.bus a .outside)) := by simp [hostAccess, State.access, offsetOf, h]

/-- What an access does: it missed the PCU, or reached it at its offset; either way it was logged. -/
theorem hostAccess_next {s t : State} {a : Access} (h : hostAccess s a = .next t) :
    t = s.logEvent (.bus a .outside) ∨
      ∃ off, off < 0x40000 ∧ a.addr = s.cfg.base + off ∧
        t = (s.busAccess a off).2.logEvent (.bus a (s.busAccess a off).1) := by
  by_cases hi : s.cfg.base ≤ a.addr ∧ a.addr < s.cfg.base + 0x40000
  · have ha : a.addr = s.cfg.base + (a.addr - s.cfg.base) := by omega
    rw [hostAccess_inside (off := a.addr - s.cfg.base) (by omega) ha] at h
    exact .inr ⟨_, by omega, ha, by cases h; rfl⟩
  · rw [hostAccess_outside hi] at h; exact .inl (by cases h; rfl)

end Sys2Proof.Machine
end

