-- ==== Sys2Proof/Laws/Cbc.lean ====
section
/-! SUPPORT. What the CBC transforms do: one lemma per loop for the run without a fault and for the first fault, and how
blocks make up a sequence (41_cbc.md R84 to R86). -/

namespace Sys2Proof.Machine

/-! ### One request -/

theorem ask_fault {α : Type} {e : Engine} {draw : Nat → Bool} (r : Request) (a : α) (h : draw e.sent.length = true) :
    e.ask draw r a = (none, ⟨{ e.seq with pending := some r }, e.sent ++ [r]⟩) := by simp [Engine.ask, h]

theorem ask_answer {α : Type} {e : Engine} {draw : Nat → Bool} (r : Request) (a : α) (h : draw e.sent.length = false) :
    e.ask draw r a = (some a, ⟨{ e.seq with pending := none }, e.sent ++ [r]⟩) := by simp [Engine.ask, h]

/-! ### The chained blocks and their requests -/

/-- The output blocks of the encrypt loop from a chaining value. -/
def encBlocks (P : Prim) (h : Bytes) : Bytes → List Bytes → List Bytes
  | _, [] => []
  | c, d :: ds => P.enc h (xorBlock d c) :: encBlocks P h (P.enc h (xorBlock d c)) ds

/-- The requests of the encrypt loop from a chaining value. -/
def encRequests (P : Prim) (h : Bytes) : Bytes → List Bytes → List Request
  | _, [] => []
  | c, d :: ds => .enc h (xorBlock d c) :: encRequests P h (P.enc h (xorBlock d c)) ds

/-- The output blocks of the decrypt loop from a chaining value. -/
def decBlocks (P : Prim) (h : Bytes) : Bytes → List Bytes → List Bytes
  | _, [] => []
  | c, d :: ds => xorBlock (P.dec h d) c :: decBlocks P h d ds

@[simp] theorem encBlocks_length (P : Prim) (h c : Bytes) (ds : List Bytes) :
    (encBlocks P h c ds).length = ds.length := by
  induction ds generalizing c with
  | nil => rfl
  | cons d ds ih => simp [encBlocks, ih]

@[simp] theorem encRequests_length (P : Prim) (h c : Bytes) (ds : List Bytes) :
    (encRequests P h c ds).length = ds.length := by
  induction ds generalizing c with
  | nil => rfl
  | cons d ds ih => simp [encRequests, ih]

@[simp] theorem decBlocks_length (P : Prim) (h c : Bytes) (ds : List Bytes) :
    (decBlocks P h c ds).length = ds.length := by
  induction ds generalizing c with
  | nil => rfl
  | cons d ds ih => simp [decBlocks, ih]

/-- The value in CHAIN before block `i` of a chain that begins with `c` and feeds back the blocks `fed`. -/
def chainAt (c : Bytes) (fed : List Bytes) : Nat → Bytes
  | 0 => c
  | i + 1 => fed.getD i []

theorem chainAt_cons (c y : Bytes) (fed : List Bytes) (i : Nat) : chainAt c (y :: fed) (i + 1) = chainAt y fed i := by
  cases i <;> rfl

/-- Each ciphertext block: `C[i] = E k (P[i] XOR C[i-1])` (R84). -/
theorem encBlocks_getD (P : Prim) (h c : Bytes) (ds : List Bytes) {i : Nat} (hi : i < ds.length) :
    (encBlocks P h c ds).getD i [] = P.enc h (xorBlock (ds.getD i []) (chainAt c (encBlocks P h c ds) i)) := by
  induction ds generalizing c i with
  | nil => simp at hi
  | cons d ds ih =>
    cases i with
    | zero => simp [encBlocks, chainAt]
    | succ i => simpa [encBlocks, chainAt_cons] using ih (P.enc h (xorBlock d c)) (by simpa using hi)

/-- Each request of the encrypt loop (R86). -/
theorem encRequests_getElem? (P : Prim) (h c : Bytes) (ds : List Bytes) {i : Nat} (hi : i < ds.length) :
    (encRequests P h c ds)[i]? = some (.enc h (xorBlock (ds.getD i []) (chainAt c (encBlocks P h c ds) i))) := by
  induction ds generalizing c i with
  | nil => simp at hi
  | cons d ds ih =>
    cases i with
    | zero => simp [encRequests, chainAt]
    | succ i => simpa [encRequests, encBlocks, chainAt_cons] using ih (P.enc h (xorBlock d c)) (by simpa using hi)

/-- Each plaintext block: `P[i] = D k (C[i]) XOR C[i-1]` (R85). -/
theorem decBlocks_getD (P : Prim) (h c : Bytes) (ds : List Bytes) {i : Nat} (hi : i < ds.length) :
    (decBlocks P h c ds).getD i [] = xorBlock (P.dec h (ds.getD i [])) (chainAt c ds i) := by
  induction ds generalizing c i with
  | nil => simp at hi
  | cons d ds ih =>
    cases i with
    | zero => simp [decBlocks, chainAt]
    | succ i => simpa [decBlocks, chainAt_cons] using ih d (by simpa using hi)

/-! ### The loops -/

/-- The encrypt loop with no fault (R84). -/
theorem encLoop_answered (P : Prim) (draw : Nat → Bool) (h : Bytes) (ds : List Bytes) (e : Engine)
    (hd : ∀ j, j < ds.length → draw (e.sent.length + j) = false) :
    (encLoop P draw h ds e).1 = .ok (e.seq.res ++ (encBlocks P h e.seq.chain ds).flatten) ∧
      (encLoop P draw h ds e).2.sent = e.sent ++ encRequests P h e.seq.chain ds := by
  induction ds generalizing e with
  | nil => simp [encLoop, encBlocks, encRequests]
  | cons d ds ih =>
    have h0 := hd 0 (by simp)
    rw [Nat.add_zero] at h0
    simp only [encLoop, ask_answer _ _ h0]
    obtain ⟨ih1, ih2⟩ := ih (Engine.nextBlock ⟨{ e.seq with pending := none }, e.sent ++
        [.enc h (xorBlock d e.seq.chain)]⟩ (P.enc h (xorBlock d e.seq.chain)) (P.enc h (xorBlock d e.seq.chain)))
      (fun j hj => by
      have := hd (j + 1) (by simpa using hj)
      simpa [Engine.nextBlock, Nat.add_assoc, Nat.add_comm 1 j] using this)
    rw [ih1, ih2]
    simp [Engine.nextBlock, encBlocks, encRequests]

/-- The encrypt loop at its first fault, block `j` of those left (R84, R86): the error record, the requests sent, and the
hidden state it stands in. -/
theorem encLoop_fault (P : Prim) (draw : Nat → Bool) (h : Bytes) (ds : List Bytes) (e : Engine) {j : Nat}
    (hj : j < ds.length) (hf : draw (e.sent.length + j) = true)
    (hd : ∀ j', j' < j → draw (e.sent.length + j') = false) :
    (encLoop P draw h ds e).1 = .error (primFaultError (wordOf (e.seq.blockIndex + j))) ∧
      (encLoop P draw h ds e).2.sent = e.sent ++ (encRequests P h e.seq.chain ds).take (j + 1) ∧
      (encLoop P draw h ds e).2.seq =
        { e.seq with
          chain := chainAt e.seq.chain (encBlocks P h e.seq.chain ds) j
          res := e.seq.res ++ ((encBlocks P h e.seq.chain ds).take j).flatten
          blockIndex := e.seq.blockIndex + j
          pending := (encRequests P h e.seq.chain ds)[j]? } := by
  induction ds generalizing e j with
  | nil => simp at hj
  | cons d ds ih =>
    cases j with
    | zero =>
      rw [Nat.add_zero] at hf
      simp [encLoop, ask_fault _ _ hf, encRequests, chainAt]
    | succ j =>
      have h0 := hd 0 (by omega)
      rw [Nat.add_zero] at h0
      simp only [encLoop, ask_answer _ _ h0]
      obtain ⟨ih1, ih2, ih3⟩ := ih (Engine.nextBlock ⟨{ e.seq with pending := none }, e.sent ++
          [.enc h (xorBlock d e.seq.chain)]⟩ (P.enc h (xorBlock d e.seq.chain)) (P.enc h (xorBlock d e.seq.chain)))
        (j := j) (by simpa using hj)
        (by simpa [Engine.nextBlock, Nat.add_assoc, Nat.add_comm 1 j] using hf)
        (fun j' hj' => by
          have := hd (j' + 1) (by omega)
          simpa [Engine.nextBlock, Nat.add_assoc, Nat.add_comm 1 j'] using this)
      rw [ih1, ih2, ih3]
      simp [Engine.nextBlock, encBlocks, encRequests, chainAt_cons, Nat.add_assoc, Nat.add_comm 1 j]

/-- What a finished encrypt loop returns is staged in RES, and no request is pending (R84, 10_state.md R34). -/
theorem encLoop_staged {P : Prim} {draw : Nat → Bool} {h : Bytes} {ds : List Bytes} {e : Engine} {r : Bytes}
    (hp : e.seq.pending = none) (hr : (encLoop P draw h ds e).1 = .ok r) :
    (encLoop P draw h ds e).2.seq.res = r ∧ (encLoop P draw h ds e).2.seq.pending = none := by
  induction ds generalizing e with
  | nil => exact ⟨by simpa [encLoop] using hr, hp⟩
  | cons d ds ih =>
    cases hd : draw e.sent.length with
    | true => simp [encLoop, ask_fault _ _ hd] at hr
    | false =>
      simp only [encLoop, ask_answer _ _ hd] at hr ⊢
      exact ih rfl hr

/-- The decrypt loop with no fault (R85). -/
theorem decLoop_answered (P : Prim) (draw : Nat → Bool) (h : Bytes) (ds : List Bytes) (e : Engine)
    (hd : ∀ j, j < ds.length → draw (e.sent.length + j) = false) :
    (decLoop P draw h ds e).1 = .ok (e.seq.res ++ (decBlocks P h e.seq.chain ds).flatten) ∧
      (decLoop P draw h ds e).2.sent = e.sent ++ ds.map (.dec h) := by
  induction ds generalizing e with
  | nil => simp [decLoop, decBlocks]
  | cons d ds ih =>
    have h0 := hd 0 (by simp)
    rw [Nat.add_zero] at h0
    simp only [decLoop, ask_answer _ _ h0]
    obtain ⟨ih1, ih2⟩ := ih (Engine.nextBlock ⟨{ e.seq with pending := none }, e.sent ++ [.dec h d]⟩
        (xorBlock (P.dec h d) e.seq.chain) d) (fun j hj => by
      have := hd (j + 1) (by simpa using hj)
      simpa [Engine.nextBlock, Nat.add_assoc, Nat.add_comm 1 j] using this)
    rw [ih1, ih2]
    simp [Engine.nextBlock, decBlocks]

/-- The decrypt loop at its first fault, block `j` of those left (R85, R86): the error record, the requests sent, and the
hidden state it stands in. -/
theorem decLoop_fault (P : Prim) (draw : Nat → Bool) (h : Bytes) (ds : List Bytes) (e : Engine) {j : Nat}
    (hj : j < ds.length) (hf : draw (e.sent.length + j) = true)
    (hd : ∀ j', j' < j → draw (e.sent.length + j') = false) :
    (decLoop P draw h ds e).1 = .error (primFaultError (wordOf (e.seq.blockIndex + j))) ∧
      (decLoop P draw h ds e).2.sent = e.sent ++ (ds.map (.dec h)).take (j + 1) ∧
      (decLoop P draw h ds e).2.seq =
        { e.seq with
          chain := chainAt e.seq.chain ds j
          res := e.seq.res ++ ((decBlocks P h e.seq.chain ds).take j).flatten
          blockIndex := e.seq.blockIndex + j
          pending := (ds.map (Request.dec h))[j]? } := by
  induction ds generalizing e j with
  | nil => simp at hj
  | cons d ds ih =>
    cases j with
    | zero =>
      rw [Nat.add_zero] at hf
      simp [decLoop, ask_fault _ _ hf, chainAt]
    | succ j =>
      have h0 := hd 0 (by omega)
      rw [Nat.add_zero] at h0
      simp only [decLoop, ask_answer _ _ h0]
      obtain ⟨ih1, ih2, ih3⟩ := ih (Engine.nextBlock ⟨{ e.seq with pending := none }, e.sent ++ [.dec h d]⟩
          (xorBlock (P.dec h d) e.seq.chain) d) (j := j) (by simpa using hj)
        (by simpa [Engine.nextBlock, Nat.add_assoc, Nat.add_comm 1 j] using hf)
        (fun j' hj' => by
          have := hd (j' + 1) (by omega)
          simpa [Engine.nextBlock, Nat.add_assoc, Nat.add_comm 1 j'] using this)
      rw [ih1, ih2, ih3]
      simp [Engine.nextBlock, decBlocks, chainAt_cons, Nat.add_assoc, Nat.add_comm 1 j]

/-- What a finished decrypt loop returns is staged in RES, and no request is pending (R85, 10_state.md R34). -/
theorem decLoop_staged {P : Prim} {draw : Nat → Bool} {h : Bytes} {ds : List Bytes} {e : Engine} {r : Bytes}
    (hp : e.seq.pending = none) (hr : (decLoop P draw h ds e).1 = .ok r) :
    (decLoop P draw h ds e).2.seq.res = r ∧ (decLoop P draw h ds e).2.seq.pending = none := by
  induction ds generalizing e with
  | nil => exact ⟨by simpa [decLoop] using hr, hp⟩
  | cons d ds ih =>
    cases hd : draw e.sent.length with
    | true => simp [decLoop, ask_fault _ _ hd] at hr
    | false =>
      simp only [decLoop, ask_answer _ _ hd] at hr ⊢
      exact ih rfl hr

/-! ### The head both transforms share -/

/-- A failing check: no request is sent (R83). -/
theorem cbcSetup_rejected (draw : Nat → Bool) {len : Nat} {S : Snapshot} (e : Engine) {err : ErrorRec}
    (h : cbcCheck len S = some err) : cbcSetup draw len S e = (some err, e) := by simp [cbcSetup, h]

/-- `setup` faults (R84). -/
theorem cbcSetup_fault {draw : Nat → Bool} {len : Nat} {S : Snapshot} {e : Engine} (h : cbcCheck len S = none)
    (hf : draw e.sent.length = true) :
    cbcSetup draw len S e =
      (some (primFaultError 0xFFFFFFFF#32), ⟨{ e.seq with pending := some (.setup S.keyBytes) },
        e.sent ++ [.setup S.keyBytes]⟩) := by
  simp [cbcSetup, h, ask_fault _ _ hf]

/-- `setup` answers: CHAIN is the IV, RES is empty and the block index 0, whatever was there (R84, R90). -/
theorem cbcSetup_answer {draw : Nat → Bool} {len : Nat} {S : Snapshot} {e : Engine} (h : cbcCheck len S = none)
    (hf : draw e.sent.length = false) :
    cbcSetup draw len S e =
      (none, ⟨⟨S.ivBlock, [], some S.keyBytes, 0, e.seq.scanIndex, none⟩, e.sent ++ [.setup S.keyBytes]⟩) := by
  simp [cbcSetup, h, ask_answer _ _ hf]

/-- The checks pass exactly when the key size, the alignment and the IV length are right (R83). -/
theorem cbcCheck_eq_none {len : Nat} {S : Snapshot} (hk : S.keyLen.toNat ∈ S.cfg.keySizes)
    (ha : len % S.cfg.blockSize = 0) (hv : S.ivLen.toNat = S.cfg.blockSize) : cbcCheck len S = none := by
  simp [cbcCheck, hk, ha, hv]

/-- What a passed check says (R83). -/
theorem cbcCheck_none {len : Nat} {S : Snapshot} (h : cbcCheck len S = none) :
    S.keyLen.toNat ∈ S.cfg.keySizes ∧ len % S.cfg.blockSize = 0 ∧ S.ivLen.toNat = S.cfg.blockSize := by
  unfold cbcCheck at h
  split at h; · cases h
  split at h; · cases h
  split at h; · cases h
  rename_i h1 h2 h3
  exact ⟨not_not.1 h1, not_not.1 h2, not_not.1 h3⟩

/-- Each failing check, where the ones before it pass (R83). -/
theorem cbcCheck_keySize {len : Nat} {S : Snapshot} (hk : S.keyLen.toNat ∉ S.cfg.keySizes) :
    cbcCheck len S = some ⟨.invalidInput, .cbc, .keySize, S.keyLen, 0#32⟩ := if_pos hk

theorem cbcCheck_misaligned {len : Nat} {S : Snapshot} (hk : S.keyLen.toNat ∈ S.cfg.keySizes)
    (ha : len % S.cfg.blockSize ≠ 0) :
    cbcCheck len S = some ⟨.invalidInput, .cbc, .dataMisaligned, wordOf len, wordOf S.cfg.blockSize⟩ := by
  rw [cbcCheck, if_neg (not_not.2 hk), if_pos ha]

theorem cbcCheck_ivLen {len : Nat} {S : Snapshot} (hk : S.keyLen.toNat ∈ S.cfg.keySizes)
    (ha : len % S.cfg.blockSize = 0) (hv : S.ivLen.toNat ≠ S.cfg.blockSize) :
    cbcCheck len S = some ⟨.invalidInput, .cbc, .ivLen, S.ivLen, wordOf S.cfg.blockSize⟩ := by
  rw [cbcCheck, if_neg (not_not.2 hk), if_neg (not_not.2 ha), if_pos hv]

/-! ### Blocks of a sequence -/

@[simp] theorem blocks_length (B n : Nat) (d : Bytes) : (blocks B n d).length = n := by
  induction n generalizing d with
  | zero => rfl
  | succ n ih => simp [blocks, ih]

/-- Block `i` of the list is block `i` of the sequence (00_scope.md R8). -/
theorem blocks_getD (B n : Nat) (d : Bytes) {i : Nat} (hi : i < n) : (blocks B n d).getD i [] = blockOf B d i := by
  induction n generalizing d i with
  | zero => omega
  | succ n ih =>
    cases i with
    | zero => simp [blocks, blockOf]
    | succ i =>
      have := ih (d.drop B) (i := i) (by omega)
      simp only [blocks, List.getD_cons_succ, this, blockOf, List.drop_drop]
      rw [show B + i * B = (i + 1) * B by ring]

/-- Every block of a sequence of `n` whole blocks has `B` bytes. -/
theorem blockOf_length {B : Nat} {d : Bytes} {n i : Nat} (hd : d.length = n * B) (hi : i < n) :
    (blockOf B d i).length = B := by
  have h1 : (i + 1) * B ≤ n * B := Nat.mul_le_mul_right B hi
  have h2 : (i + 1) * B = i * B + B := by ring
  simp only [blockOf, List.length_take, List.length_drop]
  omega

/-- The blocks of a sequence of `n` whole blocks make it up. -/
theorem blocks_flatten {B n : Nat} {d : Bytes} (hd : d.length = n * B) : (blocks B n d).flatten = d := by
  induction n generalizing d with
  | zero =>
    have : d = [] := List.length_eq_zero_iff.1 (by simpa using hd)
    simp [blocks, this]
  | succ n ih =>
    have h2 : (n + 1) * B = n * B + B := by ring
    simp [blocks, ih (d := d.drop B) (by simp; omega)]

/-- Block `i` of a sequence made up of blocks of `B` bytes. -/
theorem blockOf_flatten {B : Nat} {l : List Bytes} (hl : ∀ x, x ∈ l → x.length = B) {i : Nat} (hi : i < l.length) :
    blockOf B l.flatten i = l.getD i [] := by
  induction l generalizing i with
  | nil => simp at hi
  | cons x l ih =>
    have hx := hl x (List.mem_cons_self ..)
    cases i with
    | zero => simp [blockOf, ← hx]
    | succ i =>
      rw [List.getD_cons_succ, ← ih (fun y hy => hl y (List.mem_cons_of_mem _ hy)) (by simpa using hi)]
      simp only [blockOf, List.flatten_cons]
      rw [show (i + 1) * B = x.length + i * B by rw [hx]; ring, List.drop_length_add_append]

/-- The length of a sequence made up of blocks of `B` bytes. -/
theorem flatten_length {B : Nat} {l : List Bytes} (hl : ∀ x, x ∈ l → x.length = B) : l.flatten.length = l.length * B := by
  induction l with
  | nil => simp
  | cons x l ih =>
    simp [hl x (List.mem_cons_self ..), ih fun y hy => hl y (List.mem_cons_of_mem _ hy)]
    ring

/-- The first `n` blocks of a sequence made up of blocks of `B` bytes. -/
theorem flatten_take {B : Nat} {l : List Bytes} (hl : ∀ x, x ∈ l → x.length = B) (n : Nat) :
    (l.take n).flatten = l.flatten.take (n * B) := by
  induction l generalizing n with
  | nil => simp
  | cons x l ih =>
    cases n with
    | zero => simp
    | succ n =>
      have hx := hl x (List.mem_cons_self ..)
      have h2 : (n + 1) * B = x.length + n * B := by rw [hx]; ring
      rw [List.take_succ_cons, List.flatten_cons, ih (fun y hy => hl y (List.mem_cons_of_mem _ hy)), List.flatten_cons,
        h2, List.take_length_add_append]

@[simp] theorem xorBlock_length (x y : Bytes) : (xorBlock x y).length = min x.length y.length := by simp [xorBlock]

/-- XOR with the same block twice is the identity (41_cbc.md R80). -/
theorem xorBlock_cancel (x y : Bytes) (h : x.length = y.length) : xorBlock (xorBlock x y) y = x := by
  induction x generalizing y with
  | nil => simp [xorBlock]
  | cons a x ih =>
    cases y with
    | nil => simp at h
    | cons b y =>
      have := ih y (by simpa using h)
      simp only [xorBlock, List.zipWith_cons_cons] at this ⊢
      rw [this, BitVec.xor_assoc, BitVec.xor_self, BitVec.xor_zero]

/-! ### The primitive's answers -/

/-- The answers of a configuration's primitive have the block's length (41_cbc.md R81). -/
theorem primOf_length {c : Config} (hc : c.wf = true) (k x : Bytes) (hx : x.length = c.blockSize) :
    ((primOf c).enc k x).length = c.blockSize ∧ ((primOf c).dec k x).length = c.blockSize := by
  unfold primOf
  cases hp : c.prim with
  | external => simp [externalPrim, hx]
  | toy4 => simp [toy4Prim, ((Config.wf_facts hc).2.2.2.2.2.2.2 hp).1]

/-- Whether the first `n` draws hold a fault, and which is the first. -/
theorem exists_first_fault (draw : Nat → Bool) (n : Nat) :
    (∀ m, m < n → draw m = false) ∨ ∃ m, m < n ∧ draw m = true ∧ ∀ m', m' < m → draw m' = false := by
  induction n with
  | zero => exact .inl fun m h => by omega
  | succ n ih =>
    rcases ih with h | ⟨m, hm, h⟩
    · cases hn : draw n with
      | false => exact .inl fun m hm => by rcases Nat.lt_succ_iff_lt_or_eq.1 hm with hm | rfl; exacts [h m hm, hn]
      | true => exact .inr ⟨n, by omega, hn, h⟩
    · exact .inr ⟨m, by omega, h⟩

end Sys2Proof.Machine
end

