-- ==== Sys2Proof/Laws/Padding.lean ====
section
/-! SUPPORT. What the Padding Codec's functions do: the padding length's bounds, the shape of a padded sequence, the scan's
verdict under each mode, and UnpadOp in one formula for both modes (40_padding.md R70, R73, R75). -/

namespace Sys2Proof.Machine

/-! ### Pad -/

/-- The padding length lies in `[1, n]` and fills up to a multiple of `n` (R70). -/
theorem padLength_bounds (len : Nat) {n : Nat} (h : 1 ≤ n) :
    1 ≤ padLength len n ∧ padLength len n ≤ n ∧ (len + padLength len n) % n = 0 := by
  have := Nat.mod_lt len (show 0 < n by omega)
  have h3 := Nat.div_add_mod len n
  refine ⟨by unfold padLength; omega, by unfold padLength; omega, ?_⟩
  rw [show len + padLength len n = n * (len / n) + n by unfold padLength; omega]
  simp

@[simp] theorem pad_length (d : Bytes) (n : Nat) : (pad d n).length = d.length + padLength d.length n := by simp [pad]

/-- The padding length fits one byte (R70). -/
theorem ofNat_padLength_toNat (len : Nat) {n : Nat} (h : 1 ≤ n) (h' : n ≤ 255) :
    (BitVec.ofNat 8 (padLength len n)).toNat = padLength len n := by
  have := (padLength_bounds len h).2.1
  simp only [BitVec.toNat_ofNat]
  omega

/-- The last byte of a padded sequence is its padding length (R70). -/
theorem lastByte_pad (d : Bytes) {n : Nat} (h : 1 ≤ n) : lastByte (pad d n) = BitVec.ofNat 8 (padLength d.length n) := by
  obtain ⟨p, hp⟩ : ∃ p, padLength d.length n = p + 1 :=
    ⟨padLength d.length n - 1, by have := (padLength_bounds d.length h).1; omega⟩
  simp [pad, hp, List.replicate_succ', lastByte, List.getLastD_eq_getLast?, List.getLast?_append]

/-- The claimed padding region of a padded sequence is what Pad appended (R70). -/
theorem lastBytes_pad (d : Bytes) (n : Nat) :
    lastBytes (pad d n) (padLength d.length n) =
      List.replicate (padLength d.length n) (BitVec.ofNat 8 (padLength d.length n)) := by
  simp [lastBytes, pad]

/-- Every byte of a sequence equals `p` exactly when it is that many copies of `p`. -/
theorem allEqual_iff (l : Bytes) (p : Byte) : allEqual l p ↔ l = List.replicate l.length p := by
  rw [List.eq_replicate_iff]; simp [allEqual]

/-! ### The scans -/

/-- The early-exit scan's verdict (R75). -/
theorem scanEarlyExit_fst (p : Byte) (l : Bytes) : (scanEarlyExit p l).1 = true ↔ allEqual l p := by
  induction l with
  | nil => simp [scanEarlyExit, allEqual]
  | cons b l ih =>
    simp only [scanEarlyExit]
    split <;> simp_all [allEqual]

/-- The constant-time scan visits every byte it is given (R75). -/
@[simp] theorem scanConstantTime_snd (p : Byte) (l : Bytes) (ok : Bool) : (scanConstantTime p l ok).2 = l.length := by
  induction l generalizing ok with
  | nil => rfl
  | cons b l ih => simp [scanConstantTime, ih]

/-- The constant-time scan's verdict is about the last `p` bytes only (R75). -/
theorem scanConstantTime_fst (p : Byte) (l : Bytes) (ok : Bool) :
    (scanConstantTime p l ok).1 = true ↔ ok = true ∧ allEqual (lastBytes l p.toNat) p := by
  induction l generalizing ok with
  | nil => simp [scanConstantTime, allEqual]
  | cons b l ih =>
    simp only [scanConstantTime, ih, Bool.and_eq_true, Bool.or_eq_true, decide_eq_true_eq, beq_iff_eq, lastBytes,
      List.length_cons]
    by_cases hp : p.toNat < l.length + 1
    · rw [show l.length + 1 - p.toNat = (l.length - p.toNat) + 1 by omega]
      simp [hp]
    · rw [show l.length + 1 - p.toNat = 0 by omega, show l.length - p.toNat = 0 by omega]
      simp [hp, allEqual, and_assoc]

/-- Either scan's verdict is the `AllEqual` of the claimed region (R75). -/
theorem scanPadding_fst (mode : ScanMode) {d : Bytes} {n : Nat} {p : Byte} (hp : p.toNat ≤ n) (hn : n ≤ d.length) :
    (scanPadding mode d n p).1 = true ↔ allEqual (lastBytes d p.toNat) p := by
  cases mode with
  | earlyExit => exact scanEarlyExit_fst _ _
  | constantTime =>
    simp only [scanPadding, scanConstantTime_fst, true_and, List.drop_drop, List.length_drop, lastBytes]
    rw [show d.length - n + (d.length - (d.length - n) - p.toNat) = d.length - p.toNat by omega]

/-! ### Unpad -/

/-- A non-empty whole number of blocks holds at least one (R74). -/
theorem le_of_unpadLen_ok {len n : Nat} (h : ¬(len = 0 ∨ len % n ≠ 0)) : n ≤ len := by
  push Not at h
  exact Nat.le_of_dvd (Nat.pos_of_ne_zero h.1) (Nat.dvd_of_mod_eq_zero h.2)

/-- UnpadOp's result, in terms of the claimed region, whatever the scan mode (R73, R75). -/
theorem unpadOp_fst (mode : ScanMode) (d : Bytes) (n : Nat) (stage : Stage) :
    (unpadOp mode d n stage).1 =
      if badBlockLen n then .error (blockLenError n stage)
      else if d.length = 0 ∨ d.length % n ≠ 0 then .error (unpadError .unpadLen d.length n stage)
      else if (lastByte d).toNat = 0 ∨ n < (lastByte d).toNat then .error (unpadError .padLenValue d.length n stage)
      else if ¬allEqual (lastBytes d (lastByte d).toNat) (lastByte d) then
        .error (unpadError .padByteMismatch d.length n stage)
      else .ok (d.take (d.length - (lastByte d).toNat)) := by
  unfold unpadOp
  simp only [getD_pred_length]
  by_cases h1 : badBlockLen n
  · rw [if_pos h1, if_pos h1]
  rw [if_neg h1, if_neg h1]
  by_cases h2 : d.length = 0 ∨ d.length % n ≠ 0
  · rw [if_pos h2, if_pos h2]
  rw [if_neg h2, if_neg h2]
  by_cases h3 : (lastByte d).toNat = 0 ∨ n < (lastByte d).toNat
  · rw [if_pos h3, if_pos h3]
  rw [if_neg h3, if_neg h3]
  have hs := scanPadding_fst mode (p := lastByte d) (Nat.not_lt.1 fun h => h3 (.inr h)) (le_of_unpadLen_ok h2)
  by_cases h4 : allEqual (lastBytes d (lastByte d).toNat) (lastByte d)
  · rw [if_pos (hs.2 h4), if_neg (not_not.2 h4)]
  · rw [if_neg (fun h => h4 (hs.1 h)), if_pos h4]

/-! ### The two commands' bodies -/

/-- PAD's body: PadOp on the data, no request (R72). -/
theorem run_pad {s : State} (h : s.inLen.toNat ≤ s.cfg.bufMax) :
    (runBody padBody s).1 = padOp s.inData s.blockLen.toNat .pad ∧ (runBody padBody s).2.sent = [] := by
  rw [runBody_of_inLen_le _ h]
  simp [padBody, snapshot_data h]

/-- UNPAD's body: UnpadOp on the data, no request (R76). -/
theorem run_unpad {s : State} (h : s.inLen.toNat ≤ s.cfg.bufMax) :
    (runBody unpadBody s).1 = (unpadOp s.cfg.scanMode s.inData s.blockLen.toNat .unpad).1 ∧
      (runBody unpadBody s).2.sent = [] := by
  rw [runBody_of_inLen_le _ h]
  simp [unpadBody, snapshot_data h]

end Sys2Proof.Machine
end

