-- ==== Sys2Proof/Laws/CbcTransform.lean ====
section
/-! SUPPORT. One lemma per outcome of CbcEncrypt and CbcDecrypt: a failing check, a first fault, and the whole run, with
the result by its recurrence and the requests by index (41_cbc.md R83 to R86). -/

namespace Sys2Proof.Machine

/-- The encrypt loop's output on the whole blocks of `d`, as one sequence (R84). -/
def cipherOf (P : Prim) (B : Nat) (k iv d : Bytes) : Bytes := (encBlocks P k iv (blocks B (d.length / B) d)).flatten

/-- The decrypt loop's output on the whole blocks of `d`, as one sequence (R85). -/
def plainOf (P : Prim) (B : Nat) (k iv d : Bytes) : Bytes := (decBlocks P k iv (blocks B (d.length / B) d)).flatten

/-- The primitive answers blocks of `B` bytes for blocks of `B` bytes under the key `k` (R81). -/
def Prim.keepsLength (P : Prim) (B : Nat) (k : Bytes) : Prop :=
  ∀ x : Bytes, x.length = B → (P.enc k x).length = B ∧ (P.dec k x).length = B

theorem primOf_keepsLength {c : Config} (hc : c.wf = true) (k : Bytes) : (primOf c).keepsLength c.blockSize k :=
  fun x hx => primOf_length hc k x hx

/-! ### Every block has `B` bytes -/

theorem length_of_mem_blocks {B n : Nat} {d : Bytes} (hd : d.length = n * B) {x : Bytes} (hx : x ∈ blocks B n d) :
    x.length = B := by
  obtain ⟨i, hi, rfl⟩ := List.getElem_of_mem hx
  rw [blocks_length] at hi
  have h := blocks_getD B n d hi
  rw [List.getD_eq_getElem _ _ (by simpa using hi)] at h
  rw [h]
  exact blockOf_length hd hi

theorem length_of_mem_encBlocks {P : Prim} {B : Nat} {k : Bytes} (hP : P.keepsLength B k) {ds : List Bytes}
    (hds : ∀ x, x ∈ ds → x.length = B) {c : Bytes} (hc : c.length = B) {x : Bytes} (hx : x ∈ encBlocks P k c ds) :
    x.length = B := by
  induction ds generalizing c with
  | nil => simp [encBlocks] at hx
  | cons d ds ih =>
    have h0 : (P.enc k (xorBlock d c)).length = B :=
      (hP _ (by simp [hds d (List.mem_cons_self ..), hc])).1
    rcases List.mem_cons.1 hx with rfl | hx
    · exact h0
    · exact ih (fun y hy => hds y (List.mem_cons_of_mem _ hy)) h0 hx

theorem length_of_mem_decBlocks {P : Prim} {B : Nat} {k : Bytes} (hP : P.keepsLength B k) {ds : List Bytes}
    (hds : ∀ x, x ∈ ds → x.length = B) {c : Bytes} (hc : c.length = B) {x : Bytes} (hx : x ∈ decBlocks P k c ds) :
    x.length = B := by
  induction ds generalizing c with
  | nil => simp [decBlocks] at hx
  | cons d ds ih =>
    have hd := hds d (List.mem_cons_self ..)
    rcases List.mem_cons.1 hx with rfl | hx
    · simp [(hP d hd).2, hc]
    · exact ih (fun y hy => hds y (List.mem_cons_of_mem _ hy)) hd hx

/-- The value in CHAIN before block `i`, read off the sequence of fed-back blocks (R84, R85). -/
theorem chainAt_eq_chainBefore {B : Nat} {l : List Bytes} (hl : ∀ x, x ∈ l → x.length = B) (iv : Bytes) {i : Nat}
    (hi : i ≤ l.length) : chainAt iv l i = chainBefore B iv l.flatten i := by
  cases i with
  | zero => rfl
  | succ i => simp only [chainAt, chainBefore, blockOf_flatten hl (show i < l.length by omega)]

/-! ### The results by their recurrences -/

theorem isCbcEncryption_cipherOf {P : Prim} {B : Nat} {k iv d : Bytes} (hP : P.keepsLength B k) (hiv : iv.length = B)
    (hd : d.length % B = 0) : IsCbcEncryption P B k iv d (cipherOf P B k iv d) := by
  have hN : d.length = d.length / B * B := (Nat.div_mul_cancel (Nat.dvd_of_mod_eq_zero hd)).symm
  have hin : ∀ x, x ∈ blocks B (d.length / B) d → x.length = B := fun x hx => length_of_mem_blocks hN hx
  have hout : ∀ x, x ∈ encBlocks P k iv (blocks B (d.length / B) d) → x.length = B :=
    fun x hx => length_of_mem_encBlocks hP hin hiv hx
  refine ⟨?_, fun i hi => ?_⟩
  · rw [cipherOf, flatten_length hout, encBlocks_length, blocks_length, ← hN]
  · rw [cipherOf, blockOf_flatten hout (by simpa using hi), encBlocks_getD _ _ _ _ (by simpa using hi),
      blocks_getD _ _ _ hi, chainAt_eq_chainBefore hout _ (by simpa using Nat.le_of_lt hi)]

theorem isCbcDecryption_plainOf {P : Prim} {B : Nat} {k iv d : Bytes} (hP : P.keepsLength B k) (hiv : iv.length = B)
    (hd : d.length % B = 0) : IsCbcDecryption P B k iv d (plainOf P B k iv d) := by
  have hN : d.length = d.length / B * B := (Nat.div_mul_cancel (Nat.dvd_of_mod_eq_zero hd)).symm
  have hin : ∀ x, x ∈ blocks B (d.length / B) d → x.length = B := fun x hx => length_of_mem_blocks hN hx
  have hout : ∀ x, x ∈ decBlocks P k iv (blocks B (d.length / B) d) → x.length = B :=
    fun x hx => length_of_mem_decBlocks hP hin hiv hx
  refine ⟨?_, fun i hi => ?_⟩
  · rw [plainOf, flatten_length hout, decBlocks_length, blocks_length, ← hN]
  · rw [plainOf, blockOf_flatten hout (by simpa using hi), decBlocks_getD _ _ _ _ (by simpa using hi),
      blocks_getD _ _ _ hi, chainAt_eq_chainBefore hin _ (by simpa using Nat.le_of_lt hi), blocks_flatten hN]

/-- Two sequences of `n` whole blocks with the same blocks are equal (00_scope.md R8). -/
theorem eq_of_blockOf {B n : Nat} {x y : Bytes} (hx : x.length = n * B) (hy : y.length = n * B)
    (h : ∀ i, i < n → blockOf B x i = blockOf B y i) : x = y := by
  rw [← blocks_flatten hx, ← blocks_flatten hy]
  congr 1
  apply List.ext_getElem (by simp)
  intro i hi _
  rw [blocks_length] at hi
  have h1 := blocks_getD B n x hi
  have h2 := blocks_getD B n y hi
  rw [List.getD_eq_getElem _ _ (by simpa using hi)] at h1 h2
  rw [h1, h2, h i hi]

/-- The CBC decryption of whole blocks is unique (R85). -/
theorem IsCbcDecryption.eq {P : Prim} {B : Nat} {k iv d p p' : Bytes} (hd : d.length % B = 0)
    (h : IsCbcDecryption P B k iv d p) (h' : IsCbcDecryption P B k iv d p') : p = p' := by
  have hN : d.length = d.length / B * B := (Nat.div_mul_cancel (Nat.dvd_of_mod_eq_zero hd)).symm
  exact eq_of_blockOf (h.length.trans hN) (h'.length.trans hN) fun i hi => (h.block i hi).trans (h'.block i hi).symm

/-! ### The requests by index -/

/-- Every request of a CBC encryption that no fault stops (R86). -/
def encryptRequests (P : Prim) (B : Nat) (k iv d : Bytes) : List Request := encRequestsOf B k iv d (cipherOf P B k iv d)

@[simp] theorem encryptRequests_length (P : Prim) (B : Nat) (k iv d : Bytes) :
    (encryptRequests P B k iv d).length = d.length / B + 1 := by simp [encryptRequests, encRequestsOf]

@[simp] theorem decRequestsOf_length (B : Nat) (k d : Bytes) :
    (decRequestsOf B k d).length = d.length / B + 1 := by simp [decRequestsOf]

theorem encRequests_eq {P : Prim} {B : Nat} {k iv d : Bytes} (hP : P.keepsLength B k) (hiv : iv.length = B)
    (hd : d.length % B = 0) :
    encRequests P k iv (blocks B (d.length / B) d) = (encryptRequests P B k iv d).tail := by
  have hN : d.length = d.length / B * B := (Nat.div_mul_cancel (Nat.dvd_of_mod_eq_zero hd)).symm
  have hout : ∀ x, x ∈ encBlocks P k iv (blocks B (d.length / B) d) → x.length = B := fun x hx =>
    length_of_mem_encBlocks hP (fun y hy => length_of_mem_blocks hN hy) hiv hx
  apply List.ext_getElem?
  intro i
  by_cases hi : i < d.length / B
  · rw [encRequests_getElem? _ _ _ _ (by simpa using hi), blocks_getD _ _ _ hi,
      chainAt_eq_chainBefore hout _ (by simpa using Nat.le_of_lt hi)]
    simp [encryptRequests, encRequestsOf, hi, cipherOf]
  · rw [List.getElem?_eq_none (by simpa using hi), List.getElem?_eq_none (by simpa using hi)]

theorem decRequests_eq (B : Nat) (k d : Bytes) :
    (blocks B (d.length / B) d).map (Request.dec k) = (decRequestsOf B k d).tail := by
  apply List.ext_getElem?
  intro i
  by_cases hi : i < d.length / B
  · have := blocks_getD B (d.length / B) d hi
    rw [List.getD_eq_getElem _ _ (by simpa using hi)] at this
    simp [decRequestsOf, hi, this]
  · rw [List.getElem?_eq_none (by simpa using hi), List.getElem?_eq_none (by simpa using hi)]

/-! ### The transforms -/

/-- A failing check: its error, and no request (R83). -/
theorem cbcEncrypt_rejected (P : Prim) (draw : Nat → Bool) {S : Snapshot} {d : Bytes} (e : Engine) {err : ErrorRec}
    (h : cbcCheck d.length S = some err) : cbcEncrypt P draw S d e = (.error err, e) := by
  simp [cbcEncrypt, cbcSetup_rejected draw e h]

theorem cbcDecrypt_rejected (P : Prim) (draw : Nat → Bool) {S : Snapshot} {d : Bytes} (e : Engine) {err : ErrorRec}
    (h : cbcCheck d.length S = some err) : cbcDecrypt P draw S d e = (.error err, e) := by
  simp [cbcDecrypt, cbcSetup_rejected draw e h]

/-- A whole encryption, with no fault (R84, R86). -/
theorem cbcEncrypt_answered {P : Prim} {draw : Nat → Bool} {S : Snapshot} {d : Bytes} {q : Seq}
    (h : cbcCheck d.length S = none) (hP : P.keepsLength S.cfg.blockSize S.keyBytes)
    (hiv : S.ivBlock.length = S.cfg.blockSize) (hd : d.length % S.cfg.blockSize = 0)
    (hf : ∀ m, m ≤ d.length / S.cfg.blockSize → draw m = false) :
    (cbcEncrypt P draw S d ⟨q, []⟩).1 = .ok (cipherOf P S.cfg.blockSize S.keyBytes S.ivBlock d) ∧
      (cbcEncrypt P draw S d ⟨q, []⟩).2.sent = encryptRequests P S.cfg.blockSize S.keyBytes S.ivBlock d := by
  have h0 := hf 0 (Nat.zero_le _)
  simp only [cbcEncrypt, cbcSetup_answer (e := ⟨q, []⟩) h h0]
  obtain ⟨h1, h2⟩ := encLoop_answered P draw S.keyBytes (blocks S.cfg.blockSize (d.length / S.cfg.blockSize) d)
    ⟨⟨S.ivBlock, [], some S.keyBytes, 0, q.scanIndex, none⟩, [.setup S.keyBytes]⟩ (fun j hj => by
      rw [blocks_length] at hj
      exact hf _ (by simp only [List.length_singleton]; omega))
  refine ⟨by simpa [cipherOf] using h1, ?_⟩
  rw [encRequests_eq hP hiv hd] at h2
  simpa [encryptRequests, encRequestsOf] using h2

/-- A whole decryption, with no fault (R85, R86). -/
theorem cbcDecrypt_answered {P : Prim} {draw : Nat → Bool} {S : Snapshot} {d : Bytes} {q : Seq}
    (h : cbcCheck d.length S = none) (hf : ∀ m, m ≤ d.length / S.cfg.blockSize → draw m = false) :
    (cbcDecrypt P draw S d ⟨q, []⟩).1 = .ok (plainOf P S.cfg.blockSize S.keyBytes S.ivBlock d) ∧
      (cbcDecrypt P draw S d ⟨q, []⟩).2.sent = decRequestsOf S.cfg.blockSize S.keyBytes d := by
  have h0 := hf 0 (Nat.zero_le _)
  simp only [cbcDecrypt, cbcSetup_answer (e := ⟨q, []⟩) h h0]
  obtain ⟨h1, h2⟩ := decLoop_answered P draw S.keyBytes (blocks S.cfg.blockSize (d.length / S.cfg.blockSize) d)
    ⟨⟨S.ivBlock, [], some S.keyBytes, 0, q.scanIndex, none⟩, [.setup S.keyBytes]⟩ (fun j hj => by
      rw [blocks_length] at hj
      exact hf _ (by simp only [List.length_singleton]; omega))
  refine ⟨by simpa [plainOf] using h1, ?_⟩
  rw [decRequests_eq] at h2
  simpa [decRequestsOf] using h2

/-- An encryption whose first fault is request `m`: PRIM_FAULT with that request's info value, and nothing sent after it
(R84, R86). -/
theorem cbcEncrypt_fault {P : Prim} {draw : Nat → Bool} {S : Snapshot} {d : Bytes} {q : Seq} {m : Nat}
    (h : cbcCheck d.length S = none) (hP : P.keepsLength S.cfg.blockSize S.keyBytes)
    (hiv : S.ivBlock.length = S.cfg.blockSize) (hd : d.length % S.cfg.blockSize = 0)
    (hm : m ≤ d.length / S.cfg.blockSize) (hf : draw m = true) (hn : ∀ m', m' < m → draw m' = false) :
    (cbcEncrypt P draw S d ⟨q, []⟩).1 = .error (primFaultError (faultInfo m)) ∧
      (cbcEncrypt P draw S d ⟨q, []⟩).2.sent =
        (encryptRequests P S.cfg.blockSize S.keyBytes S.ivBlock d).take (m + 1) := by
  cases m with
  | zero =>
    simp only [cbcEncrypt, cbcSetup_fault (e := ⟨q, []⟩) h hf]
    exact ⟨rfl, by simp [encryptRequests, encRequestsOf]⟩
  | succ m =>
    simp only [cbcEncrypt, cbcSetup_answer (e := ⟨q, []⟩) h (hn 0 (by omega))]
    obtain ⟨h1, h2, -⟩ := encLoop_fault P draw S.keyBytes (blocks S.cfg.blockSize (d.length / S.cfg.blockSize) d)
      ⟨⟨S.ivBlock, [], some S.keyBytes, 0, q.scanIndex, none⟩, [.setup S.keyBytes]⟩ (j := m)
      (by simpa using hm) (by simpa [Nat.add_comm] using hf)
      (fun j' hj' => hn _ (by simp only [List.length_singleton]; omega))
    refine ⟨by simpa [faultInfo] using h1, ?_⟩
    rw [encRequests_eq hP hiv hd] at h2
    simpa [encryptRequests, encRequestsOf] using h2

/-- A decryption whose first fault is request `m` (R85, R86). -/
theorem cbcDecrypt_fault {P : Prim} {draw : Nat → Bool} {S : Snapshot} {d : Bytes} {q : Seq} {m : Nat}
    (h : cbcCheck d.length S = none) (hm : m ≤ d.length / S.cfg.blockSize) (hf : draw m = true)
    (hn : ∀ m', m' < m → draw m' = false) :
    (cbcDecrypt P draw S d ⟨q, []⟩).1 = .error (primFaultError (faultInfo m)) ∧
      (cbcDecrypt P draw S d ⟨q, []⟩).2.sent = (decRequestsOf S.cfg.blockSize S.keyBytes d).take (m + 1) := by
  cases m with
  | zero =>
    simp only [cbcDecrypt, cbcSetup_fault (e := ⟨q, []⟩) h hf]
    exact ⟨rfl, by simp [decRequestsOf]⟩
  | succ m =>
    simp only [cbcDecrypt, cbcSetup_answer (e := ⟨q, []⟩) h (hn 0 (by omega))]
    obtain ⟨h1, h2, -⟩ := decLoop_fault P draw S.keyBytes (blocks S.cfg.blockSize (d.length / S.cfg.blockSize) d)
      ⟨⟨S.ivBlock, [], some S.keyBytes, 0, q.scanIndex, none⟩, [.setup S.keyBytes]⟩ (j := m)
      (by simpa using hm) (by simpa [Nat.add_comm] using hf)
      (fun j' hj' => hn _ (by simp only [List.length_singleton]; omega))
    refine ⟨by simpa [faultInfo] using h1, ?_⟩
    rw [decRequests_eq] at h2
    simpa [decRequestsOf] using h2

/-- Everything CbcEncrypt can do: fail a check, meet a first fault, or run to the end (R83, R84, R86). -/
theorem cbcEncrypt_cases {P : Prim} {draw : Nat → Bool} {S : Snapshot} {d : Bytes} {q : Seq}
    (hP : P.keepsLength S.cfg.blockSize S.keyBytes) (hiv : S.ivBlock.length = S.cfg.blockSize) :
    (∃ err, cbcCheck d.length S = some err ∧ (cbcEncrypt P draw S d ⟨q, []⟩).1 = .error err ∧
        (cbcEncrypt P draw S d ⟨q, []⟩).2.sent = []) ∨
      (cbcCheck d.length S = none ∧ ∃ m, m ≤ d.length / S.cfg.blockSize ∧ draw m = true ∧
        (∀ m', m' < m → draw m' = false) ∧
        (cbcEncrypt P draw S d ⟨q, []⟩).1 = .error (primFaultError (faultInfo m)) ∧
        (cbcEncrypt P draw S d ⟨q, []⟩).2.sent =
          (encryptRequests P S.cfg.blockSize S.keyBytes S.ivBlock d).take (m + 1)) ∨
      (cbcCheck d.length S = none ∧ (∀ m, m ≤ d.length / S.cfg.blockSize → draw m = false) ∧
        (cbcEncrypt P draw S d ⟨q, []⟩).1 = .ok (cipherOf P S.cfg.blockSize S.keyBytes S.ivBlock d) ∧
        (cbcEncrypt P draw S d ⟨q, []⟩).2.sent = encryptRequests P S.cfg.blockSize S.keyBytes S.ivBlock d) := by
  cases h : cbcCheck d.length S with
  | some err => exact .inl ⟨err, rfl, by rw [cbcEncrypt_rejected _ _ _ h], by rw [cbcEncrypt_rejected _ _ _ h]⟩
  | none =>
    refine .inr ?_
    have hd := (cbcCheck_none h).2.1
    rcases exists_first_fault draw (d.length / S.cfg.blockSize + 1) with hf | ⟨m, hm, hf, hn⟩
    · have hf' : ∀ m, m ≤ d.length / S.cfg.blockSize → draw m = false := fun m hm => hf m (by omega)
      obtain ⟨h1, h2⟩ := cbcEncrypt_answered (q := q) h hP hiv hd hf'
      exact .inr ⟨rfl, hf', h1, h2⟩
    · obtain ⟨h1, h2⟩ := cbcEncrypt_fault (q := q) h hP hiv hd (by omega : m ≤ _) hf hn
      exact .inl ⟨rfl, m, by omega, hf, hn, h1, h2⟩

/-- Everything CbcDecrypt can do (R83, R85, R86). -/
theorem cbcDecrypt_cases {P : Prim} {draw : Nat → Bool} {S : Snapshot} {d : Bytes} {q : Seq} :
    (∃ err, cbcCheck d.length S = some err ∧ (cbcDecrypt P draw S d ⟨q, []⟩).1 = .error err ∧
        (cbcDecrypt P draw S d ⟨q, []⟩).2.sent = []) ∨
      (cbcCheck d.length S = none ∧ ∃ m, m ≤ d.length / S.cfg.blockSize ∧ draw m = true ∧
        (∀ m', m' < m → draw m' = false) ∧
        (cbcDecrypt P draw S d ⟨q, []⟩).1 = .error (primFaultError (faultInfo m)) ∧
        (cbcDecrypt P draw S d ⟨q, []⟩).2.sent = (decRequestsOf S.cfg.blockSize S.keyBytes d).take (m + 1)) ∨
      (cbcCheck d.length S = none ∧ (∀ m, m ≤ d.length / S.cfg.blockSize → draw m = false) ∧
        (cbcDecrypt P draw S d ⟨q, []⟩).1 = .ok (plainOf P S.cfg.blockSize S.keyBytes S.ivBlock d) ∧
        (cbcDecrypt P draw S d ⟨q, []⟩).2.sent = decRequestsOf S.cfg.blockSize S.keyBytes d) := by
  cases h : cbcCheck d.length S with
  | some err => exact .inl ⟨err, rfl, by rw [cbcDecrypt_rejected _ _ _ h], by rw [cbcDecrypt_rejected _ _ _ h]⟩
  | none =>
    refine .inr ?_
    rcases exists_first_fault draw (d.length / S.cfg.blockSize + 1) with hf | ⟨m, hm, hf, hn⟩
    · have hf' : ∀ m, m ≤ d.length / S.cfg.blockSize → draw m = false := fun m hm => hf m (by omega)
      obtain ⟨h1, h2⟩ := cbcDecrypt_answered (P := P) (q := q) h hf'
      exact .inr ⟨rfl, hf', h1, h2⟩
    · obtain ⟨h1, h2⟩ := cbcDecrypt_fault (P := P) (q := q) h (by omega : m ≤ _) hf hn
      exact .inl ⟨rfl, m, by omega, hf, hn, h1, h2⟩

/-- The error a check reports stands in its row of the cause table (60_exceptions.md R101). -/
theorem cbcCheck_some_row {len : Nat} {S : Snapshot} {err : ErrorRec} (h : cbcCheck len S = some err) :
    err.kind = err.cause.row.1 ∧ err.stage ∈ err.cause.row.2 ∧ err.cause ≠ .success := by
  unfold cbcCheck at h
  split at h
  · cases h; simp [Cause.row]
  split at h
  · cases h; simp [Cause.row]
  split at h
  · cases h; simp [Cause.row]
  · cases h

/-! ### The commands' bodies -/

/-- The operands of a CBC command as its transform takes them: key and IV in place, blocks in and out (R81, R84). -/
theorem cbc_operands {s : State} (hc : s.cfg.wf = true) (hk : s.keySizeOk) :
    (primOf s.cfg).keepsLength s.cfg.blockSize s.snapshot.keyBytes ∧ s.snapshot.ivBlock.length = s.cfg.blockSize ∧
      s.snapshot.ivBlock = s.ivData ∧ s.snapshot.keyBytes = s.keyData :=
  ⟨primOf_keepsLength hc _, by rw [snapshot_ivBlock hc]; simp, snapshot_ivBlock hc, snapshot_keyBytes hc hk⟩

/-- ENCRYPT's body on data that fits (R87). -/
theorem run_encrypt {s : State} (h : s.inLen.toNat ≤ s.cfg.bufMax) :
    runBody encryptBody s = cbcEncrypt (primOf s.cfg) s.port.draw s.snapshot s.inData ⟨s.seq, []⟩ := by
  rw [runBody_of_inLen_le _ h, ← snapshot_data h]; rfl

/-- DECRYPT's body on data that fits (R88). -/
theorem run_decrypt {s : State} (h : s.inLen.toNat ≤ s.cfg.bufMax) :
    runBody decryptBody s = cbcDecrypt (primOf s.cfg) s.port.draw s.snapshot s.inData ⟨s.seq, []⟩ := by
  rw [runBody_of_inLen_le _ h, ← snapshot_data h]; rfl

/-- ENCRYPT_PADDED's body on data that fits: Pad by BLOCK_SIZE, which cannot fail, then CbcEncrypt (R93). -/
theorem run_encryptPadded {s : State} (hc : s.cfg.wf = true) (h : s.inLen.toNat ≤ s.cfg.bufMax) :
    runBody encryptPaddedBody s =
      cbcEncrypt (primOf s.cfg) s.port.draw s.snapshot (pad s.inData s.cfg.blockSize) ⟨s.seq, []⟩ := by
  have hwf := Config.wf_facts hc
  rw [runBody_of_inLen_le _ h]
  simp only [encryptPaddedBody, snapshot_data h, padOp, snapshot_cfg]
  rw [if_neg (by omega)]

/-- DECRYPT_PADDED's body where CbcDecrypt fails: its error, unchanged (R94, R95). -/
theorem run_decryptPadded_error {s : State} (h : s.inLen.toNat ≤ s.cfg.bufMax) {err : ErrorRec} {e : Engine}
    (hd : cbcDecrypt (primOf s.cfg) s.port.draw s.snapshot s.inData ⟨s.seq, []⟩ = (.error err, e)) :
    runBody decryptPaddedBody s = (.error err, e) := by
  rw [runBody_of_inLen_le _ h]
  simp only [decryptPaddedBody, snapshot_data h, hd]

/-- DECRYPT_PADDED's body where CbcDecrypt succeeds: UnpadOp by BLOCK_SIZE on its result (R94). -/
theorem run_decryptPadded_ok {s : State} (h : s.inLen.toNat ≤ s.cfg.bufMax) {q : Bytes} {e : Engine}
    (hd : cbcDecrypt (primOf s.cfg) s.port.draw s.snapshot s.inData ⟨s.seq, []⟩ = (.ok q, e)) :
    (runBody decryptPaddedBody s).1 = (unpadOp s.cfg.scanMode q s.cfg.blockSize .unpad).1 ∧
      (runBody decryptPaddedBody s).2.sent = e.sent := by
  rw [runBody_of_inLen_le _ h]
  simp [decryptPaddedBody, snapshot_data h, hd]

/-- The padded input is one block more than the whole blocks of the data (40_padding.md R71). -/
theorem padded_blocks (len : Nat) {B : Nat} (h : 1 ≤ B) :
    (len + padLength len B) / B = len / B + 1 ∧ (len + padLength len B) % B = 0 := by
  refine ⟨?_, (padLength_bounds len h).2.2⟩
  have hm := Nat.mod_lt len (show 0 < B by omega)
  have h3 := Nat.div_add_mod len B
  rw [show len + padLength len B = B * (len / B + 1) by rw [Nat.mul_succ]; unfold padLength; omega]
  exact Nat.mul_div_cancel_left _ (by omega)

end Sys2Proof.Machine
end

