-- ==== Sys2Proof/Laws/Results.lean ====
section
/-! SUPPORT. What every command's result is like: it fits OUT, its error stands in a row of the cause table, and it does not
depend on the hidden state the command starts from (10_state.md R32, R35, 60_exceptions.md R101). -/

namespace Sys2Proof.Machine

/-- A result that fits OUT, or an error in a row of the cause table. -/
def CmdResult.fits (c : Config) : CmdResult → Prop
  | .ok r => r.length ≤ c.outMax
  | .error e => e.kind = e.cause.row.1 ∧ e.stage ∈ e.cause.row.2 ∧ e.cause ≠ .success

theorem unpadOp_fits (c : Config) (mode : ScanMode) {d : Bytes} (n : Nat) (hd : d.length ≤ c.bufMax) :
    (unpadOp mode d n .unpad).1.fits c := by
  rw [unpadOp_fst]
  split; · simp [CmdResult.fits, blockLenError, Cause.row]
  split; · simp [CmdResult.fits, unpadError, Cause.row]
  split; · simp [CmdResult.fits, unpadError, Cause.row]
  split; · simp [CmdResult.fits, unpadError, Cause.row]
  simp only [CmdResult.fits, List.length_take, Config.outMax]
  omega

theorem padOp_fits (c : Config) {d : Bytes} (n : Nat) (hd : d.length ≤ c.bufMax) : (padOp d n .pad).fits c := by
  unfold padOp
  split; · simp [CmdResult.fits, blockLenError, Cause.row]
  have := padLength_bounds d.length (n := n) (by omega)
  simp only [CmdResult.fits, pad_length, Config.outMax]
  omega

/-- Every command's result fits OUT, or is an error of the table (10_state.md R32, 60_exceptions.md R101). -/
theorem runBody_fits (i : Instr) {s : State} (hc : s.cfg.wf = true) : (runBody (bodyOf i) s).1.fits s.cfg := by
  by_cases h : s.cfg.bufMax < s.inLen.toNat
  · rw [runBody_of_inLen_gt _ h]; simp [CmdResult.fits, inLenError, Cause.row]
  have h' := Nat.not_lt.1 h
  have hwf := Config.wf_facts hc
  have hP : ∀ k, (primOf s.cfg).keepsLength s.snapshot.cfg.blockSize k := primOf_keepsLength hc
  have hiv : s.snapshot.ivBlock.length = s.snapshot.cfg.blockSize := by rw [snapshot_ivBlock hc]; simp
  have hfault : ∀ m, (CmdResult.error (primFaultError (faultInfo m))).fits s.cfg := fun m => by
    simp [CmdResult.fits, primFaultError, Cause.row]
  cases i with
  | pad => rw [show bodyOf .pad = padBody from rfl, (run_pad h').1]; exact padOp_fits _ _ (by simpa using h')
  | unpad => rw [show bodyOf .unpad = unpadBody from rfl, (run_unpad h').1]; exact unpadOp_fits _ _ _ (by simpa using h')
  | encrypt =>
    rw [show bodyOf .encrypt = encryptBody from rfl, run_encrypt h']
    rcases cbcEncrypt_cases (draw := s.port.draw) (d := s.inData) (q := s.seq) (hP _) hiv with
      ⟨err, hk, h1, -⟩ | ⟨-, m, -, -, -, h1, -⟩ | ⟨hk, -, h1, -⟩
    · rw [h1]; exact cbcCheck_some_row hk
    · rw [h1]; exact hfault m
    · rw [h1]
      simp only [CmdResult.fits, (isCbcEncryption_cipherOf (hP _) hiv (cbcCheck_none hk).2.1).length, inData_length,
        Config.outMax]
      omega
  | decrypt =>
    rw [show bodyOf .decrypt = decryptBody from rfl, run_decrypt h']
    rcases cbcDecrypt_cases (P := primOf s.cfg) (draw := s.port.draw) (S := s.snapshot) (d := s.inData) (q := s.seq) with
      ⟨err, hk, h1, -⟩ | ⟨-, m, -, -, -, h1, -⟩ | ⟨hk, -, h1, -⟩
    · rw [h1]; exact cbcCheck_some_row hk
    · rw [h1]; exact hfault m
    · rw [h1]
      simp only [CmdResult.fits, (isCbcDecryption_plainOf (hP _) hiv (cbcCheck_none hk).2.1).length, inData_length,
        Config.outMax]
      omega
  | encryptPadded =>
    rw [show bodyOf .encryptPadded = encryptPaddedBody from rfl, run_encryptPadded hc h']
    rcases cbcEncrypt_cases (draw := s.port.draw) (d := pad s.inData s.cfg.blockSize) (q := s.seq) (hP _) hiv with
      ⟨err, hk, h1, -⟩ | ⟨-, m, -, -, -, h1, -⟩ | ⟨hk, -, h1, -⟩
    · rw [h1]; exact cbcCheck_some_row hk
    · rw [h1]; exact hfault m
    · rw [h1]
      have := padLength_bounds s.inLen.toNat hwf.1
      simp only [CmdResult.fits, (isCbcEncryption_cipherOf (hP _) hiv (cbcCheck_none hk).2.1).length, pad_length,
        inData_length, Config.outMax]
      omega
  | decryptPadded =>
    rw [show bodyOf .decryptPadded = decryptPaddedBody from rfl]
    rcases cbcDecrypt_cases (P := primOf s.cfg) (draw := s.port.draw) (S := s.snapshot) (d := s.inData) (q := s.seq) with
      ⟨err, hk, h1, -⟩ | ⟨-, m, -, -, -, h1, -⟩ | ⟨hk, -, h1, -⟩
    · rw [run_decryptPadded_error h' (Prod.ext h1 rfl)]; exact cbcCheck_some_row hk
    · rw [run_decryptPadded_error h' (Prod.ext h1 rfl)]; exact hfault m
    · rw [(run_decryptPadded_ok h' (Prod.ext h1 rfl)).1]
      refine unpadOp_fits _ _ _ ?_
      rw [(isCbcDecryption_plainOf (hP _) hiv (cbcCheck_none hk).2.1).length, inData_length]
      exact h'

/-- What exec answers: a completion, with a result that fits OUT or an error of the table (60_exceptions.md R103, R104). -/
theorem exec_cases (i : Instr) {s : State} (hc : s.cfg.wf = true) :
    ∃ res sent, exec i s = .next (s.complete res sent) ∧ res.fits s.cfg :=
  ⟨_, _, exec_of_run rfl rfl, runBody_fits i hc⟩

/-! ### The hidden state a command starts from -/

/-- The encrypt loop depends on CHAIN, RES and the block index only. -/
theorem encLoop_congr (P : Prim) (draw : Nat → Bool) (h : Bytes) (ds : List Bytes) {e e' : Engine}
    (h1 : e.seq.chain = e'.seq.chain) (h2 : e.seq.res = e'.seq.res) (h3 : e.seq.blockIndex = e'.seq.blockIndex)
    (h4 : e.sent = e'.sent) :
    (encLoop P draw h ds e).1 = (encLoop P draw h ds e').1 ∧
      (encLoop P draw h ds e).2.sent = (encLoop P draw h ds e').2.sent := by
  induction ds generalizing e e' with
  | nil => simp [encLoop, h2, h4]
  | cons d ds ih =>
    cases hf : draw e'.sent.length with
    | true => simp [encLoop, ask_fault _ _ hf, ask_fault _ _ (h4 ▸ hf), h1, h3, h4]
    | false =>
      simp only [encLoop, ask_answer _ _ hf, ask_answer _ _ (h4 ▸ hf)]
      exact ih (by simp [Engine.nextBlock, h1]) (by simp [Engine.nextBlock, h1, h2]) (by simp [Engine.nextBlock, h3])
        (by simp [Engine.nextBlock, h1, h4])

/-- The decrypt loop depends on CHAIN, RES and the block index only. -/
theorem decLoop_congr (P : Prim) (draw : Nat → Bool) (h : Bytes) (ds : List Bytes) {e e' : Engine}
    (h1 : e.seq.chain = e'.seq.chain) (h2 : e.seq.res = e'.seq.res) (h3 : e.seq.blockIndex = e'.seq.blockIndex)
    (h4 : e.sent = e'.sent) :
    (decLoop P draw h ds e).1 = (decLoop P draw h ds e').1 ∧
      (decLoop P draw h ds e).2.sent = (decLoop P draw h ds e').2.sent := by
  induction ds generalizing e e' with
  | nil => simp [decLoop, h2, h4]
  | cons d ds ih =>
    cases hf : draw e'.sent.length with
    | true => simp [decLoop, ask_fault _ _ hf, ask_fault _ _ (h4 ▸ hf), h3, h4]
    | false =>
      simp only [decLoop, ask_answer _ _ hf, ask_answer _ _ (h4 ▸ hf)]
      exact ih (by simp [Engine.nextBlock]) (by simp [Engine.nextBlock, h1, h2]) (by simp [Engine.nextBlock, h3])
        (by simp [Engine.nextBlock, h4])

/-- CbcEncrypt does not depend on the hidden state it starts from: `setup` writes what the loop reads (R84, R90). -/
theorem cbcEncrypt_seq (P : Prim) (draw : Nat → Bool) (S : Snapshot) (d : Bytes) (q q' : Seq) :
    (cbcEncrypt P draw S d ⟨q, []⟩).1 = (cbcEncrypt P draw S d ⟨q', []⟩).1 ∧
      (cbcEncrypt P draw S d ⟨q, []⟩).2.sent = (cbcEncrypt P draw S d ⟨q', []⟩).2.sent := by
  cases h : cbcCheck d.length S with
  | some err => simp [cbcEncrypt_rejected _ _ _ h]
  | none =>
    cases hf : draw 0 with
    | true => simp [cbcEncrypt, cbcSetup_fault (e := ⟨q, []⟩) h hf, cbcSetup_fault (e := ⟨q', []⟩) h hf]
    | false =>
      simp only [cbcEncrypt, cbcSetup_answer (e := ⟨q, []⟩) h hf, cbcSetup_answer (e := ⟨q', []⟩) h hf]
      exact encLoop_congr _ _ _ _ rfl rfl rfl rfl

theorem cbcDecrypt_seq (P : Prim) (draw : Nat → Bool) (S : Snapshot) (d : Bytes) (q q' : Seq) :
    (cbcDecrypt P draw S d ⟨q, []⟩).1 = (cbcDecrypt P draw S d ⟨q', []⟩).1 ∧
      (cbcDecrypt P draw S d ⟨q, []⟩).2.sent = (cbcDecrypt P draw S d ⟨q', []⟩).2.sent := by
  cases h : cbcCheck d.length S with
  | some err => simp [cbcDecrypt_rejected _ _ _ h]
  | none =>
    cases hf : draw 0 with
    | true => simp [cbcDecrypt, cbcSetup_fault (e := ⟨q, []⟩) h hf, cbcSetup_fault (e := ⟨q', []⟩) h hf]
    | false =>
      simp only [cbcDecrypt, cbcSetup_answer (e := ⟨q, []⟩) h hf, cbcSetup_answer (e := ⟨q', []⟩) h hf]
      exact decLoop_congr _ _ _ _ rfl rfl rfl rfl

/-- No operation's result or requests depend on the hidden state it starts from (10_state.md R35). -/
theorem bodyOf_seq (i : Instr) (P : Prim) (draw : Nat → Bool) (S : Snapshot) (q q' : Seq) :
    (bodyOf i P draw S ⟨q, []⟩).1 = (bodyOf i P draw S ⟨q', []⟩).1 ∧
      (bodyOf i P draw S ⟨q, []⟩).2.sent = (bodyOf i P draw S ⟨q', []⟩).2.sent := by
  cases i with
  | pad => simp [bodyOf, padBody]
  | unpad => simp [bodyOf, unpadBody]
  | encrypt => exact cbcEncrypt_seq P draw S S.data q q'
  | decrypt => exact cbcDecrypt_seq P draw S S.data q q'
  | encryptPadded =>
    simp only [bodyOf, encryptPaddedBody]
    split
    · simp
    · exact cbcEncrypt_seq P draw S _ q q'
  | decryptPadded =>
    obtain ⟨h1, h2⟩ := cbcDecrypt_seq P draw S S.data q q'
    simp only [bodyOf, decryptPaddedBody]
    generalize cbcDecrypt P draw S S.data ⟨q, []⟩ = a at *
    generalize cbcDecrypt P draw S S.data ⟨q', []⟩ = b at *
    obtain ⟨a1, a2⟩ := a
    obtain ⟨b1, b2⟩ := b
    simp only at h1 h2
    subst h1
    cases a1 <;> simp [h2]

end Sys2Proof.Machine
end

