-- ==== Sys2Proof/Laws/Step.lean ====
section
/-! SUPPORT. What each agent's turn can do, and with it what a step can do (00_scope.md R10, 60_exceptions.md R103 to R108,
70_reset_and_hazards.md R118, R119). -/

namespace Sys2Proof.Machine

/-! ### The host's turn -/

/-- Bit 0 of the STATUS word is BUSY (10_state.md R17). -/
@[simp] theorem Status.word_getLsbD_zero (st : Status) : st.word.getLsbD 0 = st.busy := by
  obtain ⟨b, d, k, g, c, a⟩ := st
  cases b <;> cases d <;> cases k <;> cases g <;> cases c <;> cases a <;> decide

theorem hostTurn_nil {s : State} (h : s.host = []) : hostTurn s = .next s := by simp [hostTurn, h]

theorem hostTurn_access {s : State} {a : Access} {rest : List HostStep} (h : s.host = .access a :: rest) :
    hostTurn s = hostAccess { s with host := rest } a := by simp [hostTurn, h]

theorem hostTurn_wait {s : State} {rest : List HostStep} (h : s.host = .wait :: rest) :
    hostTurn s = hostAccess { s with host := if s.status.busy then s.host else rest } (statusPoll s.cfg) := by
  simp only [hostTurn, h, State.readReg, Status.word_getLsbD_zero]
  cases s.status.busy
  · simp
  · simp only [if_true]; rw [← h]

/-- What a host turn does: nothing, an access that misses the PCU, or one access or poll of a `wait` that reaches it. -/
theorem hostTurn_next {s t : State} (h : hostTurn s = .next t) :
    (s.host = [] ∧ t = s) ∨ (∃ a l, t = ({ s with host := l } : State).logEvent (.bus a .outside)) ∨
      ∃ a rest hs off, s.host = hs :: rest ∧ (hs = .access a ∨ hs = .wait ∧ a = statusPoll s.cfg) ∧ off < 0x40000 ∧
        a.addr = s.cfg.base + off ∧
        ∃ l, t = ((({ s with host := l } : State).busAccess a off).2.logEvent
          (.bus a (({ s with host := l } : State).busAccess a off).1)) := by
  cases hh : s.host with
  | nil => rw [hostTurn_nil hh] at h; cases h; exact .inl ⟨rfl, rfl⟩
  | cons x rest =>
    refine .inr ?_
    cases x with
    | access a =>
      rw [hostTurn_access hh] at h
      obtain ht | ⟨off, ho, ha, ht⟩ := hostAccess_next h
      · exact .inl ⟨_, _, ht⟩
      · exact .inr ⟨a, rest, _, off, rfl, .inl rfl, ho, ha, _, ht⟩
    | wait =>
      rw [hostTurn_wait hh] at h
      obtain ht | ⟨off, ho, ha, ht⟩ := hostAccess_next h
      · exact .inl ⟨_, _, ht⟩
      · exact .inr ⟨_, rest, _, off, rfl, .inr ⟨rfl, rfl⟩, ho, ha, _, ht⟩

/-- What a host write can do to memory at most: only bytes the host may write change, and none loses its value. -/
structure HostMemWrite (c : Config) (m m' : Memory) : Prop where
  canonical : Memory.wf m → Memory.wf m'
  kept : ∀ a, hostWritable c a = false → memGet m' a = memGet m a
  written : ∀ a, (memGet m a).isSome = true → (memGet m' a).isSome = true
  entries : ∀ x, x ∈ m' → x ∈ m ∨ hostWritable c x.1 = true

theorem HostMemWrite.refl (c : Config) (m : Memory) : HostMemWrite c m m :=
  ⟨id, fun _ _ => rfl, fun _ => id, fun _ => .inl⟩

theorem HostMemWrite.trans {c : Config} {m m' m'' : Memory} (h : HostMemWrite c m m') (h' : HostMemWrite c m' m'') :
    HostMemWrite c m m'' :=
  ⟨h'.canonical ∘ h.canonical, fun a ha => (h'.kept a ha).trans (h.kept a ha), fun a ha => h'.written a (h.written a ha),
    fun x hx => (h'.entries x hx).elim (h.entries x) .inr⟩

theorem hostMemWrite_byte (s : State) (off : Nat) (b : Byte) :
    HostMemWrite s.cfg s.mem (s.writeWindowByte off b).mem := by
  refine ⟨fun h => writeWindowByte_wf h _ _, fun a ha => ?_, fun a ha => ?_, fun x hx => ?_⟩
  · rw [memGet_writeWindowByte, if_neg (fun hh => by rw [hh.1, hh.2] at ha; cases ha)]
  · rw [memGet_writeWindowByte]
    split
    · rfl
    · exact ha
  · rcases writeWindowByte_cases s off b with e | ⟨e, buf, hbuf, hat⟩
    · rw [e] at hx; exact .inl hx
    · rw [e] at hx
      rcases mem_memSet hx with rfl | hx
      · right; unfold hostWritable; rw [hat]; cases buf <;> first | rfl | exact absurd rfl hbuf
      · exact .inl hx

/-- Four window byte writes in a row (20_memory.md R46). -/
theorem hostMemWrite_bytes (s : State) (o0 o1 o2 o3 : Nat) (b0 b1 b2 b3 : Byte) :
    let t := (((s.writeWindowByte o0 b0).writeWindowByte o1 b1).writeWindowByte o2 b2).writeWindowByte o3 b3
    t = { s with mem := t.mem } ∧ HostMemWrite s.cfg s.mem t.mem := by
  have h1 := hostMemWrite_byte s o0 b0
  have h2 := hostMemWrite_byte (s.writeWindowByte o0 b0) o1 b1
  have h3 := hostMemWrite_byte ((s.writeWindowByte o0 b0).writeWindowByte o1 b1) o2 b2
  have h4 := hostMemWrite_byte (((s.writeWindowByte o0 b0).writeWindowByte o1 b1).writeWindowByte o2 b2) o3 b3
  simp only [writeWindowByte_cfg] at h2 h3 h4
  refine ⟨?_, h1.trans (h2.trans (h3.trans h4))⟩
  rw [writeWindowByte_eq, writeWindowByte_eq (State.writeWindowByte _ o1 _), writeWindowByte_eq (s.writeWindowByte _ _),
    writeWindowByte_eq s]

/-- Everything a host write can do: a bus error, a drop, a command start, an ACCESS_ERR clear, or an update of operand
registers and of the bytes the host may write. -/
theorem busWrite_effect (s : State) (off n : Nat) (v : Word) :
    (isBusError off n = true ∧ s.busWrite off n v = (.busError, s)) ∨
      (s.status.busy = true ∧ isBusError off n = false ∧
        s.busWrite off n v = (.written, { s with status := { s.status with accessErr := true } })) ∨
      (s.status.busy = false ∧ off = 0x000 ∧ n = 4 ∧ s.busWrite off n v = (.written, s.startCommand v)) ∨
      (s.status.busy = false ∧ off = 0x004 ∧ n = 4 ∧
        s.busWrite off n v = (.written, { s with status := s.status.hostWrite v })) ∨
      (s.status.busy = false ∧ off ≠ 0x000 ∧ ∃ b i k l m,
        s.busWrite off n v = (.written, { s with blockLen := b, inLen := i, keyLen := k, ivLen := l, mem := m }) ∧
          HostMemWrite s.cfg s.mem m) := by
  rcases busWrite_cases s off n v with ⟨he, h⟩ | ⟨he, hb, h⟩ | ⟨he, hb, h⟩
  · exact .inl ⟨he, h⟩
  · exact .inr (.inl ⟨hb, he, h⟩)
  refine .inr (.inr ?_)
  rcases writeValue_cases s v he with ⟨r, rfl, rfl, hv⟩ | ⟨h1, hv⟩ | ⟨h1, rfl, hv⟩ | ⟨h1, rfl, hv⟩
  · rw [h, hv]
    cases r
    case cmd => exact .inl ⟨hb, rfl, rfl, rfl⟩
    case status => exact .inr (.inl ⟨hb, rfl, rfl, rfl⟩)
    all_goals exact .inr (.inr ⟨hb, by decide, _, _, _, _, s.mem, rfl, .refl ..⟩)
  · by_cases h0 : off = 0x000
    · subst h0
      have hn : n = 4 := by rcases accepted_cases he with h | h <;> omega
      subst hn
      exact .inl ⟨hb, rfl, rfl, by rw [h]; exact congrArg _ (writeValue_reg s .cmd 4 v)⟩
    · exact .inr (.inr ⟨hb, h0, _, _, _, _, s.mem, by rw [h, hv], .refl ..⟩)
  · exact .inr (.inr ⟨hb, by omega, _, _, _, _, _, by rw [h, hv, writeWindowByte_eq], hostMemWrite_byte ..⟩)
  · obtain ⟨e, hm⟩ := hostMemWrite_bytes s off (off + 1) (off + 2) (off + 3) (byteOfWord v 0) (byteOfWord v 1)
      (byteOfWord v 2) (byteOfWord v 3)
    exact .inr (.inr ⟨hb, by omega, _, _, _, _, _, by rw [h, hv]; exact congrArg _ e, hm⟩)

/-- Everything a host turn that answers can do: beside its program, the log and the read count, which always move on,
it changes nothing, or drops a write, starts a command, clears ACCESS_ERR, or writes operands. -/
theorem hostTurn_cases {s t : State} (h : hostTurn s = .next t) :
    ∃ hs ev r,
      t = { s with host := hs, events := ev, reads := r } ∨
      (s.status.busy = true ∧ (∃ off n v rest, s.host = .access (.write (s.cfg.base + off) n v) :: rest ∧
          off < 0x40000 ∧ isBusError off n = false) ∧
        t = { s with status := { s.status with accessErr := true }, host := hs, events := ev, reads := r }) ∨
      (s.status.busy = false ∧ ∃ w rest, s.host = .access (.write (s.cfg.base + 0x000) 4 w) :: rest ∧
        t = { s.startCommand w with host := hs, events := ev, reads := r }) ∨
      (s.status.busy = false ∧ ∃ w rest, s.host = .access (.write (s.cfg.base + 0x004) 4 w) :: rest ∧
        t = { s with status := s.status.hostWrite w, host := hs, events := ev, reads := r }) ∨
      (s.status.busy = false ∧ (∃ addr n v rest, s.host = .access (.write addr n v) :: rest) ∧ ∃ b i k l m,
        t = { s with blockLen := b, inLen := i, keyLen := k, ivLen := l, mem := m, host := hs, events := ev, reads := r } ∧
          HostMemWrite s.cfg s.mem m) := by
  rcases hostTurn_next h with ⟨-, rfl⟩ | ⟨a, l, rfl⟩ | ⟨a, rest, hs, off, hh, hsa, ho, ha, l, rfl⟩
  · exact ⟨_, _, _, .inl rfl⟩
  · exact ⟨_, _, _, .inl rfl⟩
  cases a with
  | read addr n =>
    rcases busRead_cases ({ s with host := l } : State) off n with ⟨-, e⟩ | ⟨-, e⟩
    · exact ⟨l, _, _, .inl (by simp only [State.busAccess, e, State.logEvent]; rfl)⟩
    · exact ⟨l, _, _, .inl (by simp only [State.busAccess, e, State.logEvent]; rfl)⟩
  | write addr n v =>
    obtain rfl : hs = .access (.write addr n v) := hsa.elim id fun hw => by cases hw.2
    simp only [Access.addr] at ha
    rcases busWrite_effect ({ s with host := l } : State) off n v with
      ⟨-, e⟩ | ⟨hb, he, e⟩ | ⟨hb, rfl, rfl, e⟩ | ⟨hb, rfl, rfl, e⟩ | ⟨hb, -, b, i, k, q, m, e, hm⟩
    · exact ⟨l, _, _, .inl (by simp only [State.busAccess, e, State.logEvent]; rfl)⟩
    · exact ⟨l, _, _, .inr (.inl ⟨hb, ⟨_, _, _, _, by rw [hh, ha], ho, he⟩, by simp only [State.busAccess, e, State.logEvent]; rfl⟩)⟩
    · exact ⟨l, _, _, .inr (.inr (.inl ⟨hb, v, rest, by rw [hh, ha],
        by simp only [State.busAccess, e, State.logEvent]; rfl⟩))⟩
    · exact ⟨l, _, _, .inr (.inr (.inr (.inl ⟨hb, v, rest, by rw [hh, ha],
        by simp only [State.busAccess, e, State.logEvent]; rfl⟩)))⟩
    · exact ⟨l, _, _, .inr (.inr (.inr (.inr ⟨hb, ⟨_, _, _, _, hh⟩, b, i, k, q, m,
        by simp only [State.busAccess, e, State.logEvent]; rfl, hm⟩)))⟩

/-- OUT is no buffer the host may write (20_memory.md R49). -/
theorem hostWritable_output {c : Config} (hc : c.wf = true) {k : Nat} (hk : k < c.outMax) :
    hostWritable c (bufStart .output + k) = false := by
  have : bufferAt c (bufStart .output + k) = some .output :=
    (bufferAt_eq_some hc).2 (inBuffer_start _ _ (by simpa [bufCap] using hk))
  simp [hostWritable, this]

/-! ### The sequencer's turn -/

/-- Either completion clears BUSY, sets DONE and keeps ACCESS_ERR (60_exceptions.md R103, R104). -/
theorem complete_status (s : State) (res : CmdResult) (sent : List Request) :
    (s.complete res sent).status.busy = false ∧ (s.complete res sent).status.done = true ∧
      (s.complete res sent).status.accessErr = s.status.accessErr := by cases res <;> exact ⟨rfl, rfl, rfl⟩

/-- The result of the running command, and the requests it sends: Exec of its word, or ILLEGAL_CMD (30_encoding.md R64). -/
theorem completeCommand_cases {s : State} (hc : s.cfg.wf = true) :
    ∃ res sent, completeCommand s = .next (s.complete res sent) ∧ res.fits s.cfg := by
  unfold completeCommand
  cases decodeWord s.fetch with
  | ok i => exact exec_cases i hc
  | error e => exact ⟨_, _, rfl, by simp [CmdResult.fits, illegalCmdError, Cause.row]⟩

/-- A sequencer turn: a completion while BUSY, nothing while idle (10_state.md R18). -/
theorem sequencerTurn_cases {s : State} (hc : s.cfg.wf = true) :
    (s.status.busy = false ∧ sequencerTurn s = .next s) ∨
      (s.status.busy = true ∧ ∃ res sent, sequencerTurn s = .next (s.complete res sent) ∧ res.fits s.cfg) := by
  cases hb : s.status.busy with
  | false => exact .inl ⟨rfl, by simp [sequencerTurn, hb]⟩
  | true =>
    obtain ⟨res, sent, h, hf⟩ := completeCommand_cases hc
    exact .inr ⟨rfl, res, sent, by simpa [sequencerTurn, hb] using h, hf⟩

/-- A work turn changes the hidden state alone, and only while BUSY (10_state.md R34). -/
theorem workTurn_eq (s : State) : workTurn s = { s with seq := (workTurn s).seq } := by
  unfold workTurn
  split
  · split
    · split <;> rfl
    · rfl
  · rfl

theorem workTurn_idle {s : State} (h : s.status.busy = false) : workTurn s = s := by simp [workTurn, h]

/-! ### A step -/

@[simp] theorem popTurn_status (s : State) : s.popTurn.status = s.status := rfl
@[simp] theorem popTurn_cfg (s : State) : s.popTurn.cfg = s.cfg := rfl
@[simp] theorem popTurn_host (s : State) : s.popTurn.host = s.host := rfl
@[simp] theorem popTurn_mem (s : State) : s.popTurn.mem = s.mem := rfl
@[simp] theorem popTurn_cmd (s : State) : s.popTurn.cmd = s.cmd := rfl

theorem step_of_wf {s : State} (h : s.cfg.wf = true) : step s = takeTurn s.nextTurn s.popTurn := by simp [step, h]

/-- What a step that answers does: the turn of the agent that acts, on the state with that turn taken off the list. -/
theorem step_next {s t : State} (h : step s = .next t) :
    s.cfg.wf = true ∧
      ((s.nextTurn = .host ∧ hostTurn s.popTurn = .next t) ∨
        (s.nextTurn = .sequencer ∧ s.status.busy = false ∧ t = s.popTurn) ∨
        (s.nextTurn = .sequencer ∧ s.status.busy = true ∧ ∃ res sent, t = s.popTurn.complete res sent ∧
          res.fits s.cfg) ∨
        (s.nextTurn = .work ∧ t = workTurn s.popTurn) ∨ (s.nextTurn = .reset ∧ t = s.popTurn.applyReset)) := by
  cases hc : s.cfg.wf with
  | false => simp [step, hc] at h
  | true =>
    rw [step_of_wf hc] at h
    refine ⟨rfl, ?_⟩
    cases hn : s.nextTurn <;> rw [hn] at h
    · exact .inl ⟨rfl, h⟩
    · rcases sequencerTurn_cases (s := s.popTurn) hc with ⟨hb, hs⟩ | ⟨hb, res, sent, hs, hf⟩
      · exact .inr (.inl ⟨rfl, hb, by cases h.symm.trans hs; rfl⟩)
      · exact .inr (.inr (.inl ⟨rfl, hb, res, sent, by cases h.symm.trans hs; rfl, hf⟩))
    · exact .inr (.inr (.inr (.inl ⟨rfl, by cases h; rfl⟩)))
    · exact .inr (.inr (.inr (.inr ⟨rfl, by cases h; rfl⟩)))

end Sys2Proof.Machine
end

