-- ==== Sys2Proof/Laws/Hidden.lean ====
section
/-! SUPPORT. The hidden state while a command runs: where each transform stands at the request it waits for, what it has
staged when it has its last answer, and the work turn (10_state.md R34, 41_cbc.md R84 to R86). -/

namespace Sys2Proof.Machine

/-- An encryption whose next fault would be block `i`'s request stands at that request (R84, R86). -/
theorem cbcEncrypt_awaits {P : Prim} {draw : Nat → Bool} {S : Snapshot} {d : Bytes} {q : Seq} {i : Nat}
    (h : cbcCheck d.length S = none) (hP : P.keepsLength S.cfg.blockSize S.keyBytes)
    (hiv : S.ivBlock.length = S.cfg.blockSize) (hd : d.length % S.cfg.blockSize = 0)
    (hi : i < d.length / S.cfg.blockSize) (hn : ∀ j, j ≤ i → draw j = false) (hf : draw (i + 1) = true) :
    (cbcEncrypt P draw S d ⟨q, []⟩).2.seq.AwaitsEnc S.cfg.blockSize S.keyBytes S.ivBlock d
      (cipherOf P S.cfg.blockSize S.keyBytes S.ivBlock d) i := by
  have hN : d.length = d.length / S.cfg.blockSize * S.cfg.blockSize :=
    (Nat.div_mul_cancel (Nat.dvd_of_mod_eq_zero hd)).symm
  have hout : ∀ x, x ∈ encBlocks P S.keyBytes S.ivBlock (blocks S.cfg.blockSize (d.length / S.cfg.blockSize) d) →
      x.length = S.cfg.blockSize :=
    fun x hx => length_of_mem_encBlocks hP (fun y hy => length_of_mem_blocks hN hy) hiv hx
  obtain ⟨-, -, h3⟩ := encLoop_fault P draw S.keyBytes (blocks S.cfg.blockSize (d.length / S.cfg.blockSize) d)
    ⟨⟨S.ivBlock, [], some S.keyBytes, 0, q.scanIndex, none⟩, [.setup S.keyBytes]⟩ (j := i) (by simpa using hi)
    (by simpa [Nat.add_comm] using hf) (fun j hj => hn _ (by simp only [List.length_singleton]; omega))
  have hchain := chainAt_eq_chainBefore (B := S.cfg.blockSize) hout S.ivBlock (i := i) (by simpa using Nat.le_of_lt hi)
  simp only [cbcEncrypt, cbcSetup_answer (e := ⟨q, []⟩) h (hn 0 (Nat.zero_le _)), Option.getD_some, List.nil_append]
  rw [h3]
  refine ⟨hchain, by simpa [cipherOf] using flatten_take hout i, by simp, rfl, ?_⟩
  show (encRequests _ _ _ _)[i]? = _
  rw [encRequests_getElem? _ _ _ _ (by simpa using hi), blocks_getD _ _ _ hi, hchain]
  rfl

/-- A decryption whose next fault would be block `i`'s request stands at that request (R85, R86). -/
theorem cbcDecrypt_awaits {P : Prim} {draw : Nat → Bool} {S : Snapshot} {d : Bytes} {q : Seq} {i : Nat}
    (h : cbcCheck d.length S = none) (hP : P.keepsLength S.cfg.blockSize S.keyBytes)
    (hiv : S.ivBlock.length = S.cfg.blockSize) (hd : d.length % S.cfg.blockSize = 0)
    (hi : i < d.length / S.cfg.blockSize) (hn : ∀ j, j ≤ i → draw j = false) (hf : draw (i + 1) = true) :
    (cbcDecrypt P draw S d ⟨q, []⟩).2.seq.AwaitsDec S.cfg.blockSize S.keyBytes S.ivBlock d
      (plainOf P S.cfg.blockSize S.keyBytes S.ivBlock d) i := by
  have hN : d.length = d.length / S.cfg.blockSize * S.cfg.blockSize :=
    (Nat.div_mul_cancel (Nat.dvd_of_mod_eq_zero hd)).symm
  have hin : ∀ x, x ∈ blocks S.cfg.blockSize (d.length / S.cfg.blockSize) d → x.length = S.cfg.blockSize :=
    fun x hx => length_of_mem_blocks hN hx
  have hout : ∀ x, x ∈ decBlocks P S.keyBytes S.ivBlock (blocks S.cfg.blockSize (d.length / S.cfg.blockSize) d) →
      x.length = S.cfg.blockSize := fun x hx => length_of_mem_decBlocks hP hin hiv hx
  obtain ⟨-, -, h3⟩ := decLoop_fault P draw S.keyBytes (blocks S.cfg.blockSize (d.length / S.cfg.blockSize) d)
    ⟨⟨S.ivBlock, [], some S.keyBytes, 0, q.scanIndex, none⟩, [.setup S.keyBytes]⟩ (j := i) (by simpa using hi)
    (by simpa [Nat.add_comm] using hf) (fun j hj => hn _ (by simp only [List.length_singleton]; omega))
  have hchain := chainAt_eq_chainBefore (B := S.cfg.blockSize) hin S.ivBlock (i := i) (by simpa using Nat.le_of_lt hi)
  have hblock := blocks_getD S.cfg.blockSize (d.length / S.cfg.blockSize) d hi
  rw [List.getD_eq_getElem _ _ (by simpa using hi)] at hblock
  simp only [cbcDecrypt, cbcSetup_answer (e := ⟨q, []⟩) h (hn 0 (Nat.zero_le _)), Option.getD_some, List.nil_append]
  rw [h3]
  refine ⟨by rwa [blocks_flatten hN] at hchain,
    by simpa [plainOf] using flatten_take hout i, by simp, rfl, ?_⟩
  show (List.map _ (blocks _ _ d))[i]? = _
  rw [List.getElem?_map, List.getElem?_eq_getElem (by simpa using hi), hblock]
  rfl

/-- A finished encryption has its result in RES and no request pending (R84). -/
theorem cbcEncrypt_staged {P : Prim} {draw : Nat → Bool} {S : Snapshot} {d : Bytes} {q : Seq} {r : Bytes}
    (h : (cbcEncrypt P draw S d ⟨q, []⟩).1 = .ok r) :
    (cbcEncrypt P draw S d ⟨q, []⟩).2.seq.res = r ∧ (cbcEncrypt P draw S d ⟨q, []⟩).2.seq.pending = none := by
  cases hc : cbcCheck d.length S with
  | some err => rw [cbcEncrypt_rejected _ _ _ hc] at h; cases h
  | none =>
    cases h0 : draw 0 with
    | true => simp only [cbcEncrypt, cbcSetup_fault (e := ⟨q, []⟩) hc h0] at h; cases h
    | false =>
      simp only [cbcEncrypt, cbcSetup_answer (e := ⟨q, []⟩) hc h0] at h ⊢
      exact encLoop_staged rfl h

/-- A finished decryption has its result in RES and no request pending (R85). -/
theorem cbcDecrypt_staged {P : Prim} {draw : Nat → Bool} {S : Snapshot} {d : Bytes} {q : Seq} {r : Bytes}
    (h : (cbcDecrypt P draw S d ⟨q, []⟩).1 = .ok r) :
    (cbcDecrypt P draw S d ⟨q, []⟩).2.seq.res = r ∧ (cbcDecrypt P draw S d ⟨q, []⟩).2.seq.pending = none := by
  cases hc : cbcCheck d.length S with
  | some err => rw [cbcDecrypt_rejected _ _ _ hc] at h; cases h
  | none =>
    cases h0 : draw 0 with
    | true => simp only [cbcDecrypt, cbcSetup_fault (e := ⟨q, []⟩) hc h0] at h; cases h
    | false =>
      simp only [cbcDecrypt, cbcSetup_answer (e := ⟨q, []⟩) hc h0] at h ⊢
      exact decLoop_staged rfl h

/-! ### The hidden state of a running command -/

/-- The draws of a command that has had `m` answers: every later request counts as not yet answered. -/
def Port.drawsUpTo (p : Port) (m : Nat) : Nat → Bool := fun k => if k < m then p.draw k else true

theorem Port.drawsUpTo_lt {p : Port} {m k : Nat} (h : k < m) : p.drawsUpTo m k = p.draw k := if_pos h

theorem Port.drawsUpTo_ge {p : Port} {m k : Nat} (h : m ≤ k) : p.drawsUpTo m k = true := if_neg (Nat.not_lt.2 h)

/-- The hidden state of a command on data that fits IN is its body's, with the draws there are so far (log 12). -/
theorem hiddenAt_eq {s : State} (h : s.inLen.toNat ≤ s.cfg.bufMax) (i : Instr) (m : Nat) :
    s.hiddenAt i m = (bodyOf i (primOf s.cfg) (s.port.drawsUpTo m) s.snapshot ⟨s.seq, []⟩).2.seq :=
  if_neg (Nat.not_lt.2 h)

theorem hiddenAt_encrypt {s : State} (h : s.inLen.toNat ≤ s.cfg.bufMax) (m : Nat) :
    s.hiddenAt .encrypt m =
      (cbcEncrypt (primOf s.cfg) (s.port.drawsUpTo m) s.snapshot s.inData ⟨s.seq, []⟩).2.seq := by
  rw [hiddenAt_eq h, ← snapshot_data h]; rfl

theorem hiddenAt_decrypt {s : State} (h : s.inLen.toNat ≤ s.cfg.bufMax) (m : Nat) :
    s.hiddenAt .decrypt m =
      (cbcDecrypt (primOf s.cfg) (s.port.drawsUpTo m) s.snapshot s.inData ⟨s.seq, []⟩).2.seq := by
  rw [hiddenAt_eq h, ← snapshot_data h]; rfl

/-- ENCRYPT_PADDED's hidden state is that of the encryption of the padded input (R93). -/
theorem hiddenAt_encryptPadded {s : State} (hc : s.cfg.wf = true) (h : s.inLen.toNat ≤ s.cfg.bufMax) (m : Nat) :
    s.hiddenAt .encryptPadded m =
      (cbcEncrypt (primOf s.cfg) (s.port.drawsUpTo m) s.snapshot (pad s.inData s.cfg.blockSize) ⟨s.seq, []⟩).2.seq := by
  have hwf := Config.wf_facts hc
  rw [hiddenAt_eq h]
  simp only [bodyOf, encryptPaddedBody, snapshot_data h, padOp, snapshot_cfg]
  rw [if_neg (by omega)]

/-- DECRYPT_PADDED's hidden state is DECRYPT's while that has not finished (R94). -/
theorem hiddenAt_decryptPadded_error {s : State} (h : s.inLen.toNat ≤ s.cfg.bufMax) {m : Nat} {err : ErrorRec}
    (hd : (cbcDecrypt (primOf s.cfg) (s.port.drawsUpTo m) s.snapshot s.inData ⟨s.seq, []⟩).1 = .error err) :
    s.hiddenAt .decryptPadded m = s.hiddenAt .decrypt m := by
  rw [hiddenAt_eq h, hiddenAt_decrypt h]
  simp only [bodyOf, decryptPaddedBody, snapshot_data h]
  split
  · rename_i he; rw [he]
  · rename_i he; rw [he] at hd; cases hd

/-- What staging a result leaves in the hidden state (10_state.md R34). -/
theorem stage_seq_ok {e : Engine} {res : CmdResult} {r : Bytes} (h : res = .ok r) (n : Nat) :
    (e.stage res n).2.seq = { e.seq with res := r, scanIndex := n } := by subst h; rfl

theorem stage_seq_error {e : Engine} {res : CmdResult} {err : ErrorRec} (h : res = .error err) (n : Nat) :
    (e.stage res n).2.seq = { e.seq with scanIndex := n } := by subst h; rfl

/-- DECRYPT_PADDED's hidden state once DECRYPT's is finished: the scan index, and what Unpad leaves (R94). -/
theorem hiddenAt_decryptPadded_ok {s : State} (h : s.inLen.toNat ≤ s.cfg.bufMax) {m : Nat} {p : Bytes}
    (hd : (cbcDecrypt (primOf s.cfg) (s.port.drawsUpTo m) s.snapshot s.inData ⟨s.seq, []⟩).1 = .ok p) :
    (s.hiddenAt .decryptPadded m).scanIndex = (unpadOp s.cfg.scanMode p s.cfg.blockSize .unpad).2 ∧
      (s.hiddenAt .decryptPadded m).pending = none ∧
      ∀ r, (unpadOp s.cfg.scanMode p s.cfg.blockSize .unpad).1 = .ok r → (s.hiddenAt .decryptPadded m).res = r := by
  have hp := (cbcDecrypt_staged hd).2
  rw [hiddenAt_eq h]
  simp only [bodyOf, decryptPaddedBody, snapshot_data h]
  split
  · rename_i he; rw [he] at hd; cases hd
  · rename_i q e he
    rw [he] at hd hp
    cases hd
    cases hu : (unpadOp s.cfg.scanMode p s.cfg.blockSize .unpad).1 with
    | ok r =>
      have := stage_seq_ok (e := e) hu (unpadOp s.cfg.scanMode p s.cfg.blockSize .unpad).2
      simp only [snapshot_cfg, this]
      exact ⟨trivial, hp, fun r' hr => by cases hr; rfl⟩
    | error err =>
      have := stage_seq_error (e := e) hu (unpadOp s.cfg.scanMode p s.cfg.blockSize .unpad).2
      simp only [snapshot_cfg, this]
      exact ⟨trivial, hp, fun r' hr => by cases hr⟩

/-! ### The work turn -/

/-- Which hidden state a work turn leaves a running command in (log 12). -/
theorem workTurn_running {s : State} {i : Instr} (hb : s.status.busy = true) (hd : decodeWord s.cmd = .ok i) :
    (workTurn s).seq =
      if s.seq.handle.isSome = true ∧ s.seq.pending = none then s.seq else s.hiddenAt i s.seq.answersAllowed := by
  simp only [workTurn, hb, State.fetch, hd, if_true]
  by_cases h : s.seq.handle.isSome = true ∧ s.seq.pending = none
  · simp [h]
  · have h' : ¬(s.seq.handle.isSome && s.seq.pending.isNone) = true := by simpa using h
    rw [if_neg h', if_neg h]

/-- A work turn of an illegal command has nothing to do (30_encoding.md R62). -/
theorem workTurn_illegal {s : State} {e : DecodeError} (hd : decodeWord s.cmd = .error e) : workTurn s = s := by
  simp [workTurn, State.fetch, hd]

end Sys2Proof.Machine
end

