-- ==== Sys2Proof/Laws/PerInstr.lean ====
section
/-! SUPPORT. Statements for all instructions, made per instruction. -/

/-- Family WordFields: the instruction is well formed, its command word has RSV = 0 and OP in 1 to 6 (30_encoding.md R59
to R61), and the word's row stands in the opcode table under the instruction's own entry. -/
def Sys2Proof.Laws.WordFields.Statement (i : Sys2Proof.Instr) : Prop :=
  i.wf = true ∧ Sys2Proof.rsvField (Sys2Proof.encode i) = 0#28 ∧ 1 ≤ (Sys2Proof.opField (Sys2Proof.encode i)).toNat ∧
    (Sys2Proof.opField (Sys2Proof.encode i)).toNat ≤ 6 ∧
    ⟨i, Sys2Proof.encode i, 0xFFFFFFFF#32⟩ ∈ Sys2Proof.opcodeTable

theorem Sys2Proof.Laws.WordFields.pad : Sys2Proof.Laws.WordFields.Statement .pad := by
  unfold Sys2Proof.Laws.WordFields.Statement; decide

theorem Sys2Proof.Laws.WordFields.unpad : Sys2Proof.Laws.WordFields.Statement .unpad := by
  unfold Sys2Proof.Laws.WordFields.Statement; decide

theorem Sys2Proof.Laws.WordFields.encrypt : Sys2Proof.Laws.WordFields.Statement .encrypt := by
  unfold Sys2Proof.Laws.WordFields.Statement; decide

theorem Sys2Proof.Laws.WordFields.decrypt : Sys2Proof.Laws.WordFields.Statement .decrypt := by
  unfold Sys2Proof.Laws.WordFields.Statement; decide

theorem Sys2Proof.Laws.WordFields.encryptPadded : Sys2Proof.Laws.WordFields.Statement .encryptPadded := by
  unfold Sys2Proof.Laws.WordFields.Statement; decide

theorem Sys2Proof.Laws.WordFields.decryptPadded : Sys2Proof.Laws.WordFields.Statement .decryptPadded := by
  unfold Sys2Proof.Laws.WordFields.Statement; decide
end

