-- ==== Sys2Proof/Tests/Slice0.lean ====
section
/-! SUPPORT. Tests: the ill-formed terms the checks refuse, the command words of 30_encoding.md written out bit by bit,
vectors of 95_test_vectors.md, and a witness for the hypotheses of each statement. -/

namespace Sys2Proof.Tests

open Sys2Proof Sys2Proof.Machine

/-! ### WellFormed -/

theorem test_default_config_wf : Config.default.wf = true ∧ Config.toy4.wf = true := by decide

theorem test_wf_refuses_blockSize :
    ({ Config.default with blockSize := 0 } : Config).wf = false ∧
    ({ Config.default with blockSize := 256 } : Config).blockSizeOk = false := by decide

theorem test_wf_refuses_iv_too_long : ({ Config.default with blockSize := 257 } : Config).ivFits = false := by decide

theorem test_wf_refuses_no_key_size : ({ Config.default with keySizes := [] } : Config).wf = false := by decide

theorem test_wf_refuses_key_size_out_of_range :
    ({ Config.default with keySizes := [16, 33] } : Config).wf = false ∧
    ({ Config.default with keySizes := [0] } : Config).wf = false := by decide

theorem test_wf_refuses_bufMax :
    ({ Config.default with bufMax := 0 } : Config).wf = false ∧
    ({ Config.default with bufMax := 65537 } : Config).wf = false := by decide

theorem test_wf_refuses_misaligned_base : ({ Config.default with base := 0x20000 } : Config).wf = false := by decide

theorem test_wf_refuses_toy4_with_other_sizes : ({ Config.default with prim := .toy4 } : Config).wf = false := by decide

theorem test_wf_refuses_host_line_outside_aperture :
    (HostOp.r32 0x40000).wf = false ∧ (HostOp.w8 0x40000 0#8).wf = false ∧
    (HostOp.wbytes 0x3FFFF [0#8, 0#8]).wf = false ∧ (HostOp.rbytes 0x3FFFF 2).wf = false ∧
    (HostOp.wwords 0x3FFFC [0#32, 0#32]).wf = false ∧ (HostOp.wwords 0x101 [0#32]).wf = false := by decide

/-! ### Decode: each word written out from R59 and R60 (RSV in bits 31:4, OP in bits 3:0) -/

theorem test_decode_pad : decodeWord 0b0000000000000000000000000000_0001#32 = .ok .pad := by decide
theorem test_decode_unpad : decodeWord 0b0000000000000000000000000000_0010#32 = .ok .unpad := by decide
theorem test_decode_encrypt : decodeWord 0b0000000000000000000000000000_0011#32 = .ok .encrypt := by decide
theorem test_decode_decrypt : decodeWord 0b0000000000000000000000000000_0100#32 = .ok .decrypt := by decide
theorem test_decode_encryptPadded : decodeWord 0b0000000000000000000000000000_0101#32 = .ok .encryptPadded := by decide
theorem test_decode_decryptPadded : decodeWord 0b0000000000000000000000000000_0110#32 = .ok .decryptPadded := by decide

/-- R61, R62: RSV not 0, OP 0x0, OP 0x7, OP 0xF. -/
theorem test_decode_rejects :
    decodeWord 0b0000000000000000000000000001_0001#32 = .error (.reservedBits 0x00000011#32) ∧
    decodeWord 0b1000000000000000000000000000_0001#32 = .error (.reservedBits 0x80000001#32) ∧
    decodeWord 0b0000000000000000000000000000_0000#32 = .error (.reservedOp 0#32) ∧
    decodeWord 0b0000000000000000000000000000_0111#32 = .error (.reservedOp 7#32) ∧
    decodeWord 0b0000000000000000000000000000_1111#32 = .error (.reservedOp 15#32) := by decide

theorem test_decode_bytes :
    decode [0x05#8, 0x00#8, 0x00#8, 0x00#8, 0xAA#8] = .ok (.encryptPadded, [0xAA#8]) ∧
    decode [0x01#8, 0x00#8, 0x00#8] = .error .truncated := by decide

theorem test_table_word : decodeTableWord 32 0x6 = some .decryptPadded ∧ decodeTableWord 32 0x10000006 = none := by decide

/-! ### One command each, from 95_test_vectors.md -/

/-- The operands of a vector: KEY 10 20 30 40 and IV a0 b0 c0 d0 with TOY4, no fault (95_test_vectors.md §3). -/
def setup (data : Bytes) (bl kl : Nat) : State :=
  { State.reset with
    cfg := Config.toy4
    blockLen := wordOf bl
    inLen := wordOf data.length
    keyLen := wordOf kl
    ivLen := 4#32
    mem := memSetBytes (memSetBytes (memSetBytes [] 0x100 [0x10#8, 0x20#8, 0x30#8, 0x40#8]) 0x200
      [0xa0#8, 0xb0#8, 0xc0#8, 0xd0#8]) 0x10000 data
    port := ⟨List.replicate 8 false, 0, []⟩ }

/-- The state after command word `w` has run in `s`; `s` itself where the step stops. -/
def after (s : State) (w : Nat) : State :=
  match step (s.withFetchWord 32 w) with
  | .next t => t
  | .fault _ | .refused _ => s

/-- `OUT[0 .. OUT_LEN)` and STATUS. -/
def outcome (t : State) : List (Option Byte) × Word :=
  ((List.range t.outLen.toNat).map fun k => memGet t.mem (0x20000 + k), t.status.word)

/-- V-PAD-2. -/
theorem test_pad : outcome (after (setup [0x61, 0x62, 0x63] 8 4) 1) =
    ([0x61, 0x62, 0x63, 5, 5, 5, 5, 5].map some, 0x00000002#32) := by decide

/-- V-PAD-10. -/
theorem test_pad_blockLen_zero : outcome (after (setup [0x61, 0x62] 0 4) 1) = ([], 0x00001016#32) := by decide

/-- V-UNP-4. -/
theorem test_unpad : outcome (after (setup [0x61, 0x62, 0x63, 5, 5, 5, 5, 5] 8 4) 2) =
    ([0x61, 0x62, 0x63].map some, 0x00000002#32) := by decide

/-- V-UNP-5. -/
theorem test_unpad_mismatch : outcome (after (setup [0x61, 0x62, 0x63, 5, 5, 5, 4, 5] 8 4) 2) =
    ([], 0x00001336#32) := by decide

/-- V-CBC-1. -/
theorem test_encrypt : outcome (after (setup [0, 1, 2, 3, 4, 5, 6, 7] 0 4) 3) =
    ([0xa1, 0xe2, 0xe3, 0xe0, 0xf7, 0xc5, 0xd7, 0xe5].map some, 0x00000002#32) := by decide

/-- V-CBC-9: KEY_LEN 3. -/
theorem test_encrypt_keySize :
    let t := after (setup [0x77, 0x77, 0x77, 0x77] 0 3) 3
    t.status.word = 0x00002026#32 ∧ t.errInfo0 = 3#32 ∧ t.errInfo1 = 0#32 := by decide

/-- V-CBC-2. -/
theorem test_decrypt : outcome (after (setup [0xa1, 0xe2, 0xe3, 0xe0, 0xf7, 0xc5, 0xd7, 0xe5] 0 4) 4) =
    ([0, 1, 2, 3, 4, 5, 6, 7].map some, 0x00000002#32) := by decide

/-- V-CBC-11's length, 6, with DECRYPT: DATA_MISALIGNED, info 6 and 4. -/
theorem test_decrypt_misaligned :
    let t := after (setup [0, 1, 2, 3, 4, 5] 0 4) 4
    t.status.word = 0x00002126#32 ∧ t.errInfo0 = 6#32 ∧ t.errInfo1 = 4#32 := by decide

/-- V-PD-3. -/
theorem test_encryptPadded : outcome (after (setup [0x61, 0x62, 0x63] 0 4) 5) =
    ([0xc2, 0x83, 0xe1, 0x81].map some, 0x00000002#32) := by decide

/-- V-PD-1: empty data. -/
theorem test_encryptPadded_empty : outcome (after (setup [] 0 4) 5) =
    ([0xa4, 0xe4, 0xe4, 0xe4].map some, 0x00000002#32) := by decide

/-- V-PD-4. -/
theorem test_decryptPadded : outcome (after (setup [0xc2, 0x83, 0xe1, 0x81] 0 4) 6) =
    ([0x61, 0x62, 0x63].map some, 0x00000002#32) := by decide

/-- R94, R73: an empty ciphertext decrypts to nothing, and Unpad rejects it with UNPAD_LEN. -/
theorem test_decryptPadded_empty : outcome (after (setup [] 0 4) 6) = ([], 0x00001136#32) := by decide

/-! ### Witnesses: states and operands that meet each statement's hypotheses, clause by clause

`good d` has operands every command accepts; the variants take one of them away. -/

/-- Data `d`, BLOCK_LEN 4, the key and IV above. -/
def good (d : Bytes) : State := setup d 4 4

/-- `s` with the coming requests' draws given. -/
def withFaults (s : State) (fs : List Bool) : State := { s with port := ⟨fs, 0, []⟩ }

/-- A command running, its word in CMD. -/
def running (w : Word) : State := (good [0x61, 0x62, 0x63, 0x01]).startCommand w

/-- `s` with the host's program and the turns given. -/
def withTurn (s : State) (t : Turn) (h : List HostStep) : State := { s with turns := [t], host := h }

theorem good_noFault (d : Bytes) : (good d).noFaultUpTo 7 := fun m hm => by
  change (List.replicate 8 false).getD m _ = false
  rw [List.getD_eq_getElem _ _ (by simp; omega), List.getElem_replicate]

theorem test_witness_LegalWordsAreExactlyTheSix :
    (∃ i, decodeWord 1#32 = .ok i) ∧ (∃ i, decodeWord 6#32 = .ok i) ∧ 1 ≤ (1#32 : Word).toNat ∧ (6#32 : Word).toNat ≤ 6 :=
  ⟨⟨_, rfl⟩, ⟨_, rfl⟩, by decide⟩

theorem test_witness_ReservedWordsAreRejectedByName :
    (16#32 : Word).toNat / 16 ≠ 0 ∧ (0xFFFFFFFF#32 : Word).toNat / 16 ≠ 0 ∧
    ((0#32 : Word).toNat / 16 = 0 ∧ (0#32 : Word).toNat = 0) ∧
    ((7#32 : Word).toNat / 16 = 0 ∧ 7 ≤ (7#32 : Word).toNat) ∧
    ((15#32 : Word).toNat / 16 = 0 ∧ 7 ≤ (15#32 : Word).toNat) := by decide

theorem test_witness_DecoderIsTheOpcodeTableSearch :
    (∃ r ∈ opcodeTable, r.matches 6#32 = true) ∧ (∀ r ∈ opcodeTable, r.matches 0#32 = false) ∧
    (∀ r ∈ opcodeTable, r.matches 7#32 = false) ∧ (∀ r ∈ opcodeTable, r.matches 0x80000001#32 = false) := by decide

theorem test_witness_DecodeAndEncodeAgree :
    encodeBytes .decryptPadded ++ [0xFF#8] = [0x06#8, 0#8, 0#8, 0#8, 0xFF#8] ∧
    decode [0x06#8, 0#8, 0#8, 0#8, 0xFF#8] = .ok (.decryptPadded, [0xFF#8]) := by decide

theorem test_witness_StepRunsTheDecodedCommand :
    let s := withTurn (running 1#32) .sequencer []
    s.cfg.wf = true ∧ s.status.busy = true ∧ s.nextTurn = .sequencer ∧ decodeWord s.cmd = .ok .pad := by decide

theorem test_witness_PlacedWordRunsNext : State.reset.cfg.wf = true := by decide

theorem test_witness_IllegalWordStartsAndCompletesWithError :
    State.reset.status.busy = false ∧ ¬(1 ≤ (0#32 : Word).toNat ∧ (0#32 : Word).toNat ≤ 6) ∧
    ¬(1 ≤ (7#32 : Word).toNat ∧ (7#32 : Word).toNat ≤ 6) := by decide

/-- IN_LEN one past BUF_MAX, BLOCK_LEN 0 and 256, and 1 and 255 accepted. -/
theorem test_witness_PadCompletesInEveryCase :
    let s := { good [] with inLen := 4097#32 }
    s.cfg.bufMax < s.inLen.toNat ∧ (good []).inLen.toNat ≤ (good []).cfg.bufMax ∧
    badBlockLen (setup [] 0 4).blockLen.toNat ∧ badBlockLen (setup [] 256 4).blockLen.toNat ∧
    ¬badBlockLen (setup [] 1 4).blockLen.toNat ∧ ¬badBlockLen (setup [] 255 4).blockLen.toNat := by decide

/-- Each outcome of UNPAD: UNPAD_LEN for no data and for 3 bytes, PAD_LEN_VALUE for 0 and for n + 1, PAD_BYTE_MISMATCH,
and success with p = n. -/
theorem test_witness_UnpadCompletesInEveryCase :
    (good []).inData.length = 0 ∧ (good [1, 1, 1]).inData.length % 4 ≠ 0 ∧
    (lastByte (good [1, 1, 1, 0]).inData).toNat = 0 ∧ 4 < (lastByte (good [1, 1, 1, 5]).inData).toNat ∧
    ¬allEqual (lastBytes (good [9, 9, 1, 2]).inData 2) 2#8 ∧
    allEqual (lastBytes (good [4, 4, 4, 4]).inData 4) (lastByte (good [4, 4, 4, 4]).inData) := by decide

/-- Each outcome of ENCRYPT: the four checks, a fault at `setup` and at the last block, and no fault. -/
theorem test_witness_EncryptCompletesInEveryCase :
    (good [1, 2, 3, 4]).cfg.wf = true ∧ Config.toy4.bufMax < ({ good [] with inLen := 4097#32 } : State).inLen.toNat ∧
    ¬(setup [] 4 3).keySizeOk ∧ (good [1, 2, 3]).inLen.toNat % 4 ≠ 0 ∧
    ({ good [] with ivLen := 5#32 } : State).ivLen.toNat ≠ 4 ∧
    ((good [1, 2, 3, 4]).keySizeOk ∧ (good [1, 2, 3, 4]).inLen.toNat % 4 = 0 ∧ (good [1, 2, 3, 4]).ivLen.toNat = 4) ∧
    (withFaults (good [1, 2, 3, 4]) [true]).firstFault 0 ∧
    (withFaults (good [1, 2, 3, 4]) [false, true]).firstFault 1 ∧ (good [1, 2, 3, 4]).noFaultUpTo 1 :=
  ⟨by decide, by decide, by decide, by decide, by decide, by decide, ⟨by decide, fun _ h => absurd h (by omega)⟩,
    ⟨by decide, fun m h => by obtain rfl : m = 0 := by omega
                              decide⟩, fun m h => good_noFault _ m (by omega)⟩

/-- DECRYPT has ENCRYPT's cases. -/
theorem test_witness_DecryptCompletesInEveryCase :
    let s := good [0xa1, 0xe2, 0xe3, 0xe0]
    s.cfg.wf = true ∧ s.inLen.toNat ≤ s.cfg.bufMax ∧ s.keySizeOk ∧ s.inLen.toNat % s.cfg.blockSize = 0 ∧
    s.ivLen.toNat = s.cfg.blockSize ∧ s.noFaultUpTo 1 ∧ (withFaults s [true]).firstFault 0 ∧
    (withFaults s [false, true]).firstFault 1 :=
  ⟨by decide, by decide, by decide, by decide, by decide, fun m h => good_noFault _ m (by omega),
    ⟨by decide, fun _ h => absurd h (by omega)⟩,
    ⟨by decide, fun m h => by obtain rfl : m = 0 := by omega
                              decide⟩⟩

/-- ENCRYPT_PADDED: no data (one block to send), a fault at the last request, and an IV_LEN one short. -/
theorem test_witness_EncryptPaddedCompletesInEveryCase :
    let s := good []
    s.cfg.wf = true ∧ s.keySizeOk ∧ s.ivLen.toNat = s.cfg.blockSize ∧ s.inLen.toNat / s.cfg.blockSize + 1 = 1 ∧
    s.noFaultUpTo 1 ∧ (withFaults s [false, true]).firstFault 1 ∧
    ({ s with ivLen := 3#32 } : State).ivLen.toNat ≠ s.cfg.blockSize ∧ ¬(setup [] 4 5).keySizeOk :=
  ⟨by decide, by decide, by decide, by decide, fun m h => good_noFault _ m (by omega),
    ⟨by decide, fun m h => by obtain rfl : m = 0 := by omega
                              decide⟩, by decide, by decide⟩

/-- DECRYPT_PADDED's four outcomes after the transform, each on a ciphertext of TOY4 (V-PD-4 is the first one). -/
theorem test_witness_DecryptPaddedCompletesInEveryCase :
    let dp := fun d => (outcome (after (good d) 6)).2
    (good [0xc2, 0x83, 0xe1, 0x81]).cfg.wf = true ∧ dp [0xc2, 0x83, 0xe1, 0x81] = 0x00000002#32 ∧
    dp [] = 0x00001136#32 ∧ dp [0xc2, 0x83, 0xe0, 0x81] = 0x00001236#32 ∧ dp [0xc2, 0x83, 0xe2, 0x81] = 0x00001336#32 ∧
    (good [0xc2, 0x83, 0xe1, 0x81]).noFaultUpTo 1 :=
  ⟨by decide, by decide, by decide, by decide, by decide, fun m h => good_noFault _ m (by omega)⟩

/-- The hypotheses of all six commands' success: for UNPAD data that Pad made, for DECRYPT_PADDED the ciphertext of
V-PD-3. -/
theorem test_witness_CommandsSucceedOnGoodOperands :
    let s := good [0xc2, 0x83, 0xe1, 0x81]
    s.cfg.wf = true ∧ s.inLen.toNat ≤ s.cfg.bufMax ∧ ¬badBlockLen s.blockLen.toNat ∧ s.keySizeOk ∧
    s.ivLen.toNat = s.cfg.blockSize ∧ s.noFaultUpTo (s.inLen.toNat / s.cfg.blockSize + 1) ∧
    s.inLen.toNat % s.cfg.blockSize = 0 ∧
    IsCbcDecryption (primOf s.cfg) s.cfg.blockSize s.keyData s.ivData s.inData
      (pad [0x61#8, 0x62#8, 0x63#8] s.cfg.blockSize) ∧
    (good [0x61, 0x62, 0x63, 0x01]).inData = pad [0x61#8, 0x62#8, 0x63#8] 4 :=
  ⟨by decide, by decide, by decide, by decide, by decide, fun m h => good_noFault _ m (Nat.le_trans h (by decide)),
    by decide, ⟨by decide, fun i h => by
      have h : i < 1 := h
      obtain rfl : i = 0 := by omega
      decide⟩, by decide⟩

/-- Aligned data with no fault, with a fault at `setup` and at the last block; and data of 3 bytes, which only
ENCRYPT_PADDED takes, with a fault at its one block. -/
theorem test_witness_PortRequestsGoInIndexOrder :
    let s := good [0, 1, 2, 3, 4, 5, 6, 7]
    let u := good [1, 2, 3]
    s.cfg.wf = true ∧ s.inLen.toNat ≤ s.cfg.bufMax ∧ s.keySizeOk ∧ s.inLen.toNat % s.cfg.blockSize = 0 ∧
    s.ivLen.toNat = s.cfg.blockSize ∧ (decRequestsOf s.cfg.blockSize s.keyData s.inData).length = 3 ∧ s.noFaultUpTo 2 ∧
    (withFaults s [true]).firstFault 0 ∧ (withFaults s [false, false, true]).firstFault 2 ∧
    u.inLen.toNat % u.cfg.blockSize ≠ 0 ∧ u.keySizeOk ∧ u.ivLen.toNat = u.cfg.blockSize ∧ u.noFaultUpTo 1 ∧
    (withFaults u [false, true]).firstFault 1 :=
  ⟨by decide, by decide, by decide, by decide, by decide, by decide, fun m h => good_noFault _ m (by omega),
    ⟨by decide, fun _ h => absurd h (by omega)⟩,
    ⟨by decide, fun m h => by obtain rfl | rfl : m = 0 ∨ m = 1 := by omega
                              all_goals decide⟩, by decide, by decide, by decide,
    fun m h => good_noFault _ m (by omega),
    ⟨by decide, fun m h => by obtain rfl : m = 0 := by omega
                              decide⟩⟩

/-- Both outcomes: `setup` answered, and `setup` faulting. -/
theorem test_witness_EmptyDataSendsOnlySetup :
    let s := good []
    s.cfg.wf = true ∧ s.inLen = 0#32 ∧ s.keySizeOk ∧ s.ivLen.toNat = s.cfg.blockSize ∧ s.port.draw 0 = false ∧
    (withFaults s [true]).port.draw 0 = true := by decide

theorem test_witness_NoCommandStateSurvives : State.reset.cfg.wf = true := by decide

theorem test_witness_PaddedCommandsIgnoreBlockLen :
    ∃ i : Instr, i = .encryptPadded ∨ i = .decryptPadded := ⟨_, .inl rfl⟩

/-- An OUT byte differs, and nothing else. -/
theorem test_witness_CommandsNeverReadOut :
    let s := good [1]
    s.cfg.wf = true ∧ sameOutside s.cfg .output s.mem (memSet s.mem 0x20000 7#8) ∧ s.mem ≠ memSet s.mem 0x20000 7#8 :=
  ⟨by decide, fun a h => by
    have h : a ≠ 0x20000 := by rintro rfl; exact absurd h (by decide)
    rw [memGet_memSet, if_neg h], by decide⟩

/-- Every operand byte written: PAD and UNPAD, and the other four. -/
theorem test_witness_WrittenOperandsLeaveNoFreeByte :
    (good [1, 2]).cfg.wf = true ∧ (good [1, 2]).operandsWritten .pad ∧ (good [1, 2]).operandsWritten .decryptPadded := by
  have h1 : (good [1, 2]).written .input (good [1, 2]).inLen.toNat := by
    change ∀ k, k < 2 → _
    decide
  refine ⟨by decide, h1, h1, ?_, ?_⟩
  all_goals
    change ∀ k, k < 4 → _
    decide

theorem test_witness_ErrorRecordsFollowTheTable :
    (running 0#32).status.busy = true ∧ decodeWord (running 0#32).cmd = .error (.reservedOp 0#32) ∧
    (running 0#32).cfg.wf = true := by decide

theorem test_witness_PadLaws :
    (1 ≤ 1 ∧ 1 ≤ 255 ∧ 255 ≤ 255) ∧ ([] : Bytes).length % 255 = 0 ∧ (pad ([] : Bytes) 1).length = 1 ∧
    padLength 3 8 = 5 := by decide

theorem test_witness_UnpadInvertsPad :
    (unpadOp .constantTime (pad [7#8] 8) 8 .cbc).1 = .ok [7#8] ∧ (unpadOp .earlyExit (pad [] 1) 1 .unpad).1 = .ok [] := by
  decide

theorem test_witness_UnpadAcceptsExactlyPadImages :
    (unpadOp .earlyExit [0x61#8, 1#8] 2 .unpad).1 = .ok [0x61#8] ∧ [0x61#8, 1#8] = pad [0x61#8] 2 := by decide

/-- A region byte changed at either end of its range, a last byte whose new claim is invalid (0, n + 1, a mismatch), and
one whose new claim is valid (1). -/
theorem test_witness_ChangedPaddingIsRejected :
    let x := pad [0x61#8, 0x62#8, 0x63#8] 8
    (x.length - padLength 3 8 ≤ 3 ∧ 3 < x.length - 1 ∧ x[3]? ≠ some 0#8) ∧ (6 < x.length - 1 ∧ x[6]? ≠ some 4#8) ∧
    (9#8 : Byte).toNat ≠ padLength 3 8 ∧ 8 < (9#8 : Byte).toNat ∧ ¬allEqual (lastBytes (x.set 7 4#8) 4) 4#8 ∧
    (1#8 : Byte).toNat ≠ padLength 3 8 ∧ allEqual (lastBytes (x.set 7 1#8) 1) 1#8 := by decide

theorem test_witness_ScanModesAgree :
    let d : Bytes := [0x61, 0x62, 0x63, 5, 5, 4, 5, 5]
    (5#8 : Byte).toNat ≤ 8 ∧ 8 ≤ d.length ∧ (2 < (5#8 : Byte).toNat ∧ (lastBytes d 5)[2]? ≠ some 5#8 ∧
      ∀ j, j < 2 → (lastBytes d 5)[j]? = some 5#8) := by decide

/-- TOY4 keeps the laws of 41_cbc.md R82. -/
theorem test_toy4_lawful : toy4Prim.Lawful Config.toy4 := by
  intro k x hk hx
  obtain ⟨k0, k1, k2, k3, rfl⟩ : ∃ a b c d, k = [a, b, c, d] := by
    have hk : k.length = 4 := by simpa [Config.toy4] using hk
    match k, hk with
    | [a, b, c, d], _ => exact ⟨a, b, c, d, rfl⟩
  obtain ⟨x0, x1, x2, x3, rfl⟩ : ∃ a b c d, x = [a, b, c, d] := by
    match x, hx with
    | [a, b, c, d], _ => exact ⟨a, b, c, d, rfl⟩
  simp [toy4Prim, Config.toy4, List.range, List.range.loop]

theorem good_written (d : Bytes) : (good d).written .key 4 ∧ (good d).written .iv 4 := by
  constructor <;> intro k hk <;>
    · change (memGet (memSetBytes _ 0x10000 d) _).isSome = true
      rw [memGet_memSetBytes, if_neg (by simp only [bufStart]; omega)]
      revert k
      decide

theorem test_witness_EncryptThenDecryptRestoresData :
    let s := good [0, 1, 2, 3, 4, 5, 6, 7]
    s.cfg.wf = true ∧ (primOf s.cfg).Lawful s.cfg ∧ s.inLen.toNat ≤ s.cfg.bufMax ∧ s.keySizeOk ∧
    s.ivLen.toNat = s.cfg.blockSize ∧ s.inLen.toNat % s.cfg.blockSize = 0 ∧ s.written .key s.keyLen.toNat ∧
    s.written .iv s.ivLen.toNat ∧ s.noFaultUpTo (2 * (s.inLen.toNat / s.cfg.blockSize) + 1) :=
  ⟨by decide, test_toy4_lawful, by decide, by decide, by decide, by decide, (good_written _).1, (good_written _).2,
    fun m h => good_noFault _ m (Nat.le_trans h (by decide))⟩

/-- The empty sequence, and exactly one block. -/
theorem test_witness_PaddedRoundTripRestoresData (d : Bytes) (hd : d = [] ∨ d = [0x61, 0x62, 0x63, 0x64]) :
    let s := good d
    s.cfg.wf = true ∧ (primOf s.cfg).Lawful s.cfg ∧
    s.inLen.toNat + s.cfg.blockSize - s.inLen.toNat % s.cfg.blockSize ≤ s.cfg.bufMax ∧ s.keySizeOk ∧
    s.ivLen.toNat = s.cfg.blockSize ∧ s.written .key s.keyLen.toNat ∧ s.written .iv s.ivLen.toNat ∧
    s.noFaultUpTo (2 * (s.inLen.toNat / s.cfg.blockSize) + 3) := by
  obtain rfl | rfl := hd <;>
    exact ⟨by decide, test_toy4_lawful, by decide, by decide, by decide, (good_written _).1, (good_written _).2,
      fun m h => good_noFault _ m (Nat.le_trans h (by decide))⟩

theorem test_witness_PadThenUnpadRestoresData :
    let s := good [0x61, 0x62, 0x63, 0x64]
    s.cfg.wf = true ∧ ¬badBlockLen s.blockLen.toNat ∧ s.inLen.toNat ≤ s.cfg.bufMax ∧
    (pad s.inData s.blockLen.toNat).length ≤ s.cfg.bufMax := by decide

/-- Each of the three malformed cases at a boundary, and the well-formed neighbours. -/
theorem test_witness_BusErrorsExactlyWhenMalformed :
    let bad := fun off n : Nat => (n ≠ 1 ∧ n ≠ 4) ∨ (n = 4 ∧ off % 4 ≠ 0) ∨ (n = 1 ∧ off < 0x100)
    bad 0x100 2 ∧ bad 0x101 4 ∧ bad 0x0FF 1 ∧ ¬bad 0x100 1 ∧ ¬bad 0x0FC 4 := by decide

theorem test_witness_RegistersReadAtTheirOffsets :
    (0x030 ≤ 0x030 ∧ 0x0FC < 0x100 ∧ 0x0FC % 4 = 0) ∧ State.reset.readValue 0x030 4 = 0#32 := by decide

theorem test_witness_KeySizesMaskHasOneBitPerSize :
    (∀ x ∈ [1, 32], 1 ≤ x ∧ x ≤ 32) ∧ (keySizesMask [1, 32]).getLsbD 0 = true ∧
    (keySizesMask [1, 32]).getLsbD 31 = true ∧ (keySizesMask [1, 32]).getLsbD 30 = false := by decide

theorem test_witness_StatusLayoutAndWrite :
    State.reset.status.busy = false ∧ (running 1#32).status.busy = true := by decide

theorem test_witness_WindowAccessIsLittleEndian :
    (0x100 ≤ 0x100 ∧ 0x100 % 4 = 0) ∧ ((good []).writeValue 0x200 4 0x44332211#32).readValue 0x202 1 = 0x33#32 := by
  decide

/-- The first and last byte of IV, IN and KEY, and a register. -/
theorem test_witness_WritesAreVisibleAtOnce :
    let s := good []
    s.cfg.wf = true ∧ s.status.busy = false ∧ inBuffer s.cfg .iv 0x200 = true ∧ inBuffer s.cfg .iv 0x2FF = true ∧
    inBuffer s.cfg .input 0x10000 = true ∧ inBuffer s.cfg .input 0x10FFF = true ∧ inBuffer s.cfg .key 0x100 = true ∧
    inBuffer s.cfg .key 0x11F = true ∧ Reg.ivLen ≠ Reg.keyLen := by decide

theorem test_witness_ReadOnlyAndWriteOnlyTargets :
    let s := good []
    s.cfg.wf = true ∧ s.status.busy = false ∧ inBuffer s.cfg .output 0x20000 = true ∧
    inBuffer s.cfg .output 0x210FE = true ∧ inBuffer s.cfg .output 0x210FF = false ∧
    inBuffer s.cfg .key 0x100 = true := by decide

/-- The reserved gaps after KEY, IV, IN and OUT. -/
theorem test_witness_ReservedOffsetsReadZeroAndIgnoreWrites :
    (∀ off ∈ [0x120, 0x1FF, 0x300, 0xFFFF, 0x11000, 0x1FFFF, 0x210FF, 0x3FFFF], ∀ b ∈ [Buffer.key, .iv, .input, .output],
      inBuffer Config.toy4 b off = false) ∧ (0x030 ≤ 0x0FC ∧ 0x0FC < 0x100 ∧ 0x0FC % 4 = 0) := by decide

theorem test_witness_WritesWhileBusyAreDropped :
    (running 1#32).status.busy = true ∧ isBusError 0x000 4 = false ∧ isBusError 0x100 1 = false ∧
    (good []).status.busy = false := by decide

theorem test_witness_CmdWriteStartsACommand : State.reset.status.busy = false := by decide

/-- The invariant at reset. -/
theorem test_reset_inv : State.reset.Inv where
  cfg := by decide
  canonical := by decide
  inBuffers := by decide
  notBusyAndDone := by decide
  busyReadsClear := by decide
  row := ⟨by decide, by decide⟩
  infoClear := by decide
  errorOutLen := by decide
  idleFresh := by decide
  outFits := by decide
  outWritten := fun k h => absurd h (by rw [show State.reset.outLen.toNat = 0 from rfl]; omega)
  hidden := by decide

/-- The invariant in a state where a command runs over written operands. -/
theorem test_running_inv : (running 1#32).Inv where
  cfg := by decide
  canonical := by decide
  inBuffers := by decide
  notBusyAndDone := by decide
  busyReadsClear := by decide
  row := ⟨by decide, by decide⟩
  infoClear := by decide
  errorOutLen := by decide
  idleFresh := by decide
  outFits := by decide
  outWritten := fun k h => absurd h (by rw [show (running 1#32).outLen.toNat = 0 from rfl]; omega)
  hidden := by decide

theorem test_witness_ReadsAndWritesAreIdempotent :
    (running 1#32).Inv ∧ (∀ k, k < 4 → (memGet (running 1#32).mem (0x200 + k)).isSome = true) ∧
    State.reset.Inv ∧ State.reset.status.busy = false ∧ (0x004 : Nat) ≠ 0x000 :=
  ⟨test_running_inv, by decide, test_reset_inv, by decide, by decide⟩

/-- A KEY byte differs, and the host reads that byte. -/
theorem test_witness_HostCannotLearnKey :
    let s := withTurn (good []) .host [.access (.read 0x100 1)]
    s.cfg.wf = true ∧ sameOutside s.cfg .key s.mem (memSet s.mem 0x100 0x99#8) ∧
    s.mem ≠ memSet s.mem 0x100 0x99#8 ∧ ∃ t, hostTurn s = .next t :=
  ⟨by decide, fun a h => by
    have h : a ≠ 0x100 := by rintro rfl; exact absurd h (by decide)
    rw [memGet_memSet, if_neg h], by decide, _, rfl⟩

/-- `wait` while busy and while idle; the last of each sequence. -/
theorem test_witness_HostNotationExpands :
    (withTurn (running 1#32) .host [.wait]).cfg.wf = true ∧ (withTurn (running 1#32) .host [.wait]).host = .wait :: [] ∧
    (withTurn (good []) .host [.wait]).status.busy = false ∧
    (HostOp.expand 0 (.wbytes 0x100 [1, 2]))[1]? = some (.access (.write 0x101 1 2#32)) ∧
    (HostOp.expand 0 (.wwords 0x100 [1, 2]))[1]? = some (.access (.write 0x104 4 2#32)) ∧
    (HostOp.expand 0 (.rbytes 0x100 2))[1]? = some (.access (.read 0x101 1)) := by decide

/-- One address below the aperture, one past it, and the last inside; an access at the head of the host's program. -/
theorem test_witness_ApertureDecodesFromBase :
    let c : Config := { Config.toy4 with base := 0x40000 }
    let s := withTurn (good []) .host [.access (.read 0x40000 1), .access (.read 0 4)]
    ¬(c.base ≤ (Access.read 0x3FFFF 1).addr ∧ (Access.read 0x3FFFF 1).addr < c.base + 0x40000) ∧
    ¬(c.base ≤ (Access.read 0x80000 1).addr ∧ (Access.read 0x80000 1).addr < c.base + 0x40000) ∧
    (0x3FFFF < 0x40000 ∧ (Access.read 0x7FFFF 1).addr = c.base + 0x3FFFF) ∧
    s.cfg.wf = true ∧ s.nextTurn = .host ∧ s.host = .access (.read 0x40000 1) :: [.access (.read 0 4)] := by decide

/-- R40: an access outside the aperture changes nothing of the PCU, and the command that runs still completes. -/
theorem test_outside_access_leaves_the_run_going :
    let s := { running 1#32 with host := [.access (.write 0x40000 4 7#32)], turns := [.host] }
    ∃ t u, step s = .next t ∧ t.status = s.status ∧ t.mem = s.mem ∧ t.host = [] ∧ step t = .next u ∧
      u.status.word = 0x00000002#32 := ⟨_, _, rfl, rfl, rfl, rfl, rfl, by decide⟩

theorem test_witness_ResetWinsAndAborts :
    let s := withTurn (running 1#32) .reset [.access (.write 0 4 2#32)]
    s.cfg.wf = true ∧ s.nextTurn = .reset := by decide

/-- A step between two states of the invariant. -/
theorem test_witness_EveryStepKeepsTheInvariant :
    State.reset.Inv ∧ (∃ t, step State.reset = .next t) ∧ (running 1#32).Inv ∧ ∃ t, step (running 1#32) = .next t :=
  ⟨test_reset_inv, ⟨_, rfl⟩, test_running_inv, _, rfl⟩

/-- A CMD write starting a command, a completion ending one, a reset ending one, and results that an access leaves. -/
theorem test_witness_BusyAndResultsRule :
    (∃ t, step (withTurn (good []) .host [.access (.write 0 4 1#32)]) = .next t ∧ t.status.busy = true) ∧
    (good []).status.busy = false ∧ (running 1#32).status.busy = true ∧
    (∃ t, step (withTurn (running 1#32) .sequencer []) = .next t ∧ t.status.busy = false) ∧
    (∃ t, step (withTurn (running 1#32) .reset []) = .next t ∧ t.status.busy = false) ∧
    (withTurn (running 1#32) .sequencer []).nextTurn = .sequencer ∧
    let done := withTurn (after (good [1]) 1) .host [.access (.write 0xC 4 9#32)]
    done.resultsValid ∧ 1 < done.cfg.outMax ∧ done.nextTurn ≠ .reset ∧
      ∃ t, step done = .next t ∧ t.status.busy = false :=
  ⟨⟨_, rfl, by decide⟩, by decide, by decide, ⟨_, rfl, by decide⟩, ⟨_, rfl, by decide⟩, by decide,
    ⟨by decide, by decide⟩, by decide, by decide, _, rfl, by decide⟩

/-- ACCESS_ERR set by a dropped write, cleared by a STATUS write with bit 31, and cleared by a reset. -/
theorem test_witness_AccessErrIsSticky :
    let err := { good [] with status := { (good []).status with accessErr := true } }
    (running 1#32).status.accessErr = false ∧ err.status.accessErr = true ∧
    (∃ t, step (withTurn (running 1#32) .host [.access (.write 0xC 4 1#32)]) = .next t ∧ t.status.accessErr = true) ∧
    isBusError 0xC 4 = false ∧
    (∃ t, step (withTurn err .host [.access (.write 4 4 0x80000000#32)]) = .next t ∧ t.status.accessErr = false) ∧
    (∃ t, step (withTurn err .reset []) = .next t ∧ t.status.accessErr = false) :=
  ⟨by decide, by decide, ⟨_, rfl, by decide⟩, by decide, ⟨_, rfl, by decide⟩, ⟨_, rfl, by decide⟩⟩

/-- The first and the last byte of a committed result, and an OUT byte that a reset takes away. -/
theorem test_witness_OnlyACommitWritesOut :
    let s := withTurn (running 1#32) .sequencer []
    let r := withTurn { good [] with mem := [(0x20000, 5#8)] } .reset []
    s.cfg.wf = true ∧ 7 < s.cfg.outMax ∧
    (∃ t, step s = .next t ∧ t.outLen = 8#32 ∧ memGet t.mem 0x20000 ≠ memGet s.mem 0x20000 ∧
      memGet t.mem 0x20007 ≠ memGet s.mem 0x20007) ∧
    (∃ t, step r = .next t ∧ memGet t.mem 0x20000 ≠ memGet r.mem 0x20000) :=
  ⟨by decide, by decide, ⟨_, rfl, by decide, by decide, by decide⟩, ⟨_, rfl, by decide⟩⟩

/-- The sequencer's turn, and a busy PCU in the host's turn. -/
theorem test_witness_OperandsBelongToTheHost :
    let s := withTurn (running 1#32) .sequencer []
    let h := withTurn (running 1#32) .host [.access (.write 0x10000 1 9#32)]
    s.cfg.wf = true ∧ s.nextTurn ≠ .reset ∧ s.nextTurn ≠ .host ∧ (∃ t, step s = .next t) ∧ h.nextTurn = .host ∧
    h.status.busy = true ∧ (∃ t, step h = .next t) ∧ inBuffer h.cfg .input 0x10000 = true :=
  ⟨by decide, by decide, by decide, ⟨_, rfl⟩, by decide, by decide, ⟨_, rfl⟩, by decide⟩

/-- The invariant does not speak of the host's program or the turns. -/
theorem inv_withTurn {s : State} (h : s.Inv) (t : Turn) (p : List HostStep) : (withTurn s t p).Inv :=
  ⟨h.cfg, h.canonical, h.inBuffers, h.notBusyAndDone, h.busyReadsClear, h.row, h.infoClear, h.errorOutLen, h.idleFresh,
    h.outFits, h.outWritten, h.hidden⟩

theorem test_witness_NothingPartialIsVisibleWhileBusy :
    let s := withTurn (running 3#32) .host [.access (.read 0x20000 4)]
    let w := withTurn (running 1#32) .work []
    (withTurn (running 1#32) .host [.access (.read 0x20000 4)]).Inv ∧ w.Inv ∧ s.status.busy = true ∧ s.nextTurn = .host ∧
    w.nextTurn = .work ∧ (∃ t, step s = .next t) ∧ ∃ t, step w = .next t :=
  ⟨inv_withTurn test_running_inv _ _, inv_withTurn test_running_inv _ _, by decide, by decide, by decide, ⟨_, rfl⟩, _, rfl⟩

theorem test_witness_WriteAgainstCompletionBothOrders :
    let s := withTurn (running 1#32) .host [.access (.write 0x00C 4 2#32)]
    s.cfg.wf = true ∧ s.status.busy = true ∧ s.host = [.access (.write (s.cfg.base + 0x00C) 4 2#32)] := by decide

/-- A work turn that has something to do: ENCRYPT gets to its `setup` request. -/
theorem test_witness_WorkIsUnobservable :
    let s := withTurn (running 3#32) .work []
    s.cfg.wf = true ∧ s.nextTurn = .work ∧
    ∃ t, step s = .next t ∧ t.seq.pending = some (.setup [0x10, 0x20, 0x30, 0x40]) :=
  ⟨by decide, by decide, _, rfl, by decide⟩

/-- Work turns with nothing pending, at `setup` and at a block; a command with nothing left to do; an illegal word. PAD and
UNPAD with a result, UNPAD with an error. The first and the last block, and no fault at all. -/
theorem test_witness_HiddenStateWhileRunning :
    let s := good [0, 1, 2, 3, 4, 5, 6, 7]
    let w := fun q => withTurn { running 3#32 with seq := q } .work []
    let q := s.hiddenAt .encrypt
    ((w Seq.discarded).cfg.wf = true ∧ (w Seq.discarded).nextTurn = .work ∧ (w Seq.discarded).status.busy = true ∧
      decodeWord (w Seq.discarded).cmd = .ok .encrypt ∧ (q 0).pending = some (.setup s.keyData) ∧
      (q 2).pending ≠ none ∧ (q 3).pending = none ∧ (q 3).handle.isSome = true ∧
      decodeWord (running 7#32).cmd = .error (.reservedOp 7#32)) ∧
    (¬badBlockLen s.blockLen.toNat ∧ (unpadOp .earlyExit (good [7, 1]).inData 2 .unpad).1 = .ok [7] ∧
      ∃ e, (unpadOp .earlyExit (good [7, 0]).inData 2 .unpad).1 = .error e) ∧
    s.cfg.wf = true ∧ s.inLen.toNat ≤ s.cfg.bufMax ∧ s.keySizeOk ∧ s.inLen.toNat % s.cfg.blockSize = 0 ∧
    s.ivLen.toNat = s.cfg.blockSize ∧ 1 < s.inLen.toNat / s.cfg.blockSize ∧ s.noFaultUpTo 0 ∧ s.noFaultUpTo 3 :=
  ⟨by decide, ⟨by decide, by decide, _, rfl⟩, by decide, by decide, by decide, by decide, by decide, by decide,
    fun m h => good_noFault _ m (by omega), fun m h => good_noFault _ m (by omega)⟩

/-- The last of DECRYPT_PADDED's work on V-PD-4: RES holds the data, and the scan has visited the one padding byte. -/
theorem test_hidden_decryptPadded :
    let q := (good [0xc2, 0x83, 0xe1, 0x81]).hiddenAt .decryptPadded 2
    q.res = [0x61, 0x62, 0x63] ∧ q.scanIndex = 1 := by decide

/-- A program with an access outside the aperture, and an ill-formed configuration. -/
theorem test_witness_EveryStepAnswers :
    (withTurn (good []) .host [.access (.read 0x40000 1)]).cfg.wf = true ∧
    ({ State.reset with cfg := { Config.default with bufMax := 0 } } : State).cfg.wf = false := by decide

/-- No turn on the list, and each agent's turn but reset. -/
theorem test_witness_IdleKeepsEverything :
    let s := good [1]
    s.cfg.wf = true ∧ s.status.busy = false ∧ s.host = [] ∧ s.nextTurn ≠ .reset ∧
    ∀ t ∈ [Turn.host, .sequencer, .work], (withTurn s t []).nextTurn ≠ .reset := by decide

/-- A busy PCU whose log ends with its start, and a run that has ended. -/
theorem test_witness_EndedRunHasNoRunningCommand :
    (∃ t, step (withTurn (good []) .host [.access (.write 0 4 1#32)]) = .next t ∧ t.status.busy = true ∧
      polledSinceStart t.cfg t.events = false ∧ ∃ u, step t = .next u) ∧
    State.reset.ended :=
  ⟨⟨_, rfl, by decide, by decide, _, rfl⟩, by decide, by decide⟩

/-- R131: a run that started a command, was reset and read no STATUS has not ended; a poll after the reset ends it. -/
theorem test_reset_is_no_poll :
    let started := [Event.bus (.write 0 4 1#32) .written]
    polledSinceStart Config.toy4 (.reset :: started) = false ∧
    polledSinceStart Config.toy4 (.bus (.read 4 4) (.value 0#32) :: .reset :: started) = true := by decide

end Sys2Proof.Tests
end

/-! ## The state (10_state.md): the invariant, and the rules that say what changes what

Every step is one of eight effects (`StepEffect`); the invariant and the safety rules are case analyses over them. -/

namespace Sys2Proof.Machine

/-! ### Everything a step can do -/

/-- The effects a step may have on the PCU. The other agents' turns, program, log and read count after it (`ts`, `hs`,
`ev`, `r`) are left open; a host write is named with the access that makes it. -/
inductive StepEffect (s : State) : State → Prop
  /-- Nothing of the PCU changes: a read, a bus error, an access outside the aperture, or nothing to do. -/
  | nothing {ts hs ev r} (noReset : s.nextTurn ≠ .reset) (idle : s.nextTurn = .sequencer → s.status.busy = false) :
      StepEffect s { s with turns := ts, host := hs, events := ev, reads := r }
  /-- A write while BUSY is dropped (60_exceptions.md R106). -/
  | dropped {ts hs ev r off n v rest} (turn : s.nextTurn = .host) (busy : s.status.busy = true)
      (write : s.host = .access (.write (s.cfg.base + off) n v) :: rest) (inside : off < 0x40000)
      (accepted : isBusError off n = false) :
      StepEffect s { s with status := s.status.dropped, turns := ts, host := hs, events := ev, reads := r }
  /-- A CMD write starts a command (60_exceptions.md R105). -/
  | started {ts hs ev r w} (write : s.startsNext w) (idle : s.status.busy = false) :
      StepEffect s { s.startCommand w with turns := ts, host := hs, events := ev, reads := r }
  /-- A STATUS write acts on ACCESS_ERR (10_state.md R17). -/
  | statusWritten {ts hs ev r w rest} (turn : s.nextTurn = .host) (idle : s.status.busy = false)
      (write : s.host = .access (.write (s.cfg.base + 0x004) 4 w) :: rest) :
      StepEffect s { s with status := s.status.hostWrite w, turns := ts, host := hs, events := ev, reads := r }
  /-- A write of operand registers or of bytes the host may write (10_state.md R14, R29 to R31). -/
  | operandsWritten {ts hs ev r bl il kl vl m} (turn : s.nextTurn = .host) (idle : s.status.busy = false)
      (write : HostMemWrite s.cfg s.mem m) :
      StepEffect s
        { s with
          blockLen := bl, inLen := il, keyLen := kl, ivLen := vl, mem := m
          turns := ts, host := hs, events := ev, reads := r }
  /-- The running command completes (60_exceptions.md R103, R104). -/
  | completed {res sent} (turn : s.nextTurn = .sequencer) (busy : s.status.busy = true) (fits : res.fits s.cfg) :
      StepEffect s (s.popTurn.complete res sent)
  /-- Hidden progress of the running command (10_state.md R34). -/
  | worked {ts q} (turn : s.nextTurn = .work) (busy : s.status.busy = true) :
      StepEffect s { s with turns := ts, seq := q }
  /-- Reset (70_reset_and_hazards.md R118). -/
  | reset (turn : s.nextTurn = .reset) : StepEffect s s.popTurn.applyReset

/-- What the host's turn does to a state is one of the effects. -/
theorem stepEffect_of_hostTurn {s t : State} (hn : s.nextTurn = .host) (h : hostTurn s.popTurn = .next t) :
    StepEffect s t := by
  obtain ⟨hs, ev, r, hcase⟩ := hostTurn_cases h
  rcases hcase with rfl | ⟨hb, ⟨off, n, v, rest, hw, hoff, he⟩, rfl⟩ | ⟨hb, w, rest, hw, rfl⟩ |
    ⟨hb, w, rest, hw, rfl⟩ | ⟨hb, -, bl, il, kl, vl, m, rfl, hm⟩
  · exact .nothing (by simp [hn]) (by simp [hn])
  · exact .dropped hn hb hw hoff he
  · exact .started ⟨hn, rest, hw⟩ hb
  · exact .statusWritten hn hb hw
  · exact .operandsWritten hn hb hm

/-- A work turn is hidden progress while BUSY, and nothing while idle. -/
theorem stepEffect_of_workTurn {s : State} (hn : s.nextTurn = .work) : StepEffect s (workTurn s.popTurn) := by
  cases hb : s.status.busy with
  | false =>
    rw [workTurn_idle (s := s.popTurn) hb]
    exact .nothing (by simp [hn]) (by simp [hn])
  | true =>
    rw [workTurn_eq]
    exact .worked hn hb

/-- Every step that answers has one of the effects, in a well-formed configuration. -/
theorem step_effect {s t : State} (h : step s = .next t) : s.cfg.wf = true ∧ StepEffect s t := by
  obtain ⟨hc, hcase⟩ := step_next h
  refine ⟨hc, ?_⟩
  rcases hcase with ⟨hn, hh⟩ | ⟨hn, hb, rfl⟩ | ⟨hn, hb, res, sent, rfl, hf⟩ | ⟨hn, rfl⟩ | ⟨hn, rfl⟩
  · exact stepEffect_of_hostTurn hn hh
  · exact .nothing (by simp [hn]) fun _ => hb
  · exact .completed hn hb hf
  · exact stepEffect_of_workTurn hn
  · exact .reset hn

/-! ### The invariant -/

/-- The invariant does not speak of the other agents' data. -/
theorem State.Inv.withAgents {s : State} (h : s.Inv) (ts : List Turn) (hs : List HostStep) (ev : List Event) (r : Nat) :
    ({ s with turns := ts, host := hs, events := ev, reads := r } : State).Inv :=
  { h with }

/-- A command start: BUSY, and the row of the table without an error (60_exceptions.md R105). -/
theorem State.Inv.startCommand {s : State} (h : s.Inv) (w : Word) : (s.startCommand w).Inv :=
  { h with
    notBusyAndDone := fun _ => rfl
    busyReadsClear := fun _ => rfl
    row := ⟨rfl, List.mem_singleton_self _⟩
    infoClear := fun _ => ⟨rfl, rfl⟩
    errorOutLen := fun he => absurd rfl he
    idleFresh := nofun
    hidden := nofun }

/-- ACCESS_ERR is no part of the invariant. -/
theorem State.Inv.withAccessErr {s : State} (h : s.Inv) (b : Bool) :
    ({ s with status := { s.status with accessErr := b } } : State).Inv :=
  { h with }

/-- A byte the host may write lies in a buffer. -/
theorem isSome_bufferAt_of_hostWritable {c : Config} {off : Nat} (h : hostWritable c off = true) :
    (bufferAt c off).isSome = true := by
  unfold hostWritable at h
  cases hat : bufferAt c off with
  | none => simp [hat] at h
  | some b => rfl

/-- A write of operands keeps the canonical memory and every byte of the last result. -/
theorem State.Inv.writeOperands {s : State} (h : s.Inv) (bl il kl vl : Word) {m : Memory}
    (hm : HostMemWrite s.cfg s.mem m) :
    ({ s with blockLen := bl, inLen := il, keyLen := kl, ivLen := vl, mem := m } : State).Inv :=
  { h with
    canonical := hm.canonical h.canonical
    inBuffers := fun c hcm => (hm.entries c hcm).elim (h.inBuffers c) isSome_bufferAt_of_hostWritable
    outWritten := fun k hk => hm.written _ (h.outWritten k hk) }

/-- A successful completion writes its result into OUT and nowhere else (60_exceptions.md R104). -/
theorem State.Inv.commitResult {s : State} (h : s.Inv) {r : Bytes} (hr : r.length ≤ s.cfg.outMax)
    (sent : List Request) : (s.complete (.ok r) sent).Inv where
  cfg := h.cfg
  canonical := memSetBytes_wf r h.canonical _
  inBuffers := fun c hcm => by
    rcases mem_memSetBytes hcm with ⟨hlo, hhi⟩ | hold
    · have hat : bufferAt s.cfg c.1 = some .output :=
        (bufferAt_eq_some h.cfg).2 ((inBuffer_iff ..).2 ⟨hlo, by simp only [bufCap]; omega⟩)
      exact Option.isSome_of_mem hat
    · exact h.inBuffers c hold
  notBusyAndDone := nofun
  busyReadsClear := nofun
  row := ⟨rfl, List.mem_singleton_self _⟩
  infoClear := fun _ => ⟨rfl, rfl⟩
  errorOutLen := fun he => absurd rfl he
  idleFresh := nofun
  outFits := (Nat.mod_le ..).trans hr
  outWritten := fun k hk => by
    have hk' : k < r.length := hk.trans_le (Nat.mod_le ..)
    rw [(committed_complete s r sent).out k hk', List.getElem?_eq_getElem hk', Option.isSome_some]
  hidden := fun _ => rfl

/-- An error completion stands in the error's row, with nothing in OUT (60_exceptions.md R103). -/
theorem State.Inv.raiseError {s : State} (h : s.Inv) {e : ErrorRec} (he : (CmdResult.error e).fits s.cfg)
    (sent : List Request) : (s.complete (.error e) sent).Inv :=
  { h with
    notBusyAndDone := nofun
    busyReadsClear := nofun
    row := ⟨he.1, he.2.1⟩
    infoClear := fun hs => absurd hs he.2.2
    errorOutLen := fun _ => rfl
    idleFresh := nofun
    outFits := Nat.zero_le _
    outWritten := fun _ hk => absurd hk (Nat.not_lt_zero _)
    hidden := fun _ => rfl }

theorem State.Inv.complete {s : State} (h : s.Inv) {res : CmdResult} (hf : res.fits s.cfg) (sent : List Request) :
    (s.complete res sent).Inv := by
  cases res with
  | ok r => exact h.commitResult hf sent
  | error e => exact h.raiseError hf sent

/-- After a reset of a well-formed configuration the invariant holds, whatever there was before (10_state.md R37). -/
theorem inv_applyReset {s : State} (hc : s.cfg.wf = true) : s.applyReset.Inv where
  cfg := hc
  canonical := .nil
  inBuffers := nofun
  notBusyAndDone := nofun
  busyReadsClear := nofun
  row := ⟨rfl, List.mem_singleton_self _⟩
  infoClear := fun _ => ⟨rfl, rfl⟩
  errorOutLen := fun _ => rfl
  idleFresh := fun _ _ => ⟨rfl, rfl, rfl⟩
  outFits := Nat.zero_le _
  outWritten := fun _ hk => absurd hk (Nat.not_lt_zero _)
  hidden := fun _ => rfl

/-- Settles O49: each of the effects of a step keeps the invariant. -/
theorem everyStepKeepsTheInvariant : Obligations.EveryStepKeepsTheInvariant := by
  intro s t h hstep
  cases (step_effect hstep).2 with
  | nothing => exact h.withAgents ..
  | dropped => exact (h.withAccessErr true).withAgents ..
  | @started _ _ _ _ w => exact (h.startCommand w).withAgents ..
  | statusWritten =>
    rw [Status.hostWrite_eq]
    exact (h.withAccessErr (s.status.accessErr && _)).withAgents ..
  | operandsWritten _ _ hm => exact (h.writeOperands _ _ _ _ hm).withAgents ..
  | completed _ _ hf => exact (h.withAgents s.turns.tail s.host s.events s.reads).complete hf _
  | worked _ hb => exact { h with hidden := fun hi => by simp [hb] at hi }
  | reset => exact inv_applyReset h.cfg

/-- Settles O48: the state at reset is a reset state of the default configuration. -/
theorem resetSatisfiesTheInvariant : Obligations.ResetSatisfiesTheInvariant :=
  { inv_applyReset (s := State.reset) (by decide) with }

end Sys2Proof.Machine

/-! ### What changes the registers and the buffers (10_state.md R14 to R32) -/

namespace Sys2Proof.Machine

/-- BUSY rises only by a CMD write, which leaves OUT_LEN (10_state.md R18, 60_exceptions.md R105). -/
theorem StepEffect.starts_of_busy_rises {s t : State} (h : StepEffect s t) (hs : s.status.busy = false)
    (ht : t.status.busy = true) : ∃ w, s.startsNext w ∧ t.cmd = w ∧ t.outLen = s.outLen := by
  cases h with
  | started hw => exact ⟨_, hw, rfl, rfl⟩
  | nothing | operandsWritten => exact absurd (hs.symm.trans ht) (by decide)
  | statusWritten => rw [Status.hostWrite_eq] at ht; exact absurd (hs.symm.trans ht) (by decide)
  | dropped _ hb | completed _ hb | worked _ hb => exact absurd (hs.symm.trans hb) (by decide)
  | reset => exact absurd ht Bool.false_ne_true

/-- BUSY falls only by a completion or a reset (10_state.md R18). -/
theorem StepEffect.turn_of_busy_falls {s t : State} (h : StepEffect s t) (hs : s.status.busy = true)
    (ht : t.status.busy = false) : s.nextTurn = .sequencer ∨ s.nextTurn = .reset := by
  cases h with
  | completed hn => exact .inl hn
  | reset hn => exact .inr hn
  | nothing | dropped | worked => exact absurd (hs.symm.trans ht) (by decide)
  | started _ hb | statusWritten _ hb | operandsWritten _ hb => exact absurd (hs.symm.trans hb) (by decide)

/-- The sequencer's turn completes the command while BUSY (10_state.md R18). -/
theorem StepEffect.resultsValid_of_sequencer {s t : State} (h : StepEffect s t) (hs : s.status.busy = true)
    (hn : s.nextTurn = .sequencer) : t.resultsValid := by
  cases h with
  | completed => exact ⟨(complete_status ..).1, (complete_status ..).2.1⟩
  | nothing _ hi => exact absurd (hs.symm.trans (hi hn)) (by decide)
  | started hw => exact absurd (hn.symm.trans hw.1) (by decide)
  | dropped hn' | statusWritten hn' | operandsWritten hn' | worked hn' | reset hn' =>
    exact absurd (hn.symm.trans hn') (by decide)

/-- The result fields change only by a reset, a completion or a command start (10_state.md R19, R24, R25). -/
theorem StepEffect.sameResults {s t : State} (h : StepEffect s t) :
    s.nextTurn = .reset ∨ (s.nextTurn = .sequencer ∧ s.status.busy = true) ∨
      (s.status.busy = false ∧ t.status.busy = true) ∨ s.SameResults t := by
  cases h with
  | reset hn => exact .inl hn
  | completed hn hb => exact .inr (.inl ⟨hn, hb⟩)
  | started _ hb => exact .inr (.inr (.inl ⟨hb, rfl⟩))
  | nothing | dropped | operandsWritten | worked => exact .inr (.inr (.inr ⟨rfl, rfl, rfl, rfl, rfl, rfl, rfl⟩))
  | statusWritten =>
    rw [Status.hostWrite_eq]
    exact .inr (.inr (.inr ⟨rfl, rfl, rfl, rfl, rfl, rfl, rfl⟩))

/-- The length of a result that fits OUT is a register value (00_scope.md R5, R7). -/
theorem wordOf_length_toNat {c : Config} (hc : c.wf = true) {r : Bytes} (hr : r.length ≤ c.outMax) :
    (wordOf r.length).toNat = r.length := by
  obtain ⟨-, -, -, -, -, hbuf, -⟩ := Config.wf_facts hc
  rw [BitVec.toNat_ofNat, Nat.mod_eq_of_lt]
  simp only [Config.outMax] at hr
  omega

/-- What a completion leaves alone, in terms of the OUT_LEN it reports (60_exceptions.md R103, R104). -/
theorem complete_kept {s : State} {res : CmdResult} (hc : s.cfg.wf = true) (hf : res.fits s.cfg)
    (sent : List Request) : KeptByCommand s (s.complete res sent) (s.complete res sent).outLen.toNat := by
  cases res with
  | ok r =>
    have hlen : (s.complete (.ok r) sent).outLen.toNat = r.length := wordOf_length_toNat hc hf
    rw [hlen]
    exact (committed_complete s r sent).kept
  | error e => exact (failed_complete s e sent).kept

/-- A completion that reports an error, and so OUT_LEN 0, covers no byte; one that covers a byte has succeeded. -/
theorem complete_kind_of_covers {s : State} {res : CmdResult} {sent : List Request} {k : Nat}
    (h : k < (s.complete res sent).outLen.toNat) : (s.complete res sent).status.kind = .noError := by
  cases res with
  | ok r => rfl
  | error e => exact absurd h (Nat.not_lt_zero _)

/-- An OUT byte changes only by a reset or by the completion that covers it (10_state.md R32). -/
theorem StepEffect.out_kept {s t : State} (h : StepEffect s t) (hc : s.cfg.wf = true) {k : Nat}
    (hk : k < s.cfg.outMax) :
    memGet t.mem (bufStart .output + k) = memGet s.mem (bufStart .output + k) ∨ s.nextTurn = .reset ∨
      (s.nextTurn = .sequencer ∧ s.status.busy = true ∧ t.status.busy = false ∧ t.status.kind = .noError ∧
        k < t.outLen.toNat) := by
  cases h with
  | nothing | dropped | started | statusWritten | worked => exact .inl rfl
  | operandsWritten _ _ hm => exact .inl (hm.kept _ (hostWritable_output hc hk))
  | reset hn => exact .inr (.inl hn)
  | @completed res sent hn hb hf =>
    by_cases hcov : k < (s.popTurn.complete res sent).outLen.toNat
    · exact .inr (.inr ⟨hn, hb, (complete_status ..).1, complete_kind_of_covers hcov, hcov⟩)
    · exact .inl ((complete_kept (s := s.popTurn) hc hf sent).memory _ (by omega))

/-- Settles O50: by the effects of a step, one rule for each field. -/
theorem busyAndResultsRule : Obligations.BusyAndResultsRule := by
  intro s t hstep
  obtain ⟨hc, heff⟩ := step_effect hstep
  refine ⟨fun hs ht => ?_, heff.turn_of_busy_falls, heff.resultsValid_of_sequencer, ?_, fun ⟨hb, hd⟩ ht hnr => ?_⟩
  · obtain ⟨w, hw, hcmd, -⟩ := heff.starts_of_busy_rises hs ht
    exact ⟨w, hw, hcmd⟩
  · rcases heff.sameResults with hn | hq | ⟨hs, ht⟩ | hsame
    · exact .inl hn
    · exact .inr (.inl hq)
    · obtain ⟨w, hw, -, hout⟩ := heff.starts_of_busy_rises hs ht
      exact .inr (.inr (.inl ⟨hs, ht, ⟨w, hw⟩, hout⟩))
    · exact .inr (.inr (.inr hsame))
  · have hsame : s.SameResults t := by
      rcases heff.sameResults with hn | ⟨-, hb'⟩ | ⟨-, ht'⟩ | hsame
      · exact absurd hn hnr
      · simp [hb] at hb'
      · simp [ht] at ht'
      · exact hsame
    refine ⟨⟨ht, hsame.done.trans hd⟩, hsame, fun k hk => ?_⟩
    rcases heff.out_kept hc hk with hkept | hn | ⟨-, hb', -⟩
    · exact hkept
    · exact absurd hn hnr
    · simp [hb] at hb'

/-- Settles O52. -/
theorem onlyACommitWritesOut : Obligations.OnlyACommitWritesOut := by
  intro s t k hc hk hstep hne
  exact ((step_effect hstep).2.out_kept hc hk).resolve_left hne

/-- Settles O51: of the effects, only a dropped write sets ACCESS_ERR, and only a STATUS write or a reset clears it. -/
theorem accessErrIsSticky : Obligations.AccessErrIsSticky := by
  intro s t hstep
  refine ⟨fun hs ht => ?_, fun hs ht => ?_⟩
  · cases (step_effect hstep).2 with
    | dropped hn hb hw hoff he => exact ⟨hb, hn, _, _, _, _, hw, hoff, he⟩
    | statusWritten => simp [Status.hostWrite_eq, hs] at ht
    | completed => simp [(complete_status ..).2.2, hs] at ht
    | reset => exact absurd ht Bool.false_ne_true
    | nothing | started | operandsWritten | worked => exact absurd (hs.symm.trans ht) (by decide)
  · cases (step_effect hstep).2 with
    | reset hn => exact .inl hn
    | statusWritten hn hb hw =>
      refine .inr ⟨hb, hn, _, _, hw, ?_⟩
      simpa [Status.hostWrite_eq, hs] using ht
    | completed => simp [(complete_status ..).2.2, hs] at ht
    | dropped => exact absurd ht.symm Bool.false_ne_true
    | nothing | started | operandsWritten | worked => exact absurd (hs.symm.trans ht) (by decide)

/-- A completion that fits writes OUT only, so the other buffers keep their bytes (60_exceptions.md R104). -/
theorem complete_operands_kept {s : State} {res : CmdResult} (hc : s.cfg.wf = true) (hf : res.fits s.cfg)
    (sent : List Request) {b : Buffer} {a : Nat} (hb : b ≠ .output) (ha : inBuffer s.cfg b a = true) :
    memGet (s.complete res sent).mem a = memGet s.mem a := by
  refine (complete_kept hc hf sent).memory a fun ⟨hlo, hhi⟩ => hb (inBuffer_inj hc ha ?_)
  have hfit : (s.complete res sent).outLen.toNat ≤ s.cfg.outMax := by
    cases res with
    | ok r => exact (Nat.mod_le ..).trans hf
    | error e => exact Nat.zero_le _
  exact (inBuffer_iff ..).2 ⟨hlo, by simp only [bufCap]; omega⟩

/-- Settles O53: of the effects, only a CMD write and a write of operands change one of these, both while idle, and a
reset. -/
theorem operandsBelongToTheHost : Obligations.OperandsBelongToTheHost := by
  intro s t hc hstep
  have heff := (step_effect hstep).2
  constructor
  · cases heff with
    | @completed res sent _ _ hf => exact (complete_kept (s := s.popTurn) hc hf sent).cfg
    | _ => rfl
  · intro hnr hnh
    cases heff with
    | nothing | dropped | worked | statusWritten => exact ⟨rfl, rfl, rfl, rfl, rfl, fun _ _ _ _ => rfl⟩
    | started hw hb => simp [hw.1, hb] at hnh
    | operandsWritten hn hb => simp [hn, hb] at hnh
    | reset hn => exact absurd hn hnr
    | @completed res sent _ _ hf =>
      have hkept := complete_kept (s := s.popTurn) hc hf sent
      exact ⟨hkept.cmd, hkept.blockLen, hkept.inLen, hkept.keyLen, hkept.ivLen,
        fun b a hb ha => complete_operands_kept (s := s.popTurn) hc hf sent hb ha⟩

end Sys2Proof.Machine

/-! ### What a command's completion depends on (10_state.md R33 to R36) -/

namespace Sys2Proof.Machine

/-! #### Hidden state and STATUS -/

/-- A command's result and requests do not depend on the hidden state it starts from (10_state.md R35). -/
theorem runBody_seq (i : Instr) (s : State) (q : Seq) :
    (runBody (bodyOf i) { s with seq := q }).1 = (runBody (bodyOf i) s).1 ∧
      (runBody (bodyOf i) { s with seq := q }).2.sent = (runBody (bodyOf i) s).2.sent := by
  by_cases h : s.cfg.bufMax < s.inLen.toNat
  · rw [runBody_of_inLen_gt _ h, runBody_of_inLen_gt (s := { s with seq := q }) _ h]
    exact ⟨rfl, rfl⟩
  · rw [runBody_of_inLen_le _ (Nat.not_lt.1 h), runBody_of_inLen_le (s := { s with seq := q }) _ (Nat.not_lt.1 h)]
    exact bodyOf_seq i _ _ s.snapshot q s.seq

/-- A completion discards the hidden state, so none before it shows in the state after it (10_state.md R34). -/
theorem complete_seq (s : State) (q : Seq) (res : CmdResult) (sent : List Request) :
    ({ s with seq := q } : State).complete res sent = s.complete res sent := by cases res <;> rfl

/-- The whole completion is the same whatever hidden state there was (10_state.md R35). -/
theorem exec_seq (i : Instr) (s : State) (q : Seq) : exec i { s with seq := q } = exec i s := by
  obtain ⟨hres, hsent⟩ := runBody_seq i s q
  rw [exec_of_run hres hsent, complete_seq, exec_of_run rfl rfl]

/-- Settles O18: a completion keeps all but OUT[0 .. OUT_LEN), and no body depends on the hidden state it starts from. -/
theorem noCommandStateSurvives : Obligations.NoCommandStateSurvives := by
  intro i s hc
  obtain ⟨res, sent, hexec, hfits⟩ := exec_cases i hc
  refine ⟨_, hexec, ?_, complete_kept hc hfits sent, fun q => (exec_seq i s q).trans hexec⟩
  cases res <;> rfl

/-- A completion writes every field of STATUS but ACCESS_ERR (10_state.md R36). -/
theorem complete_withStatus (s : State) (st : Status) (res : CmdResult) (sent : List Request) :
    ({ s with status := st } : State).complete res sent =
      { s.complete res sent with
        status := { (s.complete res sent).status with accessErr := st.accessErr } } := by cases res <;> rfl

/-- Settles O20: a body is not given STATUS, and a completion writes all of it but ACCESS_ERR. -/
theorem resultsDoNotDependOnStatus : Obligations.ResultsDoNotDependOnStatus := by
  intro i s st
  have hrun : runBody (bodyOf i) { s with status := st } = runBody (bodyOf i) s := rfl
  refine ⟨_, exec_of_run rfl rfl, ?_⟩
  rw [exec_of_run rfl rfl, hrun, complete_withStatus]

/-! #### Hidden progress -/

/-- The *complete* step does not depend on the hidden state, whatever the word in CMD (10_state.md R35). -/
theorem completeCommand_seq (s : State) (q : Seq) : completeCommand { s with seq := q } = completeCommand s := by
  cases hd : decodeWord s.cmd with
  | ok i =>
    simp only [completeCommand, State.fetch, hd]
    exact exec_seq i s q
  | error e =>
    simp only [completeCommand, State.fetch, hd]
    rfl

/-- The sequencer's turn of a busy PCU does not depend on the hidden state (10_state.md R35). -/
theorem sequencerTurn_seq {s : State} (hb : s.status.busy = true) (q : Seq) :
    sequencerTurn { s with seq := q } = sequencerTurn s := by
  simp only [sequencerTurn, hb, if_true]
  exact completeCommand_seq s q

/-- Settles O56: a work turn changes the hidden state alone, and no completion depends on it. -/
theorem workIsUnobservable : Obligations.WorkIsUnobservable := by
  intro s hc hn
  refine ⟨workTurn s.popTurn, by rw [step_of_wf hc, hn]; rfl, workTurn_eq s.popTurn, ?_⟩
  cases hb : s.status.busy with
  | false =>
    rw [workTurn_idle (s := s.popTurn) hb]
    rfl
  | true =>
    have hbusy : (workTurn s.popTurn).status.busy = true := by
      rw [workTurn_eq]
      exact hb
    exact sequencerTurn_seq hbusy s.seq

/-! #### The free draws -/

/-- A read of bytes that have all been written does not depend on the free draws (10_state.md R33; log 5). -/
theorem readBytes_reads {s : State} {b : Buffer} {n : Nat} (h : s.written b n) (ev : Nat) :
    ({ s with reads := ev } : State).readBytes b n = s.readBytes b n := by
  refine List.map_congr_left fun k hk => ?_
  obtain ⟨v, hv⟩ := Option.isSome_iff_exists.1 (h k (List.mem_range.1 hk))
  simp [State.readByte, hv]

/-- The head of a CBC transform uses KEY and IV only where its checks pass, and then only the bytes the two lengths name
(41_cbc.md R83, R84). -/
theorem cbcSetup_reads {s : State} (hc : s.cfg.wf = true) (hkey : s.written .key s.keyLen.toNat)
    (hiv : s.written .iv s.ivLen.toNat) (ev : Nat) (draw : Nat → Bool) (len : Nat) (e : Engine) :
    cbcSetup draw len ({ s with reads := ev } : State).snapshot e = cbcSetup draw len s.snapshot e := by
  have hchk : cbcCheck len ({ s with reads := ev } : State).snapshot = cbcCheck len s.snapshot := rfl
  cases hpass : cbcCheck len s.snapshot with
  | some err => rw [cbcSetup_rejected draw e hpass, cbcSetup_rejected draw e (hchk.trans hpass)]
  | none =>
    obtain ⟨hk, -, hv⟩ := cbcCheck_none hpass
    have hkeyBytes : ({ s with reads := ev } : State).snapshot.keyBytes = s.snapshot.keyBytes := by
      rw [snapshot_keyBytes hc hk, snapshot_keyBytes (s := { s with reads := ev }) hc hk]
      exact readBytes_reads hkey ev
    have hivBlock : ({ s with reads := ev } : State).snapshot.ivBlock = s.snapshot.ivBlock := by
      rw [snapshot_ivBlock hc, snapshot_ivBlock (s := { s with reads := ev }) hc]
      exact readBytes_reads (hv ▸ hiv) ev
    rw [cbcSetup, cbcSetup, hchk, hkeyBytes, hivBlock]

/-- Over written operands no operation depends on the free draws (70_reset_and_hazards.md R121). -/
theorem bodyOf_reads {i : Instr} {s : State} (hc : s.cfg.wf = true) (hw : s.operandsWritten i)
    (hin : s.inLen.toNat ≤ s.cfg.bufMax) (ev : Nat) (P : Prim) (draw : Nat → Bool) (e : Engine) :
    bodyOf i P draw ({ s with reads := ev } : State).snapshot e = bodyOf i P draw s.snapshot e := by
  have hdata : s.written .input s.inLen.toNat →
      ({ s with reads := ev } : State).snapshot.data = s.snapshot.data := fun hinput => by
    rw [snapshot_data hin, snapshot_data (s := { s with reads := ev }) hin]
    exact readBytes_reads hinput ev
  cases i with
  | pad | unpad => simp only [bodyOf, padBody, unpadBody, hdata hw]; rfl
  | encrypt | decrypt | encryptPadded | decryptPadded =>
    obtain ⟨hinput, hkey, hiv⟩ := hw
    simp only [bodyOf, encryptBody, decryptBody, encryptPaddedBody, decryptPaddedBody, cbcEncrypt, cbcDecrypt,
      hdata hinput, cbcSetup_reads hc hkey hiv]
    rfl

/-- Over written operands a command's result and requests do not depend on the free draws (70_reset_and_hazards.md R121). -/
theorem runBody_reads {i : Instr} {s : State} (hc : s.cfg.wf = true) (hw : s.operandsWritten i) (ev : Nat) :
    runBody (bodyOf i) { s with reads := ev } = runBody (bodyOf i) s := by
  by_cases h : s.cfg.bufMax < s.inLen.toNat
  · rw [runBody_of_inLen_gt _ h, runBody_of_inLen_gt (s := { s with reads := ev }) _ h]
    rfl
  · rw [runBody_of_inLen_le _ (Nat.not_lt.1 h), runBody_of_inLen_le (s := { s with reads := ev }) _ (Nat.not_lt.1 h)]
    exact bodyOf_reads hc hw (Nat.not_lt.1 h) ev _ _ _

/-- A completion counts as one read event, and writes nothing that depends on the count (log 5). -/
theorem complete_reads (s : State) (ev : Nat) (res : CmdResult) (sent : List Request) :
    ({ s with reads := ev } : State).complete res sent = { s.complete res sent with reads := ev + 1 } := by
  cases res <;> rfl

/-- Settles O22: over written operands the body answers the same, whatever the index of the draws. -/
theorem writtenOperandsLeaveNoFreeByte : Obligations.WrittenOperandsLeaveNoFreeByte := by
  intro i s n hc hw
  refine ⟨_, exec_of_run rfl rfl, ?_⟩
  rw [exec_of_run rfl rfl, runBody_reads hc hw, complete_reads]

end Sys2Proof.Machine

/-! ### The registers and the buffers at the bus (10_state.md R14, R17 to R21, R27 to R31, R37) -/

namespace Sys2Proof.Machine

/-! #### CFG_KEY_SIZES -/

/-- A bit of the mask is one it starts with, or the bit of a size in the list (10_state.md R27). -/
theorem getLsbD_foldl_keySizes (sizes : List Nat) (m : Word) {j : Nat} (hj : j < 32) :
    (sizes.foldl (fun m k => m ||| (1#32 <<< (k - 1))) m).getLsbD j = true ↔
      m.getLsbD j = true ∨ ∃ x, x ∈ sizes ∧ x - 1 = j := by
  induction sizes generalizing m with
  | nil => simp
  | cons x sizes ih =>
    have hbit : (1#32 <<< (x - 1)).getLsbD j = true ↔ x - 1 = j := by
      simp only [BitVec.getLsbD_shiftLeft, BitVec.getLsbD_one, hj]
      simp
      omega
    rw [List.foldl_cons, ih, BitVec.getLsbD_or, Bool.or_eq_true, hbit, or_assoc]
    simp

/-- Settles O34: by induction over the list; the sizes are at least 1, so no two share a bit. -/
theorem keySizesMaskHasOneBitPerSize : Obligations.KeySizesMaskHasOneBitPerSize := by
  refine ⟨fun sizes k hsizes hk hk' => ?_, by decide⟩
  rw [keySizesMask, getLsbD_foldl_keySizes sizes _ (by omega)]
  constructor
  · rintro (hzero | ⟨x, hx, hxk⟩)
    · simp at hzero
    · have := (hsizes x hx).1
      rwa [show k = x by omega]
  · exact fun hmem => .inr ⟨k, hmem, rfl⟩

/-! #### STATUS -/

/-- The STATUS word bit by bit: which field a bit belongs to (10_state.md R17). -/
theorem Status.word_getLsbD (st : Status) (i : Nat) :
    st.word.getLsbD i =
      if i < 1 then (BitVec.ofBool st.busy).getLsbD i
      else if i < 2 then (BitVec.ofBool st.done).getLsbD (i - 1)
      else if i < 4 then st.kind.code.getLsbD (i - 2)
      else if i < 6 then st.stage.code.getLsbD (i - 4)
      else if i < 8 then false
      else if i < 16 then st.cause.code.getLsbD (i - 8)
      else if i < 31 then false
      else (BitVec.ofBool st.accessErr).getLsbD (i - 31) := by
  change BitVec.getLsbD (w := 1 + 15 + 8 + 2 + 2 + 2 + 1 + 1)
    (BitVec.ofBool st.accessErr ++ 0#15 ++ st.cause.code ++ 0#2 ++ st.stage.code ++ st.kind.code
      ++ BitVec.ofBool st.done ++ BitVec.ofBool st.busy) i = _
  simp only [BitVec.getLsbD_append, BitVec.getLsbD_zero]
  grind

/-- A field of the STATUS word, from its bits. -/
theorem Status.word_field (st : Status) {lo n : Nat} {f : BitVec n}
    (h : ∀ j, j < n → st.word.getLsbD (lo + j) = f.getLsbD j) : st.word.extractLsb' lo n = f := by
  apply BitVec.eq_of_getLsbD_eq
  intro j hj
  rw [BitVec.getLsbD_extractLsb', h j hj]
  simp [hj]

/-- The fields of the STATUS word at their bits: each bit of a field falls into the field's own branch. -/
theorem Status.word_fields (st : Status) :
    st.word.getLsbD 0 = st.busy ∧ st.word.getLsbD 1 = st.done ∧ st.word.extractLsb' 2 2 = st.kind.code ∧
    st.word.extractLsb' 4 2 = st.stage.code ∧ st.word.extractLsb' 6 2 = 0#2 ∧
    st.word.extractLsb' 8 8 = st.cause.code ∧ st.word.extractLsb' 16 15 = 0#15 ∧
    st.word.getLsbD 31 = st.accessErr := by
  refine ⟨st.word_getLsbD_zero, ?done, st.word_field fun j hj => ?kind, st.word_field fun j hj => ?stage,
    st.word_field fun j hj => ?low, st.word_field fun j hj => ?cause, st.word_field fun j hj => ?high, ?access⟩
  case done | access =>
    rw [Status.word_getLsbD]
    simp
  case kind | stage | low | cause | high =>
    rw [Status.word_getLsbD]
    grind

/-- An accepted write while BUSY is dropped (60_exceptions.md R106). -/
theorem busWrite_dropped {s : State} {off n : Nat} (hb : s.status.busy = true) (he : isBusError off n = false)
    (v : Word) : s.busWrite off n v = (.written, { s with status := { s.status with accessErr := true } }) := by
  simp [State.busWrite, he, State.acceptWrite, hb, Status.dropped]

/-- Settles O35: the word's fields by their bits; an idle write to STATUS is a register write, a busy one is dropped. -/
theorem statusLayoutAndWrite : Obligations.StatusLayoutAndWrite := by
  refine ⟨Status.word_fields, ⟨rfl, rfl⟩, fun s w => ⟨fun hb => ?_, fun hb => busWrite_dropped hb (by decide) w⟩⟩
  rw [← Status.hostWrite_eq]
  exact busWrite_reg hb .status w

/-! #### A write and the read after it -/

/-- The host may write the bytes of KEY, IV and IN (20_memory.md R43, R49). -/
theorem hostWritable_of_inBuffer {c : Config} (hc : c.wf = true) {b : Buffer} {off : Nat} (hb : b ≠ .output)
    (h : inBuffer c b off = true) : hostWritable c off = true := by
  rw [hostWritable, (bufferAt_eq_some hc).2 h]
  cases b with
  | output => exact absurd rfl hb
  | key | iv | input => rfl

/-- A byte the host writes to KEY, IV or IN while idle is held there (10_state.md R29 to R31). -/
theorem memGet_busWrite_byte {s : State} (hc : s.cfg.wf = true) (hb : s.status.busy = false) (v : Word) {b : Buffer}
    {off : Nat} (hbuf : b ≠ .output) (h : inBuffer s.cfg b off = true) :
    memGet (s.busWrite off 1 v).2.mem off = some (v.extractLsb' 0 8) := by
  rw [busWrite_byte hb (le_of_inBuffer h), memGet_writeWindowByte, if_pos ⟨rfl, hostWritable_of_inBuffer hc hbuf h⟩]
  rfl

/-- A byte of IV or IN reads as the byte held there (10_state.md R30, R31). -/
theorem busRead_byte_held {s : State} (hc : s.cfg.wf = true) {b : Buffer} {off : Nat} (hkey : b ≠ .key)
    (h : inBuffer s.cfg b off = true) {x : Byte} (hx : memGet s.mem off = some x) :
    (s.busRead off 1).1 = .value (x.zeroExtend 32) := by
  have hread : s.readWindowByte off = s.readByte off := by
    rw [State.readWindowByte, (bufferAt_eq_some hc).2 h]
    cases b with
    | key => exact absurd rfl hkey
    | iv | input | output => rfl
  rw [busRead_byte s (le_of_inBuffer h), hread, State.readByte, hx]
  rfl

/-- A write to an operand register sets that register, and no other register and no byte (10_state.md R14). -/
theorem writeReg_operand {r : Reg} (hr : r ∈ [Reg.blockLen, .inLen, .keyLen, .ivLen]) (s : State) (v : Word) :
    (s.writeReg r v).readReg r = v ∧ (s.writeReg r v).mem = s.mem ∧
      ∀ r', r' ≠ r → (s.writeReg r v).readReg r' = s.readReg r' := by
  simp only [List.mem_cons, List.not_mem_nil, or_false] at hr
  rcases hr with rfl | rfl | rfl | rfl
  all_goals
    refine ⟨rfl, rfl, fun r' hne => ?_⟩
    cases r' <;> simp [State.writeReg, State.readReg] at hne ⊢

/-- Settles O37: a window byte write sets that byte, an operand register write that register. -/
theorem writesAreVisibleAtOnce : Obligations.WritesAreVisibleAtOnce := by
  intro s v hc hb
  have hcfg (off : Nat) (h : 0x100 ≤ off) : (s.busWrite off 1 v).2.cfg = s.cfg := by
    rw [busWrite_byte hb h, writeWindowByte_cfg]
  refine ⟨fun off h => ?_, fun off h => memGet_busWrite_byte hc hb v (by decide) h, fun off h => ?_, fun r hr => ?_⟩
  · rcases h with h | h
    all_goals
      have hcfg := hcfg off (le_of_inBuffer h)
      exact busRead_byte_held (hcfg ▸ hc) (by decide) (hcfg ▸ h) (memGet_busWrite_byte hc hb v (by decide) h)
  · rw [busWrite_byte hb h]
    refine ⟨writeWindowByte_eq .., fun a ha => ?_⟩
    rw [memGet_writeWindowByte, if_neg fun hh => ha hh.1]
  · rw [busWrite_reg hb]
    obtain ⟨hread, hrest⟩ := writeReg_operand hr s v
    refine ⟨?_, hrest⟩
    simp [State.busRead, hread]

/-! #### Reset -/

/-- Settles O46: the reset state, field by field. -/
theorem resetValues : Obligations.ResetValues :=
  ⟨rfl, by decide, rfl, rfl, rfl, rfl, rfl, rfl, rfl, memGet_nil, rfl, by decide, by decide, by decide⟩

end Sys2Proof.Machine

/-! ### The hidden state while a command runs (10_state.md R34) -/

namespace Sys2Proof.Machine

/-! #### The work turn -/

/-- A work turn with nothing to get on with leaves the hidden state (log 12). -/
theorem workTurn_seq_of_nothing {s : State} (h : s.status.busy = false ∨ ∃ e, decodeWord s.cmd = .error e) :
    (workTurn s).seq = s.seq := by
  rcases h with hb | ⟨e, he⟩
  · rw [workTurn_idle hb]
  · rw [workTurn_illegal he]

/-- The request a work turn takes a running command to, from the one it waits for (log 12). -/
theorem workTurn_seq_of_running {s : State} {i : Instr} (hb : s.status.busy = true) (hd : decodeWord s.cmd = .ok i) :
    match s.seq.pending with
    | none => (workTurn s).seq = if s.seq.handle.isSome = true then s.seq else s.hiddenAt i 0
    | some (.setup _) => (workTurn s).seq = s.hiddenAt i 1
    | some (.enc _ _) | some (.dec _ _) => (workTurn s).seq = s.hiddenAt i (s.seq.blockIndex + 2) := by
  have hrun := workTurn_running hb hd
  cases hp : s.seq.pending with
  | none => simpa [hp, Seq.answersAllowed] using hrun
  | some req => cases req <;> simpa [hp, Seq.answersAllowed] using hrun

/-! #### PAD and UNPAD -/

/-- PAD stages the padded input; it has no byte to scan (40_padding.md R72). -/
theorem hiddenAt_pad {s : State} (h : s.inLen.toNat ≤ s.cfg.bufMax) (hn : ¬badBlockLen s.blockLen.toNat) (m : Nat) :
    s.hiddenAt .pad m = { s.seq with res := pad s.inData s.blockLen.toNat, scanIndex := 0 } := by
  rw [hiddenAt_eq h]
  have hpad : padOp s.snapshot.data s.snapshot.blockLen.toNat .pad = .ok (pad s.inData s.blockLen.toNat) := by
    rw [snapshot_data h]
    exact if_neg hn
  exact stage_seq_ok hpad 0

/-- UNPAD stages what UnpadOp leaves, and the scan index even where it fails (40_padding.md R73, R75; log 13). -/
theorem hiddenAt_unpad {s : State} (h : s.inLen.toNat ≤ s.cfg.bufMax) (m : Nat) :
    let u := unpadOp s.cfg.scanMode s.inData s.blockLen.toNat .unpad
    (∀ r, u.1 = .ok r → s.hiddenAt .unpad m = { s.seq with res := r, scanIndex := u.2 }) ∧
      (∀ e, u.1 = .error e → s.hiddenAt .unpad m = { s.seq with scanIndex := u.2 }) := by
  intro u
  have hrun : s.hiddenAt .unpad m = (Engine.stage ⟨s.seq, []⟩ u.1 u.2).2.seq := by
    rw [hiddenAt_eq h, show u = unpadOp s.cfg.scanMode s.snapshot.data s.blockLen.toNat .unpad by rw [snapshot_data h]]
    rfl
  exact ⟨fun r hr => hrun.trans (stage_seq_ok hr u.2), fun e he => hrun.trans (stage_seq_error he u.2)⟩

/-! #### The CBC commands -/

/-- Up to answer `m` the draws are the port's: none faults where the port has no fault up to there. -/
theorem drawsUpTo_eq_false {s : State} {n : Nat} (h : s.noFaultUpTo n) {k : Nat} (hk : k ≤ n) :
    s.port.drawsUpTo (n + 1) k = false := by
  rw [Port.drawsUpTo_lt (by omega), h k hk]

section
variable {s : State} (hc : s.cfg.wf = true) (hk : s.keySizeOk) (hv : s.ivLen.toNat = s.cfg.blockSize) {d : Bytes}
  (hd : d.length % s.cfg.blockSize = 0)
include hc hk hv hd

/-- An encryption that waits for block `i`'s answer (41_cbc.md R84, R86). -/
theorem encryption_awaits {i : Nat} (hi : i < d.length / s.cfg.blockSize) (hf : s.noFaultUpTo i) :
    (cbcEncrypt (primOf s.cfg) (s.port.drawsUpTo (i + 1)) s.snapshot d ⟨s.seq, []⟩).2.seq.AwaitsEnc s.cfg.blockSize
      s.keyData s.ivData d (cipherOf (primOf s.cfg) s.cfg.blockSize s.keyData s.ivData d) i := by
  obtain ⟨hP, hiv, hivData, hkeyData⟩ := cbc_operands hc hk
  rw [← hivData, ← hkeyData]
  exact cbcEncrypt_awaits (cbcCheck_eq_none hk hd hv) hP hiv hd hi (fun j hj => drawsUpTo_eq_false hf hj)
    (Port.drawsUpTo_ge (Nat.le_refl _))

/-- An encryption that has had its last answer (41_cbc.md R84). -/
theorem encryption_finished (hf : s.noFaultUpTo (d.length / s.cfg.blockSize)) :
    let e := cbcEncrypt (primOf s.cfg) (s.port.drawsUpTo (d.length / s.cfg.blockSize + 1)) s.snapshot d ⟨s.seq, []⟩
    e.2.seq.res = cipherOf (primOf s.cfg) s.cfg.blockSize s.keyData s.ivData d ∧ e.2.seq.pending = none := by
  obtain ⟨hP, hiv, hivData, hkeyData⟩ := cbc_operands hc hk
  rw [← hivData, ← hkeyData]
  exact cbcEncrypt_staged (cbcEncrypt_answered (cbcCheck_eq_none hk hd hv) hP hiv hd
    fun m hm => drawsUpTo_eq_false hf hm).1

/-- A decryption that waits for block `i`'s answer: it has no result yet (41_cbc.md R85, R86). -/
theorem decryption_awaits {i : Nat} (hi : i < d.length / s.cfg.blockSize) (hf : s.noFaultUpTo i) :
    let e := cbcDecrypt (primOf s.cfg) (s.port.drawsUpTo (i + 1)) s.snapshot d ⟨s.seq, []⟩
    e.2.seq.AwaitsDec s.cfg.blockSize s.keyData s.ivData d
        (plainOf (primOf s.cfg) s.cfg.blockSize s.keyData s.ivData d) i ∧
      e.1 = .error (primFaultError (faultInfo (i + 1))) := by
  obtain ⟨hP, hiv, hivData, hkeyData⟩ := cbc_operands hc hk
  have hchk := cbcCheck_eq_none (S := s.snapshot) hk hd hv
  have hlast : s.port.drawsUpTo (i + 1) (i + 1) = true := Port.drawsUpTo_ge (Nat.le_refl _)
  rw [← hivData, ← hkeyData]
  exact ⟨cbcDecrypt_awaits hchk hP hiv hd hi (fun j hj => drawsUpTo_eq_false hf hj) hlast,
    (cbcDecrypt_fault hchk hi hlast fun j hj => drawsUpTo_eq_false hf (Nat.le_of_lt_succ hj)).1⟩

/-- A decryption that has had its last answer (41_cbc.md R85). -/
theorem decryption_finished (hf : s.noFaultUpTo (d.length / s.cfg.blockSize)) :
    (cbcDecrypt (primOf s.cfg) (s.port.drawsUpTo (d.length / s.cfg.blockSize + 1)) s.snapshot d ⟨s.seq, []⟩).1 =
      .ok (plainOf (primOf s.cfg) s.cfg.blockSize s.keyData s.ivData d) := by
  obtain ⟨-, -, hivData, hkeyData⟩ := cbc_operands hc hk
  rw [← hivData, ← hkeyData]
  exact (cbcDecrypt_answered (cbcCheck_eq_none hk hd hv) fun m hm => drawsUpTo_eq_false hf hm).1

end

section
variable {s : State} (hc : s.cfg.wf = true) (hin : s.inLen.toNat ≤ s.cfg.bufMax) (hk : s.keySizeOk)
  (hv : s.ivLen.toNat = s.cfg.blockSize)
include hc hin hk hv

/-- ENCRYPT's hidden state at each block's request and after the last answer (41_cbc.md R84, R87). -/
theorem hidden_encrypt (hd : s.inLen.toNat % s.cfg.blockSize = 0) :
    let B := s.cfg.blockSize
    let N := s.inLen.toNat / B
    ∃ c, IsCbcEncryption (primOf s.cfg) B s.keyData s.ivData s.inData c ∧
      (∀ i, i < N → s.noFaultUpTo i →
        (s.hiddenAt .encrypt (i + 1)).AwaitsEnc B s.keyData s.ivData s.inData c i) ∧
      (s.noFaultUpTo N →
        (s.hiddenAt .encrypt (N + 1)).res = c ∧ (s.hiddenAt .encrypt (N + 1)).pending = none) := by
  have hd' : s.inData.length % s.cfg.blockSize = 0 := by rwa [inData_length]
  have hN : s.inData.length / s.cfg.blockSize = s.inLen.toNat / s.cfg.blockSize := by rw [inData_length]
  simp only [hiddenAt_encrypt hin, ← hN]
  exact ⟨_, isCbcEncryption_cipherOf (primOf_keepsLength hc _) (ivData_length s) hd',
    fun i hi hf => encryption_awaits hc hk hv hd' hi hf, fun hf => encryption_finished hc hk hv hd' hf⟩

/-- DECRYPT's hidden state, and DECRYPT_PADDED's: the same at each request, and after the last answer what Unpad leaves of
it (41_cbc.md R85, R88, 42_padded.md R94). -/
theorem hidden_decrypt (hd : s.inLen.toNat % s.cfg.blockSize = 0) :
    let B := s.cfg.blockSize
    let N := s.inLen.toNat / B
    ∃ p, IsCbcDecryption (primOf s.cfg) B s.keyData s.ivData s.inData p ∧
      (∀ i, i < N → s.noFaultUpTo i →
        (s.hiddenAt .decrypt (i + 1)).AwaitsDec B s.keyData s.ivData s.inData p i ∧
        s.hiddenAt .decryptPadded (i + 1) = s.hiddenAt .decrypt (i + 1)) ∧
      (s.noFaultUpTo N →
        (s.hiddenAt .decrypt (N + 1)).res = p ∧ (s.hiddenAt .decrypt (N + 1)).pending = none ∧
        let u := unpadOp s.cfg.scanMode p B .unpad
        (s.hiddenAt .decryptPadded (N + 1)).scanIndex = u.2 ∧
        (s.hiddenAt .decryptPadded (N + 1)).pending = none ∧
        ∀ r, u.1 = .ok r → (s.hiddenAt .decryptPadded (N + 1)).res = r) := by
  intro B N
  have hd' : s.inData.length % s.cfg.blockSize = 0 := by rwa [inData_length]
  have hN : s.inData.length / s.cfg.blockSize = N := by rw [inData_length]
  refine ⟨_, isCbcDecryption_plainOf (primOf_keepsLength hc _) (ivData_length s) hd', fun i hi hf => ?_, fun hf => ?_⟩
  · obtain ⟨hawaits, herror⟩ := decryption_awaits hc hk hv hd' (hN ▸ hi) hf
    exact ⟨hiddenAt_decrypt hin _ ▸ hawaits, hiddenAt_decryptPadded_error hin herror⟩
  · have hok := decryption_finished hc hk hv hd' (hN ▸ hf)
    rw [hN] at hok
    obtain ⟨hres, hpending⟩ := cbcDecrypt_staged hok
    rw [hiddenAt_decrypt hin]
    exact ⟨hres, hpending, hiddenAt_decryptPadded_ok hin hok⟩

/-- ENCRYPT_PADDED's hidden state is that of an encryption of the padded input, one block longer (42_padded.md R93). -/
theorem hidden_encryptPadded :
    let B := s.cfg.blockSize
    let N := s.inLen.toNat / B
    ∃ c, IsCbcEncryption (primOf s.cfg) B s.keyData s.ivData (pad s.inData B) c ∧
      (∀ i, i < N + 1 → s.noFaultUpTo i →
        (s.hiddenAt .encryptPadded (i + 1)).AwaitsEnc B s.keyData s.ivData (pad s.inData B) c i) ∧
      (s.noFaultUpTo (N + 1) →
        (s.hiddenAt .encryptPadded (N + 2)).res = c ∧ (s.hiddenAt .encryptPadded (N + 2)).pending = none) := by
  obtain ⟨hN, hd⟩ := padded_blocks s.inLen.toNat (Config.wf_facts hc).1
  rw [← inData_length, ← pad_length] at hN hd
  rw [inData_length] at hN
  have hN2 : s.inLen.toNat / s.cfg.blockSize + 2 = (pad s.inData s.cfg.blockSize).length / s.cfg.blockSize + 1 :=
    congrArg (· + 1) hN.symm
  simp only [hiddenAt_encryptPadded hc hin, hN2, ← hN]
  exact ⟨_, isCbcEncryption_cipherOf (primOf_keepsLength hc _) (ivData_length s) hd,
    fun i hi hf => encryption_awaits hc hk hv hd hi hf, fun hf => encryption_finished hc hk hv hd hf⟩

end

/-- Settles O57: the work turn, PAD and UNPAD, and the CBC commands at each request and after the last answer. -/
theorem hiddenStateWhileRunning : Obligations.HiddenStateWhileRunning := by
  refine ⟨fun s hc hn => ?_, fun s hc hin => ⟨fun m hb => hiddenAt_pad hin hb m, fun m => hiddenAt_unpad hin m, ?_⟩⟩
  · exact ⟨workTurn s.popTurn, by rw [step_of_wf hc, hn]; rfl, workTurn_seq_of_nothing (s := s.popTurn),
      fun i hb hd => workTurn_seq_of_running (s := s.popTurn) hb hd⟩
  · exact fun hk hv => ⟨fun hd => ⟨hidden_encrypt hc hin hk hv hd, hidden_decrypt hc hin hk hv hd⟩,
      hidden_encryptPadded hc hin hk hv⟩

end Sys2Proof.Machine

/-! ## The host's accesses (20_memory.md): bus errors, the register map, the windows, and what the host cannot see -/

namespace Sys2Proof.Machine

/-! ### Accepted and malformed accesses (20_memory.md R45) -/

theorem busRead_malformed (s : State) {off n : Nat} (he : isBusError off n = true) :
    s.busRead off n = (.busError, s) := by simp [State.busRead, he]

theorem busWrite_malformed (s : State) {off n : Nat} (he : isBusError off n = true) (v : Word) :
    s.busWrite off n v = (.busError, s) := by simp [State.busWrite, he]

theorem busRead_accepted (s : State) {off n : Nat} (he : isBusError off n = false) :
    s.busRead off n = (.value (s.readValue off n), { s with reads := s.reads + 1 }) := by simp [State.busRead, he]

theorem busWrite_accepted (s : State) {off n : Nat} (he : isBusError off n = false) (v : Word) :
    s.busWrite off n v = (.written, s.acceptWrite off n v) := by simp [State.busWrite, he]

/-- Settles O32: the bus-error check is the three cases, and it comes before BUSY is looked at. -/
theorem busErrorsExactlyWhenMalformed : Obligations.BusErrorsExactlyWhenMalformed := by
  intro s off n v bad
  have hbad : isBusError off n = true ↔ bad := isBusError_iff off n
  refine ⟨fun h => ?_, fun h => ?_⟩
  · have he := hbad.2 h
    exact ⟨busRead_malformed s he, busWrite_malformed s he v⟩
  · have he : isBusError off n = false := Bool.eq_false_iff.2 (mt hbad.1 h)
    rw [busRead_accepted s he, busWrite_accepted s he]
    exact ⟨⟨_, rfl⟩, rfl⟩

/-! ### The register region (20_memory.md R42, R47, R48) -/

/-- An offset is a register's, reserved in the register region, or in the window region (20_memory.md R41, R42). -/
theorem offset_cases (off : Nat) :
    (∃ r, off = regOffset r) ∨ (off < 0x100 ∧ regAt off = none) ∨ 0x100 ≤ off := by
  by_cases h : off < 0x100
  · cases hr : regAt off with
    | none => exact .inr (.inl ⟨h, rfl⟩)
    | some r => exact .inl ⟨r, (regOffset_of_regAt hr).symm⟩
  · exact .inr (.inr (by omega))

theorem readValue_reserved (s : State) {off : Nat} (h : off < 0x100) (hr : regAt off = none) (n : Nat) :
    s.readValue off n = 0#32 := by simp [State.readValue, inRegisterRegion, h, hr]

theorem writeValue_reserved (s : State) {off : Nat} (h : off < 0x100) (hr : regAt off = none) (n : Nat) (v : Word) :
    s.writeValue off n v = s := by simp [State.writeValue, inRegisterRegion, h, hr]

/-- Settles O33: each offset is the one of its register, and from 0x030 on the region has no register. -/
theorem registersReadAtTheirOffsets : Obligations.RegistersReadAtTheirOffsets := by
  intro s
  have hread (r : Reg) : s.readValue (regOffset r) 4 = s.readReg r := readValue_reg s r 4
  exact ⟨hread .cmd, hread .status, hread .blockLen, hread .inLen, hread .keyLen, hread .ivLen, hread .outLen,
    hread .errInfo0, hread .errInfo1, hread .cfgBlockSize, hread .cfgKeySizes, hread .cfgBufMax,
    fun off h h' _ => readValue_reserved s h' (regAt_reserved h) 4⟩

/-! ### The window region (20_memory.md R43, R46) -/

theorem readValue_byte (s : State) {off : Nat} (h : 0x100 ≤ off) :
    s.readValue off 1 = (s.readWindowByte off).zeroExtend 32 := by
  simp [State.readValue, inRegisterRegion, Nat.not_lt.2 h]

theorem readValue_word (s : State) {off : Nat} (h : 0x100 ≤ off) :
    s.readValue off 4 = wordOfBytes (s.readWindowByte off) (s.readWindowByte (off + 1)) (s.readWindowByte (off + 2))
      (s.readWindowByte (off + 3)) := by
  simp [State.readValue, inRegisterRegion, Nat.not_lt.2 h]

theorem writeValue_byte (s : State) {off : Nat} (h : 0x100 ≤ off) (v : Word) :
    s.writeValue off 1 v = s.writeWindowByte off (byteOfWord v 0) := by
  simp [State.writeValue, inRegisterRegion, Nat.not_lt.2 h]

theorem writeValue_word (s : State) {off : Nat} (h : 0x100 ≤ off) (v : Word) :
    s.writeValue off 4 v =
      (((s.writeWindowByte off (byteOfWord v 0)).writeWindowByte (off + 1) (byteOfWord v 1)).writeWindowByte (off + 2)
        (byteOfWord v 2)).writeWindowByte (off + 3) (byteOfWord v 3) := by
  simp [State.writeValue, inRegisterRegion, Nat.not_lt.2 h]

/-- Byte `j` of a word made up of four bytes is the byte number `j`. -/
theorem byteOfWord_wordOfBytes (f : Nat → Byte) {j : Nat} (hj : j < 4) :
    byteOfWord (wordOfBytes (f 0) (f 1) (f 2) (f 3)) j = f j := by
  have hbytes := bytesOfWord_wordOfBytes (f 0) (f 1) (f 2) (f 3)
  simp only [bytesOfWord, show List.range 4 = [0, 1, 2, 3] from rfl, List.map_cons, List.map_nil, List.cons.injEq,
    and_true] at hbytes
  obtain ⟨h0, h1, h2, h3⟩ := hbytes
  interval_cases j <;> assumption

/-- Settles O36: byte `j` of the word read is the byte read at `off + j`, and each byte of the word written is written
by its own access. -/
theorem windowAccessIsLittleEndian : Obligations.WindowAccessIsLittleEndian := by
  intro s off v h _
  refine ⟨fun j hj => ?_, ?_⟩
  · rw [readValue_word s h, readValue_byte s (by omega)]
    calc byteOfWord (wordOfBytes _ _ _ _) j
      _ = s.readWindowByte (off + j) := byteOfWord_wordOfBytes (fun k => s.readWindowByte (off + k)) hj
      _ = byteOfWord ((s.readWindowByte (off + j)).zeroExtend 32) 0 := (byteOfWord_zeroExtend _).symm
  · rw [writeValue_word s h, writeValue_byte _ h, writeValue_byte _ (by omega), writeValue_byte _ (by omega),
      writeValue_byte _ (by omega)]
    simp only [byteOfWord_zeroExtend]
    rfl

/-! ### Bytes the host cannot read or write (20_memory.md R48 to R50) -/

/-- A KEY byte and a reserved one read 0. -/
theorem readWindowByte_eq_zero {s : State} {off : Nat}
    (h : bufferAt s.cfg off = none ∨ bufferAt s.cfg off = some .key) : s.readWindowByte off = 0#8 := by
  rcases h with h | h <;> simp [State.readWindowByte, h]

/-- A write to a byte the host may not write is ignored. -/
theorem writeWindowByte_of_not_hostWritable {s : State} {off : Nat} (h : hostWritable s.cfg off = false) (b : Byte) :
    s.writeWindowByte off b = s := by
  unfold hostWritable at h
  unfold State.writeWindowByte
  cases hat : bufferAt s.cfg off with
  | none => rfl
  | some buf =>
    cases buf with
    | output => rfl
    | key | iv | input => simp [hat] at h

theorem hostWritable_of_reserved {c : Config} {off : Nat} (h : bufferAt c off = none) : hostWritable c off = false := by
  simp [hostWritable, h]

theorem hostWritable_of_output {c : Config} (hc : c.wf = true) {off : Nat} (h : inBuffer c .output off = true) :
    hostWritable c off = false := by
  simp [hostWritable, (bufferAt_eq_some hc).2 h]

/-- A one-byte access to the window region is accepted (20_memory.md R45). -/
theorem isBusError_byte {off : Nat} (h : 0x100 ≤ off) : isBusError off 1 = false := by
  simp [isBusError, inRegisterRegion, h]

/-- An aligned 32-bit access is accepted (20_memory.md R45). -/
theorem isBusError_word {off : Nat} (h : off % 4 = 0) : isBusError off 4 = false := by
  simp [isBusError, h]

/-- Settles O38: a write to a read-only register or an OUT byte leaves the state, and a KEY byte reads 0. -/
theorem readOnlyAndWriteOnlyTargets : Obligations.ReadOnlyAndWriteOnlyTargets := by
  intro s v hc
  refine ⟨fun hb => ⟨fun r hr => ?_, fun off h => ?_⟩, fun off h => ?_⟩
  · rw [busWrite_reg hb]
    simp only [List.mem_cons, List.not_mem_nil, or_false] at hr
    rcases hr with rfl | rfl | rfl | rfl | rfl | rfl <;> rfl
  · rw [busWrite_byte hb (le_of_inBuffer h), writeWindowByte_of_not_hostWritable (hostWritable_of_output hc h)]
  · rw [busRead_byte s (le_of_inBuffer h), readWindowByte_eq_zero (.inr ((bufferAt_eq_some hc).2 h))]
    rfl

/-- An access to a reserved offset: it reads 0, and a write changes ACCESS_ERR at most (20_memory.md R48). -/
theorem reserved_access {s : State} {off n : Nat} {v : Word} (he : isBusError off n = false)
    (hread : s.readValue off n = 0#32) (hwrite : s.writeValue off n v = s) :
    (s.busRead off n).1 = .value 0#32 ∧
      s.busWrite off n v =
        (.written, if s.status.busy then { s with status := { s.status with accessErr := true } } else s) := by
  rw [busRead_accepted s he, busWrite_accepted s he, State.acceptWrite, hread, hwrite]
  exact ⟨rfl, rfl⟩

/-- Settles O39: no register and no buffer is at the offset. -/
theorem reservedOffsetsReadZeroAndIgnoreWrites : Obligations.ReservedOffsetsReadZeroAndIgnoreWrites := by
  refine fun s v => ⟨fun off h h' h4 => ?_, fun off h hnone => ?_⟩
  · have hr := regAt_reserved h
    exact reserved_access (isBusError_word h4) (readValue_reserved s h' hr 4) (writeValue_reserved s h' hr 4 v)
  · have hat := bufferAt_eq_none hnone
    refine reserved_access (isBusError_byte h) ?_ ?_
    · rw [readValue_byte s h, readWindowByte_eq_zero (.inl hat)]
      rfl
    · rw [writeValue_byte s h, writeWindowByte_of_not_hostWritable (hostWritable_of_reserved hat)]

/-! ### What an access depends on -/

/-- A read of a value sees memory and the free draws through the window bytes it moves, and no further. -/
theorem readValue_congr {s : State} {off n : Nat} {m : Memory} {ev : Nat} (he : isBusError off n = false)
    (hbytes : ∀ k, k < n →
      ({ s with mem := m, reads := ev } : State).readWindowByte (off + k) = s.readWindowByte (off + k)) :
    ({ s with mem := m, reads := ev } : State).readValue off n = s.readValue off n := by
  rcases offset_cases off with ⟨r, rfl⟩ | ⟨h, hr⟩ | h
  · rw [readValue_reg, readValue_reg]
    cases r <;> rfl
  · rw [readValue_reserved _ h hr, readValue_reserved _ h hr]
  · rcases accepted_cases he with ⟨rfl, -⟩ | ⟨rfl, -⟩
    · rw [readValue_word _ h, readValue_word _ h, hbytes 1 (by omega), hbytes 2 (by omega), hbytes 3 (by omega)]
      exact congrArg (wordOfBytes · _ _ _) (hbytes 0 (by omega))
    · rw [readValue_byte _ h, readValue_byte _ h]
      exact congrArg (BitVec.zeroExtend 32) (hbytes 0 (by omega))

section
variable (s : State) {off n : Nat} (v : Word) (h : 0x100 ≤ off) (he : isBusError off n = false)
include h he

/-- A write to the window region is an update of memory alone. -/
theorem writeValue_window_eq : s.writeValue off n v = { s with mem := (s.writeValue off n v).mem } := by
  rcases accepted_cases he with ⟨rfl, -⟩ | ⟨rfl, -⟩
  · rw [writeValue_word s h]
    exact (hostMemWrite_bytes s _ _ _ _ _ _ _ _).1
  · rw [writeValue_byte s h]
    exact writeWindowByte_eq ..

/-- Every byte after a write to the window region (20_memory.md R46, R48, R49). -/
theorem memGet_writeValue_window (a : Nat) :
    memGet (s.writeValue off n v).mem a =
      if (off ≤ a ∧ a < off + n) ∧ hostWritable s.cfg a = true then some (byteOfWord v (a - off))
      else memGet s.mem a := by
  rcases accepted_cases he with ⟨rfl, -⟩ | ⟨rfl, -⟩
  · rw [writeValue_word s h]
    simp only [memGet_writeWindowByte, writeWindowByte_cfg]
    by_cases ha : off ≤ a ∧ a < off + 4
    · obtain ⟨j, rfl⟩ := Nat.exists_eq_add_of_le ha.1
      have hj : j < 4 := by omega
      interval_cases j <;> simp
    · simp [ha, show a ≠ off by omega, show a ≠ off + 1 by omega, show a ≠ off + 2 by omega,
        show a ≠ off + 3 by omega]
  · rw [writeValue_byte s h, memGet_writeWindowByte]
    by_cases ha : a = off
    · subst ha
      simp
    · rw [if_neg (fun hh => ha hh.1), if_neg (by omega)]

/-- A write to the window region keeps the canonical form of memory. -/
theorem writeValue_window_wf (hm : Memory.wf s.mem) : Memory.wf (s.writeValue off n v).mem := by
  rcases accepted_cases he with ⟨rfl, -⟩ | ⟨rfl, -⟩
  · rw [writeValue_word s h]
    exact (hostMemWrite_bytes s _ _ _ _ _ _ _ _).2.canonical hm
  · rw [writeValue_byte s h]
    exact writeWindowByte_wf hm _ _

/-- A repeated write to the window region changes nothing more: it sets the same bytes to the same values. -/
theorem writeValue_window_twice (hm : Memory.wf s.mem) :
    (s.writeValue off n v).writeValue off n v = s.writeValue off n v := by
  have hcfg : (s.writeValue off n v).cfg = s.cfg := by rw [writeValue_window_eq s v h he]
  have hmem : ((s.writeValue off n v).writeValue off n v).mem = (s.writeValue off n v).mem := by
    have hm' := writeValue_window_wf s v h he hm
    refine memory_ext (writeValue_window_wf _ v h he hm') hm' fun a => ?_
    rw [memGet_writeValue_window _ v h he, memGet_writeValue_window s v h he, hcfg]
    split <;> rfl
  rw [writeValue_window_eq (s.writeValue off n v) v h he, hmem]

end

/-! ### Repeated accesses (20_memory.md R53) -/

/-- A window byte reads the same in two states that read the same there, or where it is reserved or in KEY. -/
theorem readWindowByte_congr {s t : State} {off : Nat} (hcfg : t.cfg = s.cfg)
    (h : ∀ b, b ≠ .key → bufferAt s.cfg off = some b → t.readByte off = s.readByte off) :
    t.readWindowByte off = s.readWindowByte off := by
  unfold State.readWindowByte
  rw [hcfg]
  cases hat : bufferAt s.cfg off with
  | none => rfl
  | some b =>
    cases b with
    | key => rfl
    | iv | input | output => exact h _ (by decide) hat

/-- A window byte reads the same in every read event, where it has been written or is reserved (10_state.md R33). -/
theorem readWindowByte_reads {s : State} {off : Nat}
    (h : bufferAt s.cfg off ≠ none → (memGet s.mem off).isSome = true) (ev : Nat) :
    ({ s with reads := ev } : State).readWindowByte off = s.readWindowByte off := by
  refine readWindowByte_congr rfl fun b _ hat => ?_
  obtain ⟨x, hx⟩ := Option.isSome_iff_exists.1 (h (by simp [hat]))
  simp [State.readByte, hx]

/-- A repeated read returns the same value, where every buffer byte it moves has been written. -/
theorem busRead_twice {s : State} {off n : Nat}
    (h : ∀ k, k < n → bufferAt s.cfg (off + k) ≠ none → (memGet s.mem (off + k)).isSome = true) :
    ((s.busRead off n).2.busRead off n).1 = (s.busRead off n).1 := by
  cases he : isBusError off n with
  | true => rw [busRead_malformed s he, busRead_malformed s he]
  | false =>
    rw [busRead_accepted s he, busRead_accepted _ he]
    exact congrArg BusOutcome.value (readValue_congr he fun k hk => readWindowByte_reads (h k hk) _)

/-- A repeated write to a register but CMD changes nothing more, and BUSY not at all. -/
theorem writeReg_twice (s : State) {r : Reg} (hr : r ≠ .cmd) (v : Word) :
    (s.writeReg r v).writeReg r v = s.writeReg r v ∧ (s.writeReg r v).status.busy = s.status.busy := by
  cases r with
  | cmd => exact absurd rfl hr
  | status => simp [State.writeReg, Status.hostWrite_eq]
  | _ => exact ⟨rfl, rfl⟩

/-- A repeated write but to CMD changes nothing more, and BUSY not at all. -/
theorem writeValue_twice {s : State} (hm : Memory.wf s.mem) {off n : Nat} (h0 : off ≠ regOffset .cmd)
    (he : isBusError off n = false) (v : Word) :
    (s.writeValue off n v).writeValue off n v = s.writeValue off n v ∧
      (s.writeValue off n v).status.busy = s.status.busy := by
  rcases offset_cases off with ⟨r, rfl⟩ | ⟨h, hr⟩ | h
  · simp only [writeValue_reg]
    exact writeReg_twice s (by rintro rfl; exact h0 rfl) v
  · rw [writeValue_reserved s h hr, writeValue_reserved s h hr]
    exact ⟨rfl, rfl⟩
  · exact ⟨writeValue_window_twice s v h he hm, by rw [writeValue_window_eq s v h he]⟩

/-- A repeated bus write but to CMD has the same outcome and changes nothing more. -/
theorem busWrite_twice {s : State} (hm : Memory.wf s.mem) {off : Nat} (h0 : off ≠ regOffset .cmd) (n : Nat) (v : Word) :
    (s.busWrite off n v).2.busWrite off n v = s.busWrite off n v := by
  rcases busWrite_cases s off n v with ⟨-, hw⟩ | ⟨he, hb, hw⟩ | ⟨he, hb, hw⟩
  · rw [hw, hw]
  · rw [hw]
    exact busWrite_dropped (s := { s with status := { s.status with accessErr := true } }) hb he v
  · obtain ⟨hvalue, hbusy⟩ := writeValue_twice hm h0 he v
    rw [hw, busWrite_accepted _ he, State.acceptWrite, hbusy, hb, hvalue]
    rfl

/-- Settles O42: a read moves the count of read events only, and a write sets the same fields and bytes again. -/
theorem readsAndWritesAreIdempotent : Obligations.ReadsAndWritesAreIdempotent := by
  refine fun s off n v hi => ⟨busRead_twice, fun h0 => busWrite_twice hi.canonical h0 n v, fun hb => ?_⟩
  exact congrArg (fun p : BusOutcome × State => p.2.status.busy) (busWrite_reg hb .cmd v)

/-! ### The host learns no KEY byte (20_memory.md R49, 10_state.md R29) -/

/-- Two states that differ in KEY bytes only. -/
def SameButKey (s u : State) : Prop := ∃ m, u = { s with mem := m } ∧ sameOutside s.cfg .key s.mem m

theorem SameButKey.mk {s : State} {m : Memory} (hm : sameOutside s.cfg .key s.mem m) :
    SameButKey s { s with mem := m } := ⟨m, rfl, hm⟩

/-- A window byte reads the same whatever KEY holds: a KEY byte reads 0, and any other is not in KEY. -/
theorem readWindowByte_sameOutside_key {s : State} (hc : s.cfg.wf = true) {m : Memory}
    (hm : sameOutside s.cfg .key s.mem m) (off : Nat) :
    ({ s with mem := m } : State).readWindowByte off = s.readWindowByte off := by
  refine readWindowByte_congr rfl fun b hb hat => ?_
  have hkey : inBuffer s.cfg .key off = false :=
    Bool.eq_false_iff.2 fun h => hb (inBuffer_inj hc ((bufferAt_eq_some hc).1 hat) h)
  simp [State.readByte, hm off hkey]

theorem busRead_sameButKey {s u : State} (hc : s.cfg.wf = true) (h : SameButKey s u) (off n : Nat) :
    (u.busRead off n).1 = (s.busRead off n).1 ∧ SameButKey (s.busRead off n).2 (u.busRead off n).2 := by
  obtain ⟨m, rfl, hm⟩ := h
  cases he : isBusError off n with
  | true =>
    rw [busRead_malformed _ he, busRead_malformed _ he]
    exact ⟨rfl, .mk hm⟩
  | false =>
    rw [busRead_accepted _ he, busRead_accepted _ he]
    exact ⟨congrArg BusOutcome.value (readValue_congr he fun k _ => readWindowByte_sameOutside_key hc hm _), m, rfl, hm⟩

theorem writeValue_sameButKey {s u : State} (hsu : SameButKey s u) {off n : Nat} (he : isBusError off n = false)
    (v : Word) : SameButKey (s.writeValue off n v) (u.writeValue off n v) := by
  obtain ⟨m, rfl, hm⟩ := hsu
  rcases offset_cases off with ⟨r, rfl⟩ | ⟨h, hr⟩ | h
  · rw [writeValue_reg, writeValue_reg]
    cases r <;> exact ⟨m, rfl, hm⟩
  · rw [writeValue_reserved _ h hr, writeValue_reserved _ h hr]
    exact .mk hm
  · refine ⟨(({ s with mem := m } : State).writeValue off n v).mem, ?_, fun a ha => ?_⟩
    · rw [writeValue_window_eq s v h he, writeValue_window_eq ({ s with mem := m } : State) v h he]
    · rw [writeValue_window_eq s v h he] at ha
      rw [memGet_writeValue_window _ v h he, memGet_writeValue_window _ v h he, hm a ha]

theorem busWrite_sameButKey {s u : State} (h : SameButKey s u) (off n : Nat) (v : Word) :
    (u.busWrite off n v).1 = (s.busWrite off n v).1 ∧ SameButKey (s.busWrite off n v).2 (u.busWrite off n v).2 := by
  have hbusy : u.status.busy = s.status.busy := by obtain ⟨m, rfl, -⟩ := h; rfl
  rcases busWrite_cases s off n v with ⟨he, hw⟩ | ⟨he, hb, hw⟩ | ⟨he, hb, hw⟩
  · rw [hw, busWrite_malformed u he]
    exact ⟨rfl, h⟩
  · rw [hw, busWrite_dropped (hbusy.trans hb) he]
    obtain ⟨m, rfl, hm⟩ := h
    exact ⟨rfl, m, rfl, hm⟩
  · rw [hw, busWrite_accepted u he, State.acceptWrite, hbusy, hb]
    exact ⟨rfl, writeValue_sameButKey h he v⟩

theorem access_sameButKey {s u : State} (hc : s.cfg.wf = true) (h : SameButKey s u) (a : Access) :
    (u.access a).1 = (s.access a).1 ∧ SameButKey (s.access a).2 (u.access a).2 := by
  have hcfg : u.cfg = s.cfg := by obtain ⟨m, rfl, -⟩ := h; rfl
  unfold State.access
  rw [hcfg]
  cases offsetOf s.cfg a.addr with
  | none => exact ⟨rfl, h⟩
  | some off =>
    cases a with
    | read _ width => exact busRead_sameButKey hc h off width
    | write _ width v => exact busWrite_sameButKey h off width v

theorem hostAccess_sameButKey {s u t : State} (hc : s.cfg.wf = true) (h : SameButKey s u) {a : Access}
    (ht : hostAccess s a = .next t) : ∃ w, hostAccess u a = .next w ∧ SameButKey t w := by
  obtain ⟨hout, m, hu, hm⟩ := access_sameButKey hc h a
  cases ht
  refine ⟨_, rfl, m, ?_, hm⟩
  rw [hout, hu]
  rfl

theorem hostTurn_sameButKey {s u t : State} (hc : s.cfg.wf = true) (h : SameButKey s u) (ht : hostTurn s = .next t) :
    ∃ w, hostTurn u = .next w ∧ SameButKey t w := by
  have hhost : u.host = s.host := by obtain ⟨m, rfl, -⟩ := h; rfl
  cases hh : s.host with
  | nil =>
    rw [hostTurn_nil hh] at ht
    cases ht
    exact ⟨u, hostTurn_nil (hhost.trans hh), h⟩
  | cons x rest =>
    cases x with
    | access a =>
      rw [hostTurn_access hh] at ht
      rw [hostTurn_access (hhost.trans hh)]
      obtain ⟨m, rfl, hm⟩ := h
      exact hostAccess_sameButKey (s := { s with host := rest }) hc ⟨m, rfl, hm⟩ ht
    | wait =>
      rw [hostTurn_wait hh] at ht
      rw [hostTurn_wait (hhost.trans hh)]
      obtain ⟨m, rfl, hm⟩ := h
      exact hostAccess_sameButKey (s := { s with host := if s.status.busy then s.host else rest }) hc ⟨m, rfl, hm⟩ ht

/-- Settles O43: every access gives both states the same outcome and leaves them different in KEY only. -/
theorem hostCannotLearnKey : Obligations.HostCannotLearnKey := by
  intro s m hc hm t ht
  obtain ⟨w, hw, m', rfl, hm'⟩ := hostTurn_sameButKey hc (.mk hm) ht
  exact ⟨_, hw, rfl, rfl, hm'⟩

/-! ### The aperture (20_memory.md R40) -/

/-- Settles O45: an address outside the aperture decodes to no offset, one inside to its offset from BASE, and the step
of a host turn is the access at the head of the host's program. -/
theorem apertureDecodesFromBase : Obligations.ApertureDecodesFromBase := by
  refine fun s a => ⟨hostAccess_outside, fun off h ha => ⟨_, hostAccess_inside h ha, rfl⟩, fun rest hc hn hh => ?_⟩
  rw [step_of_wf hc, hn]
  exact hostTurn_access (s := s.popTurn) hh

end Sys2Proof.Machine

/-! ## The command words, the running command, and the notation of host programs (30_encoding.md) -/

/-! ### The decoder of a command word (30_encoding.md R59 to R62) -/

namespace Sys2Proof

/-- The operation codes are the commands' own words (30_encoding.md R60). -/
theorem toNat_of_instrOfOp {op : BitVec 4} {i : Instr} (h : instrOfOp op = some i) : op.toNat = (encode i).toNat := by
  unfold instrOfOp at h
  split at h <;> cases h <;> assumption

theorem encode_bounds (i : Instr) : 1 ≤ (encode i).toNat ∧ (encode i).toNat ≤ 6 := by cases i <;> decide

/-- The reserved operation codes (30_encoding.md R61, R65). -/
theorem instrOfOp_eq_none {op : BitVec 4} (h : op.toNat = 0 ∨ 7 ≤ op.toNat) : instrOfOp op = none := by
  refine Option.eq_none_iff_forall_ne_some.2 fun i hi => ?_
  have hop := toNat_of_instrOfOp hi
  have hbounds := encode_bounds i
  omega

theorem decodeWord_encode (i : Instr) : decodeWord (encode i) = .ok i := by cases i <;> rfl

theorem encode_injective : Function.Injective encode := fun i j h =>
  Except.ok.inj ((decodeWord_encode i).symm.trans ((congrArg decodeWord h).trans (decodeWord_encode j)))

theorem decodeWord_reservedBits {w : Word} (h : 16 ≤ w.toNat) : decodeWord w = .error (.reservedBits w) :=
  if_pos fun h0 => absurd ((rsvField_eq_zero w).1 h0) (Nat.not_lt.2 h)

theorem decodeWord_reservedOp {w : Word} (h : w.toNat < 16) (hop : w.toNat = 0 ∨ 7 ≤ w.toNat) :
    decodeWord w = .error (.reservedOp w) := by
  have hnone : instrOfOp (opField w) = none := instrOfOp_eq_none (by rwa [opField_toNat, Nat.mod_eq_of_lt h])
  simp [decodeWord, (rsvField_eq_zero w).2 h, hnone]

/-- A legal word has RSV = 0 and a command's OP (30_encoding.md R59, R60). -/
theorem fields_of_decodeWord {w : Word} {i : Instr} (h : decodeWord w = .ok i) :
    rsvField w = 0#28 ∧ instrOfOp (opField w) = some i := by
  unfold decodeWord at h
  split at h
  next => cases h
  next hrsv =>
    split at h <;> cases h
    exact ⟨not_not.1 hrsv, ‹_›⟩

/-- The decoder accepts a word as `i` exactly when it is `i`'s own word (30_encoding.md R60). -/
theorem decodeWord_eq_ok_iff {w : Word} {i : Instr} : decodeWord w = .ok i ↔ w = encode i := by
  refine ⟨fun h => BitVec.eq_of_toNat_eq ?_, fun h => h ▸ decodeWord_encode i⟩
  obtain ⟨hrsv, hop⟩ := fields_of_decodeWord h
  calc w.toNat = w.toNat % 16 := (Nat.mod_eq_of_lt ((rsvField_eq_zero w).1 hrsv)).symm
    _ = (opField w).toNat := (opField_toNat w).symm
    _ = (encode i).toNat := toNat_of_instrOfOp hop

/-- A word outside 1 to 6 is illegal, by a bit of RSV or by OP (30_encoding.md R61, R62). -/
theorem decodeWord_illegal {w : Word} (h : ¬(1 ≤ w.toNat ∧ w.toNat ≤ 6)) : ∃ e, decodeWord w = .error e := by
  by_cases hlt : w.toNat < 16
  · exact ⟨_, decodeWord_reservedOp hlt (by omega)⟩
  · exact ⟨_, decodeWord_reservedBits (Nat.not_lt.1 hlt)⟩

/-- The words 1 to 6 are the commands' words (30_encoding.md R60). -/
theorem exists_eq_encode_iff {w : Word} : (∃ i, w = encode i) ↔ 1 ≤ w.toNat ∧ w.toNat ≤ 6 := by
  constructor
  · rintro ⟨i, rfl⟩
    exact encode_bounds i
  · intro h
    have hval : w.toNat = 1 ∨ w.toNat = 2 ∨ w.toNat = 3 ∨ w.toNat = 4 ∨ w.toNat = 5 ∨ w.toNat = 6 := by omega
    rcases hval with h | h | h | h | h | h
    exacts [⟨.pad, BitVec.eq_of_toNat_eq h⟩, ⟨.unpad, BitVec.eq_of_toNat_eq h⟩, ⟨.encrypt, BitVec.eq_of_toNat_eq h⟩,
      ⟨.decrypt, BitVec.eq_of_toNat_eq h⟩, ⟨.encryptPadded, BitVec.eq_of_toNat_eq h⟩,
      ⟨.decryptPadded, BitVec.eq_of_toNat_eq h⟩]

/-- Settles O1: the six words of the table are the commands' own. -/
theorem specWordsDecodeToTheirCommands : Obligations.SpecWordsDecodeToTheirCommands :=
  ⟨decodeWord_encode .pad, decodeWord_encode .unpad, decodeWord_encode .encrypt, decodeWord_encode .decrypt,
    decodeWord_encode .encryptPadded, decodeWord_encode .decryptPadded⟩

/-- Settles O2: each command's word is the only one that decodes to it, and the six are the words 1 to 6. -/
theorem legalWordsAreExactlyTheSix : Obligations.LegalWordsAreExactlyTheSix := by
  refine fun w => ⟨decodeWord_eq_ok_iff, decodeWord_eq_ok_iff, decodeWord_eq_ok_iff, decodeWord_eq_ok_iff,
    decodeWord_eq_ok_iff, decodeWord_eq_ok_iff, ?_⟩
  simp only [decodeWord_eq_ok_iff, exists_eq_encode_iff]

/-- Settles O3: RSV is looked at first, and OP only where RSV is 0. -/
theorem reservedWordsAreRejectedByName : Obligations.ReservedWordsAreRejectedByName := fun _ =>
  ⟨fun h => decodeWord_reservedBits (by omega), fun h hop => decodeWord_reservedOp (by omega) hop⟩

/-! ### The opcode table (30_encoding.md R69) -/

/-- A row of the table is its command's word under the full mask. -/
theorem eq_row_of_mem_opcodeTable : ∀ r ∈ opcodeTable, r = ⟨r.instr, encode r.instr, 0xFFFFFFFF#32⟩ := by decide

/-- Every command has its row. -/
theorem row_mem_opcodeTable (i : Instr) : ⟨i, encode i, 0xFFFFFFFF#32⟩ ∈ opcodeTable := by cases i <;> decide

theorem row_matches_iff (i : Instr) (w : Word) :
    (OpcodeRow.mk i (encode i) 0xFFFFFFFF#32).matches w = true ↔ w = encode i := by
  have hmask : w &&& 0xFFFFFFFF#32 = w := BitVec.and_allOnes
  simp [OpcodeRow.matches, hmask]

/-- A row of the table matches exactly its own command's word. -/
theorem matches_iff_of_mem_opcodeTable {r : OpcodeRow} (hr : r ∈ opcodeTable) (w : Word) :
    r.matches w = true ↔ w = encode r.instr := by
  rw [eq_row_of_mem_opcodeTable r hr]
  exact row_matches_iff r.instr w

/-- Settles O4: a row of the table matches one word, its command's, which the decoder gives that command. -/
theorem decoderIsTheOpcodeTableSearch : Obligations.DecoderIsTheOpcodeTableSearch := by
  refine fun w => ⟨fun r hr => ⟨?_, fun hm => ?_⟩, fun hnone i hi => ?_, fun r r' hr hr' hm hm' => ?_⟩
  · rw [eq_row_of_mem_opcodeTable r hr]
  · exact decodeWord_eq_ok_iff.2 ((matches_iff_of_mem_opcodeTable hr w).1 hm)
  · have hmatch := (row_matches_iff i w).2 (decodeWord_eq_ok_iff.1 hi)
    exact Bool.false_ne_true ((hnone _ (row_mem_opcodeTable i)).symm.trans hmatch)
  · have hinstr : r.instr = r'.instr := encode_injective
      (((matches_iff_of_mem_opcodeTable hr w).1 hm).symm.trans ((matches_iff_of_mem_opcodeTable hr' w).1 hm'))
    rw [eq_row_of_mem_opcodeTable r hr, eq_row_of_mem_opcodeTable r' hr', hinstr]

/-! ### Command words as bytes (30_encoding.md R66; log 15) -/

/-- A sequence that begins with the four bytes of a word decodes as that word, with what follows left. -/
theorem decode_bytesOfWord_append {w : Word} {i : Instr} (h : decodeWord w = .ok i) (rest : Bytes) :
    decode (bytesOfWord w ++ rest) = .ok (i, rest) := by
  change decode (byteOfWord w 0 :: byteOfWord w 1 :: byteOfWord w 2 :: byteOfWord w 3 :: rest) = _
  rw [decode, wordOfBytes_byteOfWord, h]

/-- Only such a sequence decodes. -/
theorem exists_word_of_decode {bs : Bytes} {i : Instr} {rest : Bytes} (h : decode bs = .ok (i, rest)) :
    ∃ w, bs = bytesOfWord w ++ rest ∧ decodeWord w = .ok i := by
  unfold decode at h
  split at h
  next b0 b1 b2 b3 tail =>
    split at h <;> cases h
    exact ⟨wordOfBytes b0 b1 b2 b3, by rw [bytesOfWord_wordOfBytes]; rfl, ‹_›⟩
  next => cases h

/-- Settles O5: a byte sequence decodes exactly when it begins with the bytes of a word that does, and a command's own
word is the only one that decodes to it. -/
theorem decodeAndEncodeAgree : Obligations.DecodeAndEncodeAgree := by
  intro bs i rest
  constructor
  · intro h
    obtain ⟨w, hbs, hw⟩ := exists_word_of_decode h
    rw [hbs, decodeWord_eq_ok_iff.1 hw]
    rfl
  · rintro rfl
    exact decode_bytesOfWord_append (decodeWord_encode i) rest

end Sys2Proof

/-! ### The running command (30_encoding.md R62, R64) -/

namespace Sys2Proof.Machine

theorem sequencerTurn_legal {s : State} {i : Instr} (hb : s.status.busy = true) (hd : decodeWord s.cmd = .ok i) :
    sequencerTurn s = exec i s := by simp [sequencerTurn, completeCommand, State.fetch, hb, hd]

theorem sequencerTurn_illegal {s : State} {e : DecodeError} (hb : s.status.busy = true)
    (hd : decodeWord s.cmd = .error e) : sequencerTurn s = .next (completeIllegal s s.cmd) := by
  simp [sequencerTurn, completeCommand, State.fetch, hb, hd]

/-- Settles O6: the sequencer's turn of a busy PCU is the decoded command. -/
theorem stepRunsTheDecodedCommand : Obligations.StepRunsTheDecodedCommand := by
  intro s i hc hb hn hd
  rw [step_of_wf hc, hn]
  exact sequencerTurn_legal (s := s.popTurn) hb hd

/-- Settles O8: the write is a command start like any other, and the completion is ILLEGAL_CMD for a word that does not
decode. -/
theorem illegalWordStartsAndCompletesWithError : Obligations.IllegalWordStartsAndCompletesWithError := by
  intro s w hb hw
  obtain ⟨e, he⟩ := decodeWord_illegal hw
  exact ⟨s.startCommand w, completeIllegal (s.startCommand w) w, busWrite_reg hb .cmd w, rfl, rfl,
    sequencerTurn_illegal rfl he, failed_complete _ (illegalCmdError w) [], rfl⟩

/-! ### The notation of host programs (30_encoding.md R68) -/

/-- A poll of STATUS reads its word and is one read event. -/
theorem hostAccess_statusPoll (s : State) :
    hostAccess s (statusPoll s.cfg) = .next ({ s with reads := s.reads + 1 }.logEvent
      (.bus (statusPoll s.cfg) (.value s.status.word))) := by
  have hread : s.busAccess (statusPoll s.cfg) (regOffset .status) =
      (.value s.status.word, { s with reads := s.reads + 1 }) := by
    rw [statusPoll, State.busAccess, busRead_accepted s (isBusError_reg .status), readValue_reg, State.readReg]
  rw [hostAccess_inside (off := regOffset .status) (by decide) rfl, hread]

theorem accessesFrom_length {α : Type} (mk : Nat → α → Access) (step off : Nat) (xs : List α) :
    (accessesFrom mk step off xs).length = xs.length := by
  induction xs generalizing off with
  | nil => rfl
  | cons x xs ih => simp [accessesFrom, ih]

/-- The accesses stand at consecutive places `off + step * k`, in the order of the items. -/
theorem accessesFrom_getElem? {α : Type} (mk : Nat → α → Access) (step off : Nat) (xs : List α) (k : Nat) :
    (accessesFrom mk step off xs)[k]? = xs[k]?.map fun x => .access (mk (off + step * k) x) := by
  induction xs generalizing off k with
  | nil => rfl
  | cons x xs ih =>
    cases k with
    | zero => rfl
    | succ k =>
      have hoff : off + step + step * k = off + step * (k + 1) := by ring
      simp [accessesFrom, ih, hoff]

/-- Settles O44: a `wait` is one poll, and the sequences are one access per byte or word. -/
theorem hostNotationExpands : Obligations.HostNotationExpands := by
  refine ⟨fun s rest _ hh => ?_, fun _ _ => rfl, fun base off bs k hk => ⟨accessesFrom_length .., ?_⟩,
    fun base off ws k hk => ⟨accessesFrom_length .., ?_⟩, fun base off n k hk => ⟨?_, ?_⟩⟩
  · rw [hostTurn_wait hh]
    exact hostAccess_statusPoll { s with host := if s.status.busy then s.host else rest }
  · simp [HostOp.expand, accessesFrom_getElem?, List.getD_eq_getElem?_getD, hk]
  · simp [HostOp.expand, accessesFrom_getElem?, List.getD_eq_getElem?_getD, hk]
  · simp [HostOp.expand, accessesFrom_length]
  · simp [HostOp.expand, accessesFrom_getElem?, hk]

end Sys2Proof.Machine

/-! ## The Padding Codec (40_padding.md)

For a block length in range, what UnpadOp accepts is exactly what Pad makes (`unpadOp_eq_ok_iff`): the round trips and
the rejections are read off that. -/

/-! ### Pad (40_padding.md R70, R71) -/

namespace Sys2Proof.Machine

/-- The padding length is the only number in `[1, n]` that fills up to a multiple of `n` (R70). -/
theorem eq_padLength {len n p : Nat} (h1 : 1 ≤ p) (hn : p ≤ n) (hmod : (len + p) % n = 0) : p = padLength len n := by
  have hr := Nat.mod_lt len (show 0 < n by omega)
  have hdvd : n ∣ len % n + p := Nat.dvd_of_mod_eq_zero (by rw [Nat.mod_add_mod, hmod])
  have hsum := Nat.eq_of_dvd_of_lt_two_mul (by omega) hdvd (by omega)
  unfold padLength
  omega

/-- Every byte Pad appends is the padding length (R71). -/
theorem pad_getElem?_appended (d : Bytes) (n : Nat) {k : Nat} (h : d.length ≤ k) (h' : k < (pad d n).length) :
    (pad d n)[k]? = some (BitVec.ofNat 8 (padLength d.length n)) := by
  rw [pad_length] at h'
  rw [pad, List.getElem?_append_right h, List.getElem?_replicate_of_lt (by omega)]

/-- Settles O24: the padding length's bounds, the shape of a padded sequence, and minimality, since a second fill in
`[1, n]` would be the padding length itself. -/
theorem padLaws : Obligations.PadLaws := by
  intro d n h1 hn
  obtain ⟨hpos, hle, hmod⟩ := padLength_bounds d.length h1
  refine ⟨padLength d.length n, hpos, hle, pad_length d n, ?_, ?_, ?_, List.take_left, fun k h h' => ?_, fun h0 => ?_,
    fun p' hp' hlt h0 => ?_⟩
  · rw [pad_length]; omega
  · rw [pad_length]; omega
  · rw [pad_length, hmod]
  · exact pad_getElem?_appended d n h h'
  · rw [padLength, h0, Nat.sub_zero]
  · exact absurd (eq_padLength hp' (by omega) h0) (by omega)

/-! ### UnpadOp (40_padding.md R73, R78, R79) -/

/-- On a positive whole number of blocks only the checks 3 and 4 of R73 are left. -/
theorem unpadOp_fst_of_blocks (mode : ScanMode) {x : Bytes} {n : Nat} (stage : Stage) (hn : ¬badBlockLen n)
    (hx : ¬(x.length = 0 ∨ x.length % n ≠ 0)) :
    (unpadOp mode x n stage).1 =
      if (lastByte x).toNat = 0 ∨ n < (lastByte x).toNat then .error (unpadError .padLenValue x.length n stage)
      else if ¬allEqual (lastBytes x (lastByte x).toNat) (lastByte x) then
        .error (unpadError .padByteMismatch x.length n stage)
      else .ok (x.take (x.length - (lastByte x).toNat)) := by rw [unpadOp_fst, if_neg hn, if_neg hx]

/-- What UnpadOp accepts has passed each of its four checks, and the result is what is left of it (R73). -/
theorem unpadOp_ok_cases {mode : ScanMode} {x y : Bytes} {n : Nat} {stage : Stage}
    (h : (unpadOp mode x n stage).1 = .ok y) :
    ¬(x.length = 0 ∨ x.length % n ≠ 0) ∧ ¬((lastByte x).toNat = 0 ∨ n < (lastByte x).toNat) ∧
      allEqual (lastBytes x (lastByte x).toNat) (lastByte x) ∧ y = x.take (x.length - (lastByte x).toNat) := by
  rw [unpadOp_fst] at h
  split_ifs at h with hbad hlen hval heq
  exact ⟨hlen, hval, heq, by cases h; rfl⟩

/-- A padded sequence is a positive whole number of blocks (R71). -/
theorem pad_blocks (d : Bytes) {n : Nat} (h1 : 1 ≤ n) : ¬((pad d n).length = 0 ∨ (pad d n).length % n ≠ 0) := by
  obtain ⟨hpos, -, hmod⟩ := padLength_bounds d.length h1
  rw [pad_length]
  omega

/-- Check 3 passes on a padded sequence: its last byte is its padding length (R71). -/
theorem lastByte_pad_toNat (d : Bytes) {n : Nat} (h1 : 1 ≤ n) (hn : n ≤ 255) :
    (lastByte (pad d n)).toNat = padLength d.length n := by rw [lastByte_pad d h1, ofNat_padLength_toNat _ h1 hn]

/-- Round trip: UnpadOp gives back what Pad was given, at every stage and under both scan modes (R78). -/
theorem unpadOp_pad (mode : ScanMode) (d : Bytes) {n : Nat} (stage : Stage) (h1 : 1 ≤ n) (hn : n ≤ 255) :
    (unpadOp mode (pad d n) n stage).1 = .ok d := by
  obtain ⟨hpos, hle, -⟩ := padLength_bounds d.length h1
  rw [unpadOp_fst_of_blocks mode stage (by omega) (pad_blocks d h1), lastByte_pad_toNat d h1 hn, if_neg (by omega),
    if_neg, pad_length, Nat.add_sub_cancel, pad, List.take_left]
  rw [not_not, lastBytes_pad, lastByte_pad d h1]
  exact fun b hb => List.eq_of_mem_replicate hb

/-- Whole blocks whose last `p` bytes are all `p`, with `p` in `[1, n]`, are Pad of the rest (R79). -/
theorem pad_take_of_allEqual {x : Bytes} {n : Nat} {p : Byte} (hx : x.length % n = 0) (hlen : n ≤ x.length)
    (h1 : 1 ≤ p.toNat) (hn : p.toNat ≤ n) (heq : allEqual (lastBytes x p.toNat) p) :
    pad (x.take (x.length - p.toNat)) n = x := by
  have htake : (x.take (x.length - p.toNat)).length = x.length - p.toNat := by simp
  have hp : padLength (x.length - p.toNat) n = p.toNat :=
    (eq_padLength h1 hn (by rwa [Nat.sub_add_cancel (hn.trans hlen)])).symm
  have hregion : lastBytes x p.toNat = List.replicate p.toNat p := by
    rw [(allEqual_iff ..).1 heq, List.length_drop, Nat.sub_sub_self (hn.trans hlen)]
  rw [pad, htake, hp, BitVec.ofNat_toNat, BitVec.setWidth_eq, ← hregion, List.take_append_drop]

/-- UnpadOp answers `y` exactly on Pad of `y` (R79). -/
theorem unpadOp_eq_ok_iff {mode : ScanMode} {x y : Bytes} {n : Nat} {stage : Stage} (h1 : 1 ≤ n) (hn : n ≤ 255) :
    (unpadOp mode x n stage).1 = .ok y ↔ x = pad y n := by
  constructor
  · intro h
    obtain ⟨hblocks, hval, heq, rfl⟩ := unpadOp_ok_cases h
    exact (pad_take_of_allEqual (by omega) (le_of_unpadLen_ok hblocks) (by omega) (by omega) heq).symm
  · rintro rfl
    exact unpadOp_pad mode y stage h1 hn

/-- Settles O25: the round trip of Pad and UnpadOp. -/
theorem unpadInvertsPad : Obligations.UnpadInvertsPad := fun mode d _ stage h1 hn => unpadOp_pad mode d stage h1 hn

/-- Settles O26: UnpadOp answers `y` exactly on Pad of `y`. -/
theorem unpadAcceptsExactlyPadImages : Obligations.UnpadAcceptsExactlyPadImages := fun _ _ _ _ h1 hn =>
  ⟨fun _ h => ((unpadOp_eq_ok_iff h1 hn).1 h).symm, exists_congr fun _ => unpadOp_eq_ok_iff h1 hn⟩

/-! ### Changed padding (40_padding.md R78; 90_conflicts.md C9) -/

/-- A sequence whose last byte is 0 is no padded sequence: its padding length would be 0 (R78). -/
theorem append_zero_ne_pad (d y : Bytes) {n : Nat} (h1 : 1 ≤ n) (hn : n ≤ 255) : d ++ [0#8] ≠ pad y n := by
  intro h
  have hzero : lastByte (d ++ [0#8]) = 0#8 := List.getLastD_concat
  have hlast := lastByte_pad_toNat y h1 hn
  rw [← h, hzero, BitVec.toNat_zero] at hlast
  have hpos := (padLength_bounds y.length h1).1
  omega

/-- A change before the last byte leaves the last byte alone. -/
theorem lastByte_set_of_lt {x : Bytes} {k : Nat} (v : Byte) (h : k < x.length - 1) :
    lastByte (x.set k v) = lastByte x := by
  rw [← getD_pred_length, ← getD_pred_length, List.length_set, List.getD_eq_getElem?_getD, List.getD_eq_getElem?_getD,
    List.getElem?_set_ne (by omega)]

theorem lastByte_set_last {x : Bytes} (v : Byte) (h : x.length ≠ 0) : lastByte (x.set (x.length - 1) v) = v := by
  rw [← getD_pred_length, List.length_set, List.getD_eq_getElem?_getD, List.getElem?_set_self (by omega),
    Option.getD_some]

/-- A changed byte stands among the last bytes that reach back to it. -/
theorem mem_lastBytes_set {x : Bytes} {k p : Nat} (v : Byte) (h : x.length - p ≤ k) (h' : k < x.length) :
    v ∈ lastBytes (x.set k v) p := by
  refine List.mem_of_getElem? (i := k - (x.length - p)) ?_
  rw [lastBytes, List.length_set, List.getElem?_drop, Nat.add_sub_cancel' h, List.getElem?_set_self h']

/-- A changed region byte other than the last: the claim stays `p`, and the region no longer is all `p` (R78). -/
theorem unpadOp_set_region (mode : ScanMode) {d : Bytes} {n k : Nat} {v : Byte} (stage : Stage) (h1 : 1 ≤ n)
    (hn : n ≤ 255) (hlo : (pad d n).length - padLength d.length n ≤ k) (hhi : k < (pad d n).length - 1)
    (hne : (pad d n)[k]? ≠ some v) :
    (unpadOp mode ((pad d n).set k v) n stage).1 =
      .error (unpadError .padByteMismatch (pad d n).length n stage) := by
  obtain ⟨hpos, hle, -⟩ := padLength_bounds d.length h1
  have hmem := mem_lastBytes_set (x := pad d n) v hlo (by omega)
  have hv : BitVec.ofNat 8 (padLength d.length n) ≠ v := fun h =>
    hne (h ▸ pad_getElem?_appended d n (by rwa [pad_length, Nat.add_sub_cancel] at hlo) (by omega))
  rw [unpadOp_fst_of_blocks mode stage (by omega) (by rw [List.length_set]; exact pad_blocks d h1),
    lastByte_set_of_lt v hhi, lastByte_pad_toNat d h1 hn, if_neg (by omega), if_pos, List.length_set]
  rw [lastByte_pad d h1]
  exact fun heq => hv (heq v hmem).symm

/-- With the last byte changed to `q`, the checks of `q`'s own claim decide (R78; C9). -/
theorem unpadOp_set_last (mode : ScanMode) {x : Bytes} {n : Nat} (q : Byte) (stage : Stage) (hn : ¬badBlockLen n)
    (hx : ¬(x.length = 0 ∨ x.length % n ≠ 0)) :
    let y := x.set (x.length - 1) q
    if q.toNat = 0 ∨ n < q.toNat ∨ ¬allEqual (lastBytes y q.toNat) q then ∃ e, (unpadOp mode y n stage).1 = .error e
    else (unpadOp mode y n stage).1 = .ok (y.take (x.length - q.toNat)) := by
  intro y
  have hlast : lastByte y = q := lastByte_set_last q (by omega)
  have hlen : y.length = x.length := List.length_set
  have hres := unpadOp_fst_of_blocks mode (x := y) stage hn (by rwa [hlen])
  rw [hlast, hlen] at hres
  by_cases hval : q.toNat = 0 ∨ n < q.toNat
  · rw [if_pos (or_assoc.1 (.inl hval)), hres, if_pos hval]
    exact ⟨_, rfl⟩
  · rw [if_neg hval] at hres
    by_cases heq : allEqual (lastBytes y q.toNat) q
    · rw [if_neg (by tauto), hres, if_neg (not_not.2 heq)]
    · rw [if_pos (.inr (.inr heq)), hres, if_pos heq]
      exact ⟨_, rfl⟩

/-- Settles O27: no padded sequence ends in 0, and a changed one is decided by the claim its last byte makes. -/
theorem changedPaddingIsRejected : Obligations.ChangedPaddingIsRejected := by
  intro mode d n stage h1 hn
  refine ⟨fun y h => append_zero_ne_pad d y h1 hn ((unpadOp_eq_ok_iff h1 hn).1 h), fun k v hlo hhi hne => ?_,
    fun q _ => unpadOp_set_last mode q stage (by omega) (pad_blocks d h1)⟩
  exact unpadOp_set_region mode stage h1 hn hlo hhi hne

/-! ### The scans (40_padding.md R75) -/

/-- The early-exit scan has visited the bytes up to the first mismatch, and that one (R75; log 13). -/
theorem scanEarlyExit_snd (p : Byte) {l : Bytes} {k : Nat} (hk : k < l.length) (hne : l[k]? ≠ some p)
    (heq : ∀ j, j < k → l[j]? = some p) : (scanEarlyExit p l).2 = k + 1 := by
  induction l generalizing k with
  | nil => simp at hk
  | cons b l ih =>
    cases k with
    | zero =>
      have hb : b ≠ p := by simpa using hne
      rw [scanEarlyExit, if_neg hb]
    | succ k =>
      have hb : b = p := by simpa using heq 0 (Nat.succ_pos k)
      rw [scanEarlyExit, if_pos hb, ih (by simpa using hk) (by simpa using hne)
        fun j hj => by simpa using heq (j + 1) (by omega)]

/-- The constant-time scan visits the last `n` bytes (R75). -/
theorem scanPadding_constantTime_snd {d : Bytes} {n : Nat} (p : Byte) (hn : n ≤ d.length) :
    (scanPadding .constantTime d n p).2 = n := by
  rw [scanPadding, scanConstantTime_snd, List.length_drop, Nat.sub_sub_self hn]

/-- Settles O28: UnpadOp's result is one formula for both modes, and each scan's visits are counted by its recursion. -/
theorem scanModesAgree : Obligations.ScanModesAgree := by
  intro d n stage
  refine ⟨by rw [unpadOp_fst, unpadOp_fst], fun p hp hn mode => ⟨scanPadding_fst mode hp hn,
    scanPadding_constantTime_snd p hn, fun k hk hne heq => ?_⟩⟩
  exact scanEarlyExit_snd p (by rw [List.length_drop]; omega) hne heq

/-! ### PAD and UNPAD (40_padding.md R72, R76) -/

/-- Too long an input completes any command with IN_LEN_RANGE, and no request (30_encoding.md R64). -/
theorem exec_of_inLen_gt (i : Instr) {s : State} (h : s.cfg.bufMax < s.inLen.toNat) :
    exec i s = .next (s.complete (.error (inLenError s.snapshot)) []) := by
  have hrun := runBody_of_inLen_gt (bodyOf i) h
  exact exec_of_run (by rw [hrun]) (by rw [hrun])

/-- PAD of data that fits completes with PadOp's result, and no request (R72). -/
theorem exec_pad {s : State} (h : s.inLen.toNat ≤ s.cfg.bufMax) :
    exec .pad s = .next (s.complete (padOp s.inData s.blockLen.toNat .pad) []) :=
  exec_of_run (run_pad h).1 (run_pad h).2

/-- UNPAD of data that fits completes with UnpadOp's result, and no request (R76). -/
theorem exec_unpad {s : State} (h : s.inLen.toNat ≤ s.cfg.bufMax) :
    exec .unpad s = .next (s.complete (unpadOp s.cfg.scanMode s.inData s.blockLen.toNat .unpad).1 []) :=
  exec_of_run (run_unpad h).1 (run_unpad h).2

/-- PAD with a block length in range commits the padded input (R72). -/
theorem exec_pad_ok {s : State} (h : s.inLen.toNat ≤ s.cfg.bufMax) (hn : ¬badBlockLen s.blockLen.toNat) :
    exec .pad s = .next (s.complete (.ok (pad s.inData s.blockLen.toNat)) []) := by
  rw [exec_pad h, padOp, if_neg hn]

/-- UNPAD of padded data commits the data (R76, R78). -/
theorem exec_unpad_ok {s : State} {d : Bytes} (h : s.inLen.toNat ≤ s.cfg.bufMax) (hn : ¬badBlockLen s.blockLen.toNat)
    (hd : s.inData = pad d s.blockLen.toNat) : exec .unpad s = .next (s.complete (.ok d) []) := by
  rw [exec_unpad h, hd, unpadOp_pad _ _ _ (by omega) (by omega)]

/-- Settles O9: IN_LEN, then BLOCK_LEN, then the padded input. -/
theorem padCompletesInEveryCase : Obligations.PadCompletesInEveryCase := by
  intro s
  by_cases hin : s.cfg.bufMax < s.inLen.toNat
  · refine ⟨_, exec_of_inLen_gt .pad hin, ?_⟩
    rw [if_pos hin]
    exact failed_complete ..
  · simp only [if_neg hin]
    by_cases hbad : badBlockLen s.blockLen.toNat
    · refine ⟨_, exec_pad (Nat.not_lt.1 hin), ?_⟩
      rw [if_pos hbad, padOp, if_pos hbad]
      exact failed_of_eq s (by simp [blockLenError]) []
    · refine ⟨_, exec_pad_ok (Nat.not_lt.1 hin) hbad, ?_⟩
      rw [if_neg hbad]
      obtain ⟨hpos, hle, hmod⟩ := padLength_bounds s.inLen.toNat (n := s.blockLen.toNat) (by omega)
      refine ⟨_, hpos, hle, hmod, ?_⟩
      rw [pad, inData_length]
      exact committed_complete ..

/-- Settles O10: IN_LEN, then the checks of UnpadOp in their order, then the stripped input. -/
theorem unpadCompletesInEveryCase : Obligations.UnpadCompletesInEveryCase := by
  intro s
  by_cases hin : s.cfg.bufMax < s.inLen.toNat
  · refine ⟨_, exec_of_inLen_gt .unpad hin, ?_⟩
    simp only [if_pos hin]
    exact failed_complete ..
  · refine ⟨_, exec_unpad (Nat.not_lt.1 hin), ?_⟩
    simp only [if_neg hin, unpadOp_fst]
    split_ifs with hbad hlen hval heq
    · exact failed_of_eq s (by simp [blockLenError]) []
    · exact failed_of_eq s (by simp [unpadError]) []
    · exact failed_of_eq s (by simp [unpadError]) []
    · exact committed_complete ..
    · exact failed_of_eq s (by simp [unpadError]) []

/-! ### The six commands on good operands (40_padding.md R72, R76; 41_cbc.md R87, R88; 42_padded.md R93, R94) -/

section
variable {s : State} (hc : s.cfg.wf = true) (hin : s.inLen.toNat ≤ s.cfg.bufMax) (hk : s.keySizeOk)
  (hv : s.ivLen.toNat = s.cfg.blockSize)
include hc hin hk hv

/-- ENCRYPT of aligned data with good operands and no fault commits the CBC encryption (41_cbc.md R87). -/
theorem exec_encrypt_ok (hd : s.inLen.toNat % s.cfg.blockSize = 0)
    (hf : s.noFaultUpTo (s.inLen.toNat / s.cfg.blockSize)) :
    exec .encrypt s = .next (s.complete
      (.ok (cipherOf (primOf s.cfg) s.cfg.blockSize s.keyData s.ivData s.inData))
      (encryptRequests (primOf s.cfg) s.cfg.blockSize s.keyData s.ivData s.inData)) := by
  obtain ⟨hP, hiv, hivData, hkeyData⟩ := cbc_operands hc hk
  rw [← inData_length] at hd hf
  obtain ⟨hres, hsent⟩ := cbcEncrypt_answered (q := s.seq) (cbcCheck_eq_none hk hd hv) hP hiv hd hf
  rw [← hivData, ← hkeyData]
  exact exec_of_run (run_encrypt hin ▸ hres) (run_encrypt hin ▸ hsent)

/-- ENCRYPT_PADDED with good operands and no fault commits the CBC encryption of the padded data (42_padded.md R93). -/
theorem exec_encryptPadded_ok (hf : s.noFaultUpTo (s.inLen.toNat / s.cfg.blockSize + 1)) :
    exec .encryptPadded s = .next (s.complete
      (.ok (cipherOf (primOf s.cfg) s.cfg.blockSize s.keyData s.ivData (pad s.inData s.cfg.blockSize)))
      (encryptRequests (primOf s.cfg) s.cfg.blockSize s.keyData s.ivData (pad s.inData s.cfg.blockSize))) := by
  obtain ⟨hP, hiv, hivData, hkeyData⟩ := cbc_operands hc hk
  obtain ⟨hN, hd⟩ := padded_blocks s.inLen.toNat (Config.wf_facts hc).1
  rw [← inData_length, ← pad_length] at hN hd
  rw [← inData_length, ← hN] at hf
  obtain ⟨hres, hsent⟩ := cbcEncrypt_answered (q := s.seq) (cbcCheck_eq_none hk hd hv) hP hiv hd hf
  rw [← hivData, ← hkeyData]
  exact exec_of_run (run_encryptPadded hc hin ▸ hres) (run_encryptPadded hc hin ▸ hsent)

omit hin in
/-- CbcDecrypt of aligned data with good operands and no fault: the transform DECRYPT and DECRYPT_PADDED share
(41_cbc.md R85). -/
theorem cbcDecrypt_ok (hd : s.inLen.toNat % s.cfg.blockSize = 0)
    (hf : s.noFaultUpTo (s.inLen.toNat / s.cfg.blockSize)) :
    let e := cbcDecrypt (primOf s.cfg) s.port.draw s.snapshot s.inData ⟨s.seq, []⟩
    e.1 = .ok (plainOf (primOf s.cfg) s.cfg.blockSize s.keyData s.ivData s.inData) ∧
      e.2.sent = decRequestsOf s.cfg.blockSize s.keyData s.inData := by
  obtain ⟨-, -, hivData, hkeyData⟩ := cbc_operands hc hk
  rw [← inData_length] at hd hf
  rw [← hivData, ← hkeyData]
  exact cbcDecrypt_answered (cbcCheck_eq_none hk hd hv) hf

/-- DECRYPT of aligned data with good operands and no fault commits the CBC decryption (41_cbc.md R88). -/
theorem exec_decrypt_ok (hd : s.inLen.toNat % s.cfg.blockSize = 0)
    (hf : s.noFaultUpTo (s.inLen.toNat / s.cfg.blockSize)) :
    exec .decrypt s = .next (s.complete
      (.ok (plainOf (primOf s.cfg) s.cfg.blockSize s.keyData s.ivData s.inData))
      (decRequestsOf s.cfg.blockSize s.keyData s.inData)) := by
  obtain ⟨hres, hsent⟩ := cbcDecrypt_ok hc hk hv hd hf
  exact exec_of_run (run_decrypt hin ▸ hres) (run_decrypt hin ▸ hsent)

/-- DECRYPT_PADDED of aligned data with good operands and no fault completes with UnpadOp of the CBC decryption
(42_padded.md R94). -/
theorem exec_decryptPadded_unpad (hd : s.inLen.toNat % s.cfg.blockSize = 0)
    (hf : s.noFaultUpTo (s.inLen.toNat / s.cfg.blockSize)) :
    exec .decryptPadded s = .next (s.complete
      (unpadOp s.cfg.scanMode (plainOf (primOf s.cfg) s.cfg.blockSize s.keyData s.ivData s.inData) s.cfg.blockSize
        .unpad).1
      (decRequestsOf s.cfg.blockSize s.keyData s.inData)) := by
  obtain ⟨hres, hsent⟩ := cbcDecrypt_ok hc hk hv hd hf
  obtain ⟨hunpad, hsent'⟩ := run_decryptPadded_ok hin (Prod.ext hres rfl)
  exact exec_of_run hunpad (hsent'.trans hsent)

/-- DECRYPT_PADDED of data that decrypts to padded data commits the data (42_padded.md R94). -/
theorem exec_decryptPadded_ok {d : Bytes} (hd : s.inLen.toNat % s.cfg.blockSize = 0)
    (hf : s.noFaultUpTo (s.inLen.toNat / s.cfg.blockSize))
    (hdec : IsCbcDecryption (primOf s.cfg) s.cfg.blockSize s.keyData s.ivData s.inData (pad d s.cfg.blockSize)) :
    exec .decryptPadded s =
      .next (s.complete (.ok d) (decRequestsOf s.cfg.blockSize s.keyData s.inData)) := by
  have hd' : s.inData.length % s.cfg.blockSize = 0 := by rwa [inData_length]
  have hplain := (isCbcDecryption_plainOf (primOf_keepsLength hc _) (ivData_length s) hd').eq hd' hdec
  obtain ⟨hB1, hB255, -⟩ := Config.wf_facts hc
  rw [exec_decryptPadded_unpad hc hin hk hv hd hf, hplain, unpadOp_pad _ _ _ hB1 hB255]

end

/-- Settles O15: each command's completion on good operands is a successful one. -/
theorem commandsSucceedOnGoodOperands : Obligations.CommandsSucceedOnGoodOperands := by
  intro s hc hin
  refine ⟨fun hn => ⟨_, exec_pad_ok hin hn, committed_complete ..⟩,
    fun d hn hd => ⟨_, exec_unpad_ok hin hn hd, committed_complete ..⟩, fun hk hv hf => ⟨fun hd => ?_, ?_⟩⟩
  · have hf' : s.noFaultUpTo (s.inLen.toNat / s.cfg.blockSize) := fun m hm => hf m (hm.trans (Nat.le_succ _))
    exact ⟨⟨_, _, _, exec_encrypt_ok hc hin hk hv hd hf', committed_complete ..⟩,
      ⟨_, _, _, exec_decrypt_ok hc hin hk hv hd hf', committed_complete ..⟩,
      fun d hdec => ⟨_, _, exec_decryptPadded_ok hc hin hk hv hd hf' hdec, committed_complete ..⟩⟩
  · exact ⟨_, _, _, exec_encryptPadded_ok hc hin hk hv hf, committed_complete ..⟩

/-! ### PAD, then UNPAD of its result (40_padding.md R78; 70_reset_and_hazards.md R127) -/

@[simp] theorem State.copyOutToIn_cfg (s : State) : s.copyOutToIn.cfg = s.cfg := rfl
@[simp] theorem State.copyOutToIn_blockLen (s : State) : s.copyOutToIn.blockLen = s.blockLen := rfl
@[simp] theorem State.copyOutToIn_inLen (s : State) : s.copyOutToIn.inLen = s.outLen := rfl

/-- A successful completion's result stands in `OUT[0 .. OUT_LEN)` (60_exceptions.md R104). -/
theorem Committed.result {s t : State} {r : Bytes} {sent : List Request} (h : Committed s t r sent) : t.Result r :=
  ⟨h.outLen, h.out⟩

/-- Bytes held at a buffer's start are what a read of that many bytes finds there (10_state.md R33). -/
theorem readBytes_eq_of_memGet {s : State} {b : Buffer} {r : Bytes}
    (h : ∀ k, k < r.length → memGet s.mem (bufStart b + k) = r[k]?) : s.readBytes b r.length = r := by
  refine List.ext_getElem (readBytes_length ..) fun k _ hk => ?_
  simp [State.readBytes, State.readByte, h k hk, hk]

/-- After a result has been copied to IN it is the next command's data (70_reset_and_hazards.md R127). -/
theorem State.Result.inData_copyOutToIn {t : State} {r : Bytes} (h : t.Result r)
    (hr : (wordOf r.length).toNat = r.length) : t.copyOutToIn.inData = r := by
  have hlen : t.outLen.toNat = r.length := by rw [h.outLen, hr]
  have hout : t.readBytes .output t.outLen.toNat = r := by rw [hlen, readBytes_eq_of_memGet h.bytes]
  rw [State.inData, State.copyOutToIn_inLen, hlen]
  refine readBytes_eq_of_memGet fun k hk => ?_
  have hmem : t.copyOutToIn.mem = memSetBytes t.mem (bufStart .input) r := by rw [State.copyOutToIn, hout]
  rw [hmem, memGet_memSetBytes, if_pos ⟨Nat.le_add_right .., by omega⟩, Nat.add_sub_cancel_left]

/-- Settles O31: UNPAD finds the padded data in IN, and strips it. -/
theorem padThenUnpadRestoresData : Obligations.PadThenUnpadRestoresData := by
  intro s hc hn hin hfit
  have hcommit := committed_complete s (pad s.inData s.blockLen.toNat) []
  generalize ht : s.complete (.ok (pad s.inData s.blockLen.toNat)) [] = t at hcommit
  have hreg := wordOf_length_toNat hc (hfit.trans (Nat.le_add_right ..))
  have hcfg := hcommit.kept.cfg
  have hblockLen := hcommit.kept.blockLen
  have hdata : t.copyOutToIn.inData = pad s.inData t.copyOutToIn.blockLen.toNat := by
    rw [hcommit.result.inData_copyOutToIn hreg, State.copyOutToIn_blockLen, hblockLen]
  have hin' : t.copyOutToIn.inLen.toNat ≤ t.copyOutToIn.cfg.bufMax := by
    rwa [State.copyOutToIn_inLen, State.copyOutToIn_cfg, hcommit.outLen, hcfg, hreg]
  have hn' : ¬badBlockLen t.copyOutToIn.blockLen.toNat := by rwa [State.copyOutToIn_blockLen, hblockLen]
  exact ⟨t, _, ht ▸ exec_pad_ok hin hn, exec_unpad_ok hin' hn' hdata, rfl, (committed_complete ..).result⟩

end Sys2Proof.Machine

/-! ## The CBC Transform (41_cbc.md)

A command that runs CbcEncrypt or CbcDecrypt fails a check, stops at the first fault, or runs to the end: one equation
of `exec` for each, with the result and the requests sent. The obligations are read off those. -/

/-! ### ENCRYPT and DECRYPT where a check fails or a request faults (41_cbc.md R83 to R86) -/

namespace Sys2Proof.Machine

/-- ENCRYPT with a failing check completes with its error, and no request (R83, R87). -/
theorem exec_encrypt_rejected {s : State} (hin : s.inLen.toNat ≤ s.cfg.bufMax) {err : ErrorRec}
    (h : cbcCheck s.inLen.toNat s.snapshot = some err) : exec .encrypt s = .next (s.complete (.error err) []) := by
  rw [← inData_length] at h
  have hrun := (run_encrypt hin).trans (cbcEncrypt_rejected _ _ _ h)
  exact exec_of_run (congrArg (·.1) hrun) (congrArg (·.2.sent) hrun)

/-- Where CbcDecrypt fails, DECRYPT and DECRYPT_PADDED complete with its error after its requests (R88; 42_padded.md
R94). -/
theorem exec_of_cbcDecrypt_error {i : Instr} (hi : i = .decrypt ∨ i = .decryptPadded) {s : State}
    (hin : s.inLen.toNat ≤ s.cfg.bufMax) {err : ErrorRec} {e : Engine}
    (h : cbcDecrypt (primOf s.cfg) s.port.draw s.snapshot s.inData ⟨s.seq, []⟩ = (.error err, e)) :
    exec i s = .next (s.complete (.error err) e.sent) := by
  have hrun : runBody (bodyOf i) s = (.error err, e) := by
    obtain rfl | rfl := hi
    · exact (run_decrypt hin).trans h
    · exact run_decryptPadded_error hin h
  exact exec_of_run (congrArg (·.1) hrun) (congrArg (·.2.sent) hrun)

/-- DECRYPT and DECRYPT_PADDED with a failing check complete with its error, and no request (R83). -/
theorem exec_decrypts_rejected {i : Instr} (hi : i = .decrypt ∨ i = .decryptPadded) {s : State}
    (hin : s.inLen.toNat ≤ s.cfg.bufMax) {err : ErrorRec} (h : cbcCheck s.inLen.toNat s.snapshot = some err) :
    exec i s = .next (s.complete (.error err) []) := by
  rw [← inData_length] at h
  exact exec_of_cbcDecrypt_error hi hin (cbcDecrypt_rejected _ _ _ h)

section
variable {s : State} (hc : s.cfg.wf = true) (hin : s.inLen.toNat ≤ s.cfg.bufMax) (hk : s.keySizeOk)
  (hv : s.ivLen.toNat = s.cfg.blockSize)
include hc hk hv

/-- A command that runs CbcEncrypt on `d` and meets its first fault at request `m`: PRIM_FAULT, and the requests up to
that one (R84, R86). -/
theorem exec_of_cbcEncrypt_fault (i : Instr) {d : Bytes}
    (hrun : runBody (bodyOf i) s = cbcEncrypt (primOf s.cfg) s.port.draw s.snapshot d ⟨s.seq, []⟩)
    (hd : d.length % s.cfg.blockSize = 0) {m : Nat} (hm : m ≤ d.length / s.cfg.blockSize) (hf : s.firstFault m) :
    exec i s = .next (s.complete (.error (primFaultError (faultInfo m)))
      ((encryptRequests (primOf s.cfg) s.cfg.blockSize s.keyData s.ivData d).take (m + 1))) := by
  obtain ⟨hP, hiv, hivData, hkeyData⟩ := cbc_operands hc hk
  obtain ⟨hfault, hbefore⟩ := hf
  obtain ⟨hres, hsent⟩ := cbcEncrypt_fault (q := s.seq) (cbcCheck_eq_none hk hd hv) hP hiv hd hm hfault hbefore
  rw [← hivData, ← hkeyData]
  exact exec_of_run (hrun ▸ hres) (hrun ▸ hsent)

include hin

/-- ENCRYPT whose first fault is request `m` (R86, R87). -/
theorem exec_encrypt_fault (hd : s.inLen.toNat % s.cfg.blockSize = 0) {m : Nat}
    (hm : m ≤ s.inLen.toNat / s.cfg.blockSize) (hf : s.firstFault m) :
    exec .encrypt s = .next (s.complete (.error (primFaultError (faultInfo m)))
      ((encryptRequests (primOf s.cfg) s.cfg.blockSize s.keyData s.ivData s.inData).take (m + 1))) := by
  rw [← inData_length] at hd hm
  exact exec_of_cbcEncrypt_fault hc hk hv .encrypt (run_encrypt hin) hd hm hf

/-- ENCRYPT_PADDED whose first fault is request `m`, of one block more than the data's whole ones (R86; 42_padded.md
R93). -/
theorem exec_encryptPadded_fault {m : Nat} (hm : m ≤ s.inLen.toNat / s.cfg.blockSize + 1) (hf : s.firstFault m) :
    exec .encryptPadded s = .next (s.complete (.error (primFaultError (faultInfo m)))
      ((encryptRequests (primOf s.cfg) s.cfg.blockSize s.keyData s.ivData (pad s.inData s.cfg.blockSize)).take
        (m + 1))) := by
  obtain ⟨hN, hd⟩ := padded_blocks s.inLen.toNat (Config.wf_facts hc).1
  rw [← inData_length, ← pad_length] at hN hd
  rw [← inData_length, ← hN] at hm
  exact exec_of_cbcEncrypt_fault hc hk hv .encryptPadded (run_encryptPadded hc hin) hd hm hf

/-- DECRYPT and DECRYPT_PADDED whose first fault is request `m` (R86, R88; 42_padded.md R94). -/
theorem exec_decrypts_fault {i : Instr} (hi : i = .decrypt ∨ i = .decryptPadded)
    (hd : s.inLen.toNat % s.cfg.blockSize = 0) {m : Nat} (hm : m ≤ s.inLen.toNat / s.cfg.blockSize)
    (hf : s.firstFault m) :
    exec i s = .next (s.complete (.error (primFaultError (faultInfo m)))
      ((decRequestsOf s.cfg.blockSize s.keyData s.inData).take (m + 1))) := by
  obtain ⟨-, -, -, hkeyData⟩ := cbc_operands hc hk
  obtain ⟨hfault, hbefore⟩ := hf
  rw [← inData_length] at hd hm
  obtain ⟨hres, hsent⟩ := cbcDecrypt_fault (P := primOf s.cfg) (q := s.seq)
    (cbcCheck_eq_none (S := s.snapshot) hk hd hv) hm hfault hbefore
  rw [← hkeyData, ← snapshot_cfg, ← hsent]
  exact exec_of_cbcDecrypt_error hi hin (Prod.ext hres rfl)

end

/-! ### Every case of ENCRYPT and DECRYPT (41_cbc.md R87, R88) -/

/-- The error completion a command's next state is. -/
theorem failed_of_exec {i : Instr} {s t : State} {e : ErrorRec} {sent : List Request} (ht : exec i s = .next t)
    (h : exec i s = .next (s.complete (.error e) sent)) : Failed s t e sent := by
  cases ht.symm.trans h
  exact failed_complete ..

/-- The successful completion a command's next state is. -/
theorem committed_of_exec {i : Instr} {s t : State} {r : Bytes} {sent : List Request} (ht : exec i s = .next t)
    (h : exec i s = .next (s.complete (.ok r) sent)) : Committed s t r sent := by
  cases ht.symm.trans h
  exact committed_complete ..

/-- The checks of a command on unpadded CBC input, in order, and `ran` where they all pass (30_encoding.md R64;
41_cbc.md R83). -/
theorem completes_by_checks {i : Instr} {s t : State} {ran : Prop} (ht : exec i s = .next t)
    (hrejected : s.inLen.toNat ≤ s.cfg.bufMax → ∀ err, cbcCheck s.inLen.toNat s.snapshot = some err →
      exec i s = .next (s.complete (.error err) []))
    (hran : s.inLen.toNat ≤ s.cfg.bufMax → s.keySizeOk → s.inLen.toNat % s.cfg.blockSize = 0 →
      s.ivLen.toNat = s.cfg.blockSize → ran) :
    if s.cfg.bufMax < s.inLen.toNat then
      Failed s t ⟨.invalidInput, .interface, .inLenRange, s.inLen, wordOf s.cfg.bufMax⟩ []
    else if ¬s.keySizeOk then Failed s t ⟨.invalidInput, .cbc, .keySize, s.keyLen, 0#32⟩ []
    else if s.inLen.toNat % s.cfg.blockSize ≠ 0 then
      Failed s t ⟨.invalidInput, .cbc, .dataMisaligned, s.inLen, wordOf s.cfg.blockSize⟩ []
    else if s.ivLen.toNat ≠ s.cfg.blockSize then
      Failed s t ⟨.invalidInput, .cbc, .ivLen, s.ivLen, wordOf s.cfg.blockSize⟩ []
    else ran := by
  by_cases hin : s.cfg.bufMax < s.inLen.toNat
  · rw [if_pos hin]
    exact failed_of_exec ht (exec_of_inLen_gt i hin)
  rw [if_neg hin]
  replace hin := Nat.not_lt.1 hin
  by_cases hk : s.keySizeOk
  · rw [if_neg (not_not.2 hk)]
    by_cases hd : s.inLen.toNat % s.cfg.blockSize = 0
    · rw [if_neg (not_not.2 hd)]
      by_cases hv : s.ivLen.toNat = s.cfg.blockSize
      · rw [if_neg (not_not.2 hv)]
        exact hran hin hk hd hv
      · rw [if_pos hv]
        exact failed_of_exec ht (hrejected hin _ (cbcCheck_ivLen (S := s.snapshot) hk hd hv))
    · rw [if_pos hd]
      have hchk := cbcCheck_misaligned (S := s.snapshot) hk hd
      rw [wordOf_toNat] at hchk
      exact failed_of_exec ht (hrejected hin _ hchk)
  · rw [if_pos hk]
    exact failed_of_exec ht (hrejected hin _ (cbcCheck_keySize (S := s.snapshot) hk))

/-- A command whose requests are `all` where none faults, and that stops at its first fault: PRIM_FAULT at request `m`
comes after `m + 1` requests (41_cbc.md R86). -/
theorem failed_at_firstFault {i : Instr} {s t : State} (ht : exec i s = .next t) {all : List Request} {n m : Nat}
    (hall : all.length = n + 1) (hm : m ≤ n)
    (h : exec i s = .next (s.complete (.error (primFaultError (faultInfo m))) (all.take (m + 1)))) :
    ∃ sent, sent.length = m + 1 ∧ Failed s t ⟨.unexpectedFault, .cbc, .primFault, faultInfo m, 0#32⟩ sent :=
  ⟨_, List.length_take_of_le (by omega), failed_of_exec ht h⟩

/-- Settles O11: the checks, then a first fault, or the encryption by its recurrence. -/
theorem encryptCompletesInEveryCase : Obligations.EncryptCompletesInEveryCase := by
  intro s hc
  obtain ⟨t, ht⟩ : ∃ t, exec .encrypt s = .next t := ⟨_, exec_of_run rfl rfl⟩
  refine ⟨t, ht, completes_by_checks ht (fun hin _ => exec_encrypt_rejected hin) fun hin hk hd hv =>
    ⟨fun m hm hf => ?_, fun hf => ?_⟩⟩
  · exact failed_at_firstFault ht (by simp) hm (exec_encrypt_fault hc hin hk hv hd hm hf)
  · have hd' : s.inData.length % s.cfg.blockSize = 0 := by rwa [inData_length]
    exact ⟨_, _, isCbcEncryption_cipherOf (primOf_keepsLength hc _) (ivData_length s) hd', by simp,
      committed_of_exec ht (exec_encrypt_ok hc hin hk hv hd hf)⟩

/-- Settles O12: ENCRYPT's checks, then a first fault, or the decryption by its recurrence. -/
theorem decryptCompletesInEveryCase : Obligations.DecryptCompletesInEveryCase := by
  intro s hc
  obtain ⟨t, ht⟩ : ∃ t, exec .decrypt s = .next t := ⟨_, exec_of_run rfl rfl⟩
  refine ⟨t, ht, completes_by_checks ht (fun hin _ => exec_decrypts_rejected (.inl rfl) hin) fun hin hk hd hv =>
    ⟨fun m hm hf => ?_, fun hf => ?_⟩⟩
  · exact failed_at_firstFault ht (by simp) hm (exec_decrypts_fault hc hin hk hv (.inl rfl) hd hm hf)
  · have hd' : s.inData.length % s.cfg.blockSize = 0 := by rwa [inData_length]
    exact ⟨_, _, isCbcDecryption_plainOf (primOf_keepsLength hc _) (ivData_length s) hd', by simp,
      committed_of_exec ht (exec_decrypt_ok hc hin hk hv hd hf)⟩

/-! ### The requests on the primitive port (41_cbc.md R86; 42_padded.md R93, R94) -/

/-- A completion appends the requests sent to the port's log (R81; log 6). -/
theorem complete_port_log (s : State) (res : CmdResult) (sent : List Request) :
    (s.complete res sent).port.log = s.port.log ++ sent := by cases res <;> rfl

/-- The command sends `all` where no request faults, and ends with the first request that does (R86). -/
def State.SendsUpToFault (s : State) (i : Instr) (all : List Request) : Prop :=
  ∃ t, exec i s = .next t ∧
    (s.noFaultUpTo (all.length - 1) → t.port.log = s.port.log ++ all) ∧
    ∀ m, m < all.length → s.firstFault m → t.port.log = s.port.log ++ all.take (m + 1)

theorem sendsUpToFault_of_exec {s : State} {i : Instr} {all : List Request} {n : Nat} (hall : all.length = n + 1)
    (hok : s.noFaultUpTo n → ∃ res, exec i s = .next (s.complete res all))
    (hfault : ∀ m, m ≤ n → s.firstFault m → ∃ res, exec i s = .next (s.complete res (all.take (m + 1)))) :
    s.SendsUpToFault i all := by
  obtain ⟨t, ht⟩ : ∃ t, exec i s = .next t := ⟨_, exec_of_run rfl rfl⟩
  have hlog : ∀ {sent : List Request}, (∃ res, exec i s = .next (s.complete res sent)) →
      t.port.log = s.port.log ++ sent := by
    rintro sent ⟨res, h⟩
    cases ht.symm.trans h
    exact complete_port_log ..
  rw [State.SendsUpToFault, hall]
  exact ⟨t, ht, fun hf => hlog (hok hf), fun m hm hf => hlog (hfault m (Nat.le_of_lt_succ hm) hf)⟩

/-- Settles O16: each command's equations of `exec`, without a fault and at the first one, name its requests. -/
theorem portRequestsGoInIndexOrder : Obligations.PortRequestsGoInIndexOrder := by
  intro s hc hin hk hv
  have hP := primOf_keepsLength hc s.keyData
  have hiv := ivData_length s
  refine ⟨fun hd => ⟨⟨_, isCbcEncryption_cipherOf hP hiv (by rwa [inData_length]), ?_⟩, ?_, ?_⟩,
    _, isCbcEncryption_cipherOf hP hiv ?_, ?_⟩
  · exact sendsUpToFault_of_exec (by simp [encRequestsOf]) (fun hf => ⟨_, exec_encrypt_ok hc hin hk hv hd hf⟩)
      fun m hm hf => ⟨_, exec_encrypt_fault hc hin hk hv hd hm hf⟩
  · exact sendsUpToFault_of_exec (by simp) (fun hf => ⟨_, exec_decrypt_ok hc hin hk hv hd hf⟩)
      fun m hm hf => ⟨_, exec_decrypts_fault hc hin hk hv (.inl rfl) hd hm hf⟩
  · exact sendsUpToFault_of_exec (by simp) (fun hf => ⟨_, exec_decryptPadded_unpad hc hin hk hv hd hf⟩)
      fun m hm hf => ⟨_, exec_decrypts_fault hc hin hk hv (.inr rfl) hd hm hf⟩
  · rw [pad_length]
    exact (padded_blocks _ (Config.wf_facts hc).1).2
  · refine sendsUpToFault_of_exec ?_ (fun hf => ⟨_, exec_encryptPadded_ok hc hin hk hv hf⟩)
      fun m hm hf => ⟨_, exec_encryptPadded_fault hc hin hk hv hm hf⟩
    rw [← encryptRequests, encryptRequests_length, pad_length, inData_length,
      (padded_blocks _ (Config.wf_facts hc).1).1]

/-! ### Empty data (41_cbc.md R92) -/

theorem inData_of_inLen_zero {s : State} (h : s.inLen = 0#32) : s.inData = [] :=
  List.length_eq_zero_iff.1 (by rw [inData_length, h]; rfl)

theorem cipherOf_nil (P : Prim) (B : Nat) (k iv : Bytes) : cipherOf P B k iv [] = [] := by
  simp [cipherOf, blocks, encBlocks]

theorem plainOf_nil (P : Prim) (B : Nat) (k iv : Bytes) : plainOf P B k iv [] = [] := by
  simp [plainOf, blocks, decBlocks]

theorem encryptRequests_nil (P : Prim) (B : Nat) (k iv : Bytes) : encryptRequests P B k iv [] = [.setup k] := by
  simp [encryptRequests, encRequestsOf]

theorem decRequestsOf_nil (B : Nat) (k : Bytes) : decRequestsOf B k [] = [.setup k] := by simp [decRequestsOf]

/-- Empty data fits IN and is aligned, and has no block (R92). -/
theorem empty_operands {s : State} (h0 : s.inLen = 0#32) :
    s.inLen.toNat ≤ s.cfg.bufMax ∧ s.inLen.toNat % s.cfg.blockSize = 0 ∧ s.inLen.toNat / s.cfg.blockSize = 0 := by
  simp [h0]

section
variable {s : State} {i : Instr} (hi : i = .encrypt ∨ i = .decrypt) (hc : s.cfg.wf = true) (h0 : s.inLen = 0#32)
  (hk : s.keySizeOk) (hv : s.ivLen.toNat = s.cfg.blockSize)
include hi hc h0 hk hv

/-- On empty data ENCRYPT and DECRYPT whose `setup` is answered commit the empty result (R92). -/
theorem exec_empty_ok (hf : s.port.draw 0 = false) : exec i s = .next (s.complete (.ok []) [.setup s.keyData]) := by
  obtain ⟨hin, hd, hN⟩ := empty_operands h0
  have hf' : s.noFaultUpTo (s.inLen.toNat / s.cfg.blockSize) := fun m hm => by
    rw [hN] at hm
    rwa [Nat.le_zero.1 hm]
  obtain rfl | rfl := hi
  · rw [exec_encrypt_ok hc hin hk hv hd hf', inData_of_inLen_zero h0, cipherOf_nil, encryptRequests_nil]
  · rw [exec_decrypt_ok hc hin hk hv hd hf', inData_of_inLen_zero h0, plainOf_nil, decRequestsOf_nil]

/-- On empty data ENCRYPT and DECRYPT whose `setup` faults report it (R92). -/
theorem exec_empty_fault (hf : s.port.draw 0 = true) :
    exec i s = .next (s.complete (.error (primFaultError (faultInfo 0))) [.setup s.keyData]) := by
  obtain ⟨hin, hd, -⟩ := empty_operands h0
  have hf' : s.firstFault 0 := ⟨hf, fun _ h => absurd h (Nat.not_lt_zero _)⟩
  obtain rfl | rfl := hi
  · exact exec_encrypt_fault hc hin hk hv hd (Nat.zero_le _) hf'
  · exact exec_decrypts_fault hc hin hk hv (.inl rfl) hd (Nat.zero_le _) hf'

end

/-- Settles O17: the one request is `setup`, and its draw decides. -/
theorem emptyDataSendsOnlySetup : Obligations.EmptyDataSendsOnlySetup := by
  intro s i hi hc h0 hk hv
  by_cases hf : s.port.draw 0 = true
  · refine ⟨_, exec_empty_fault hi hc h0 hk hv hf, ?_⟩
    rw [if_pos hf]
    exact failed_complete ..
  · refine ⟨_, exec_empty_ok hi hc h0 hk hv (Bool.eq_false_iff.2 hf), ?_⟩
    rw [if_neg hf]
    exact committed_complete ..

/-! ### DECRYPT of what ENCRYPT committed (41_cbc.md R91; 70_reset_and_hazards.md R127) -/

/-- The value in CHAIN is a block (R84, R85). -/
theorem chainBefore_length {B n i : Nat} {iv c : Bytes} (hiv : iv.length = B) (hc : c.length = n * B) (hi : i ≤ n) :
    (chainBefore B iv c i).length = B := by
  cases i with
  | zero => exact hiv
  | succ i => exact blockOf_length hc hi

/-- With `D k` the inverse of `E k`, the decryption of a CBC encryption is what was encrypted: the XOR with the same
chaining value cancels (R82, R91). -/
theorem IsCbcEncryption.decrypts {P : Prim} {cfg : Config} (hP : P.Lawful cfg) {k iv d c : Bytes}
    (hk : k.length ∈ cfg.keySizes) (hiv : iv.length = cfg.blockSize) (hd : d.length % cfg.blockSize = 0)
    (h : IsCbcEncryption P cfg.blockSize k iv d c) : IsCbcDecryption P cfg.blockSize k iv c d := by
  have hN : d.length = d.length / cfg.blockSize * cfg.blockSize :=
    (Nat.div_mul_cancel (Nat.dvd_of_mod_eq_zero hd)).symm
  refine ⟨h.length.symm, fun i hi => ?_⟩
  rw [h.length] at hi
  have hblock := blockOf_length hN hi
  have hchain := chainBefore_length hiv (h.length.trans hN) (Nat.le_of_lt hi)
  have hxor : (xorBlock (blockOf cfg.blockSize d i) (chainBefore cfg.blockSize iv c i)).length = cfg.blockSize := by
    rw [xorBlock_length, hblock, hchain, Nat.min_self]
  obtain ⟨-, -, hinv, -⟩ := hP k _ hk hxor
  rw [h.block i hi, hinv, xorBlock_cancel _ _ (hblock.trans hchain.symm)]

/-- Copying a result to IN leaves the written bytes of KEY and IV as the command before found them (R30, R127). -/
theorem Committed.readBytes_copyOutToIn {s t : State} {r : Bytes} {sent : List Request} (h : Committed s t r sent)
    {b : Buffer} {n : Nat} (hb : bufStart b + n ≤ bufStart .input) (hw : s.written b n) :
    t.copyOutToIn.readBytes b n = s.readBytes b n := by
  refine List.map_congr_left fun k hk => ?_
  have hk := List.mem_range.1 hk
  obtain ⟨v, hv⟩ := Option.isSome_iff_exists.1 (hw k hk)
  have hout : bufStart .input ≤ bufStart .output := by decide
  have hmem : memGet t.copyOutToIn.mem (bufStart b + k) = some v := by
    rw [State.copyOutToIn, memGet_memSetBytes, if_neg (by omega), h.kept.memory _ (by omega), hv]
  rw [State.readByte, State.readByte, hmem, hv, Option.getD_some, Option.getD_some]

/-- The draws of the next command follow those that the command before used up (R81; log 7). -/
theorem Committed.noFaultUpTo_copyOutToIn {s t : State} {r : Bytes} {sent : List Request} (h : Committed s t r sent)
    {n : Nat} (hf : s.noFaultUpTo (sent.length + n)) : t.copyOutToIn.noFaultUpTo n := by
  intro m hm
  change t.port.draw m = false
  rw [h.ended.port, advance_draw]
  exact hf _ (by omega)

section
variable {s t : State} {r : Bytes} {sent : List Request} (h : Committed s t r sent) (hc : s.cfg.wf = true)
include h hc

/-- A result that fits IN is the next command's data, with its length in IN_LEN (70_reset_and_hazards.md R127). -/
theorem Committed.input_copyOutToIn (hfit : r.length ≤ s.cfg.bufMax) :
    t.copyOutToIn.inLen.toNat = r.length ∧ t.copyOutToIn.inData = r := by
  have hreg := wordOf_length_toNat hc (hfit.trans (Nat.le_add_right ..))
  exact ⟨by rw [State.copyOutToIn_inLen, h.outLen, hreg], h.result.inData_copyOutToIn hreg⟩

/-- The next command finds the same key and IV where they have been written (R91, R127). -/
theorem Committed.key_iv_copyOutToIn (hk : s.keySizeOk) (hv : s.ivLen.toNat = s.cfg.blockSize)
    (hkey : s.written .key s.keyLen.toNat) (hiv : s.written .iv s.ivLen.toNat) :
    t.copyOutToIn.keyData = s.keyData ∧ t.copyOutToIn.ivData = s.ivData := by
  obtain ⟨-, hB, -, hsizes, -⟩ := Config.wf_facts hc
  have hk32 := (hsizes _ hk).2
  have hkeyLen : t.copyOutToIn.keyLen = s.keyLen := h.kept.keyLen
  constructor
  · rw [State.keyData, hkeyLen]
    exact h.readBytes_copyOutToIn (by simp only [bufStart]; omega) hkey
  · rw [State.ivData, State.copyOutToIn_cfg, h.kept.cfg]
    exact h.readBytes_copyOutToIn (by simp only [bufStart]; omega) (hv ▸ hiv)

/-- A committed encryption, copied to IN, decrypts under the next command's operands to what was encrypted (R91). -/
theorem Committed.decrypts_copyOutToIn (hP : (primOf s.cfg).Lawful s.cfg) (hk : s.keySizeOk)
    (hv : s.ivLen.toNat = s.cfg.blockSize) (hkey : s.written .key s.keyLen.toNat) (hiv : s.written .iv s.ivLen.toNat)
    {d : Bytes} (hd : d.length % s.cfg.blockSize = 0) (hfit : r.length ≤ s.cfg.bufMax)
    (hcipher : IsCbcEncryption (primOf s.cfg) s.cfg.blockSize s.keyData s.ivData d r) :
    IsCbcDecryption (primOf t.copyOutToIn.cfg) t.copyOutToIn.cfg.blockSize t.copyOutToIn.keyData t.copyOutToIn.ivData
      t.copyOutToIn.inData d := by
  obtain ⟨hkeyData, hivData⟩ := h.key_iv_copyOutToIn hc hk hv hkey hiv
  rw [(h.input_copyOutToIn hc hfit).2, hkeyData, hivData, State.copyOutToIn_cfg, h.kept.cfg]
  exact hcipher.decrypts hP (by rwa [keyData_length]) (ivData_length s) hd

end

/-- DECRYPT of data whose CBC decryption is `p` commits `p` (R88). -/
theorem exec_decrypt_of_isCbcDecryption {s : State} (hc : s.cfg.wf = true) (hin : s.inLen.toNat ≤ s.cfg.bufMax)
    (hk : s.keySizeOk) (hv : s.ivLen.toNat = s.cfg.blockSize) (hd : s.inLen.toNat % s.cfg.blockSize = 0)
    (hf : s.noFaultUpTo (s.inLen.toNat / s.cfg.blockSize)) {p : Bytes}
    (hdec : IsCbcDecryption (primOf s.cfg) s.cfg.blockSize s.keyData s.ivData s.inData p) :
    exec .decrypt s = .next (s.complete (.ok p) (decRequestsOf s.cfg.blockSize s.keyData s.inData)) := by
  have hd' : s.inData.length % s.cfg.blockSize = 0 := by rwa [inData_length]
  have hplain := (isCbcDecryption_plainOf (primOf_keepsLength hc _) (ivData_length s) hd').eq hd' hdec
  rw [exec_decrypt_ok hc hin hk hv hd hf, hplain]

/-- Settles O29: DECRYPT finds the ciphertext in IN under the same key and IV, and it decrypts to the plaintext. -/
theorem encryptThenDecryptRestoresData : Obligations.EncryptThenDecryptRestoresData := by
  intro s hc hP hin hk hv hd hkey hiv hf
  have hd' : s.inData.length % s.cfg.blockSize = 0 := by rwa [inData_length]
  have hcipher := isCbcEncryption_cipherOf (primOf_keepsLength hc s.keyData) (ivData_length s) hd'
  have hlen := hcipher.length.trans (inData_length s)
  obtain ⟨t, ht⟩ : ∃ t, exec .encrypt s = .next t := ⟨_, exec_of_run rfl rfl⟩
  have hcommit := committed_of_exec ht (exec_encrypt_ok hc hin hk hv hd fun m hm => hf m (by omega))
  have hdec := hcommit.decrypts_copyOutToIn hc hP hk hv hkey hiv hd' (hlen ▸ hin) hcipher
  have hcfg : t.copyOutToIn.cfg = s.cfg := hcommit.kept.cfg
  have hkeyLen : t.copyOutToIn.keyLen = s.keyLen := hcommit.kept.keyLen
  have hivLen : t.copyOutToIn.ivLen = s.ivLen := hcommit.kept.ivLen
  have hinLen := (hcommit.input_copyOutToIn hc (hlen ▸ hin)).1.trans hlen
  have hf' : t.copyOutToIn.noFaultUpTo (s.inLen.toNat / s.cfg.blockSize) :=
    hcommit.noFaultUpTo_copyOutToIn fun m hm => hf m (by rw [encryptRequests_length, inData_length] at hm; omega)
  refine ⟨t, _, ht, exec_decrypt_of_isCbcDecryption (hcfg ▸ hc) ?_ ?_ ?_ ?_ ?_ hdec, rfl,
    (committed_complete ..).result⟩
  · rwa [hinLen, hcfg]
  · rwa [State.keySizeOk, hkeyLen, hcfg]
  · rwa [hivLen, hcfg]
  · rwa [hinLen, hcfg]
  · rwa [hinLen, hcfg]

end Sys2Proof.Machine

/-! ## The Padded Transform (42_padded.md)

ENCRYPT_PADDED is Pad, then CbcEncrypt; DECRYPT_PADDED is CbcDecrypt, then UnpadOp. The equations of `exec` for each
outcome come from those parts, and the obligations are read off them. -/

/-! ### ENCRYPT_PADDED (42_padded.md R93) -/

namespace Sys2Proof.Machine

/-- ENCRYPT_PADDED with a check that fails on the padded data completes with its error, and no request (R93). -/
theorem exec_encryptPadded_rejected {s : State} (hc : s.cfg.wf = true) (hin : s.inLen.toNat ≤ s.cfg.bufMax)
    {err : ErrorRec} (h : cbcCheck (pad s.inData s.cfg.blockSize).length s.snapshot = some err) :
    exec .encryptPadded s = .next (s.complete (.error err) []) := by
  have hrun := (run_encryptPadded hc hin).trans (cbcEncrypt_rejected _ _ _ h)
  exact exec_of_run (congrArg (·.1) hrun) (congrArg (·.2.sent) hrun)

/-- A padded sequence is a whole number of blocks, one more than the whole blocks of the data (40_padding.md R71). -/
theorem pad_length_blocks (d : Bytes) {B : Nat} (h : 1 ≤ B) :
    (pad d B).length / B = d.length / B + 1 ∧ (pad d B).length % B = 0 := by
  rw [pad_length]
  exact padded_blocks d.length h

/-- Settles O13: the padding makes the alignment check pass, so a check of IN_LEN, the key size or the IV length fails, a
request faults, or the padded input is encrypted. -/
theorem encryptPaddedCompletesInEveryCase : Obligations.EncryptPaddedCompletesInEveryCase := by
  intro s hc
  obtain ⟨t, ht⟩ : ∃ t, exec .encryptPadded s = .next t := ⟨_, exec_of_run rfl rfl⟩
  obtain ⟨hN, hd⟩ := pad_length_blocks s.inData (Config.wf_facts hc).1
  rw [inData_length] at hN
  refine ⟨t, ht, ?_⟩
  dsimp only
  split_ifs with hin hk hv
  · exact failed_of_exec ht (exec_of_inLen_gt .encryptPadded hin)
  · exact failed_of_exec ht (exec_encryptPadded_rejected hc (Nat.not_lt.1 hin) (cbcCheck_ivLen hk hd hv))
  · replace hin := Nat.not_lt.1 hin
    replace hv := not_not.1 hv
    refine ⟨fun m hm hf => ?_, fun hf => ?_⟩
    · exact failed_at_firstFault ht (by rw [encryptRequests_length, hN]) hm
        (exec_encryptPadded_fault hc hin hk hv hm hf)
    · have hcipher := isCbcEncryption_cipherOf (primOf_keepsLength hc s.keyData) (ivData_length s) hd
      have hlen := hcipher.length
      rw [pad_length, inData_length] at hlen
      refine ⟨padLength s.inLen.toNat s.cfg.blockSize, _, _, rfl, ?_, hlen, by rw [encryptRequests_length, hN],
        committed_of_exec ht (exec_encryptPadded_ok hc hin hk hv hf)⟩
      rw [← inData_length s]
      exact hcipher
  · exact failed_of_exec ht (exec_encryptPadded_rejected hc (Nat.not_lt.1 hin) (cbcCheck_keySize hk))

/-! ### DECRYPT_PADDED (42_padded.md R94) -/

/-- Empty data is no padded sequence: check 2 of R73 rejects it (40_padding.md R74). -/
theorem unpadOp_fst_nil (mode : ScanMode) {n : Nat} (stage : Stage) (hn : ¬badBlockLen n) :
    (unpadOp mode [] n stage).1 = .error (unpadError .unpadLen 0 n stage) := by
  rw [unpadOp_fst, if_neg hn, if_pos (.inl rfl), List.length_nil]

/-- A command that completes with UnpadOp of whole blocks `q`, as long as its input, at stage UNPAD: UNPAD_LEN of none, a
failing check of the padding, or `q` without its padding (40_padding.md R73; R94). -/
theorem completes_by_unpad {i : Instr} {s t : State} {mode : ScanMode} {q : Bytes} {n : Nat} {sent : List Request}
    (ht : exec i s = .next t) (hrun : exec i s = .next (s.complete (unpadOp mode q n .unpad).1 sent))
    (hn : ¬badBlockLen n) (hlen : q.length = s.inLen.toNat) (hd : q.length % n = 0) :
    if q.length = 0 then Failed s t ⟨.invalidInput, .unpad, .unpadLen, 0#32, wordOf n⟩ sent
    else if (lastByte q).toNat = 0 ∨ n < (lastByte q).toNat then
      Failed s t ⟨.invalidInput, .unpad, .padLenValue, s.inLen, wordOf n⟩ sent
    else if ¬allEqual (lastBytes q (lastByte q).toNat) (lastByte q) then
      Failed s t ⟨.invalidInput, .unpad, .padByteMismatch, s.inLen, wordOf n⟩ sent
    else Committed s t (q.take (q.length - (lastByte q).toNat)) sent := by
  by_cases h0 : q.length = 0
  · rw [if_pos h0]
    rw [List.length_eq_zero_iff.1 h0, unpadOp_fst_nil _ _ hn] at hrun
    exact failed_of_exec ht hrun
  · rw [if_neg h0]
    rw [unpadOp_fst_of_blocks mode .unpad hn (by omega)] at hrun
    have hinLen : wordOf q.length = s.inLen := by rw [hlen, wordOf_toNat]
    rw [← hinLen]
    split_ifs at hrun ⊢ with hval heq
    · exact failed_of_exec ht hrun
    · exact committed_of_exec ht hrun
    · exact failed_of_exec ht hrun

/-- Settles O14: DECRYPT's checks, then a first fault, or UnpadOp of the decryption by its recurrence. -/
theorem decryptPaddedCompletesInEveryCase : Obligations.DecryptPaddedCompletesInEveryCase := by
  intro s hc
  obtain ⟨t, ht⟩ : ∃ t, exec .decryptPadded s = .next t := ⟨_, exec_of_run rfl rfl⟩
  refine ⟨t, ht, completes_by_checks ht (fun hin _ => exec_decrypts_rejected (.inr rfl) hin) fun hin hk hd hv =>
    ⟨fun m hm hf => ?_, fun hf => ?_⟩⟩
  · exact failed_at_firstFault ht (by simp) hm (exec_decrypts_fault hc hin hk hv (.inr rfl) hd hm hf)
  · have hd' : s.inData.length % s.cfg.blockSize = 0 := by rwa [inData_length]
    have hplain := isCbcDecryption_plainOf (primOf_keepsLength hc s.keyData) (ivData_length s) hd'
    have hlen := hplain.length.trans (inData_length s)
    obtain ⟨hB1, hB255, -⟩ := Config.wf_facts hc
    exact ⟨_, _, hplain, by simp, completes_by_unpad ht (exec_decryptPadded_unpad hc hin hk hv hd hf) (by omega) hlen
      (by rwa [hlen])⟩

/-! ### DECRYPT_PADDED of what ENCRYPT_PADDED committed (42_padded.md R98; 70_reset_and_hazards.md R127) -/

/-- DECRYPT_PADDED of a committed encryption of padded data, copied to IN, commits the data (R98). -/
theorem Committed.exec_decryptPadded_copyOutToIn {s t : State} {r d : Bytes} {sent : List Request}
    (h : Committed s t r sent) (hc : s.cfg.wf = true) (hP : (primOf s.cfg).Lawful s.cfg) (hk : s.keySizeOk)
    (hv : s.ivLen.toNat = s.cfg.blockSize) (hkey : s.written .key s.keyLen.toNat) (hiv : s.written .iv s.ivLen.toNat)
    (hfit : r.length ≤ s.cfg.bufMax)
    (hcipher : IsCbcEncryption (primOf s.cfg) s.cfg.blockSize s.keyData s.ivData (pad d s.cfg.blockSize) r)
    (hf : s.noFaultUpTo (sent.length + r.length / s.cfg.blockSize)) :
    ∃ sent', exec .decryptPadded t.copyOutToIn = .next (t.copyOutToIn.complete (.ok d) sent') := by
  have hd := (pad_length_blocks d (Config.wf_facts hc).1).2
  have hdec := h.decrypts_copyOutToIn hc hP hk hv hkey hiv hd hfit hcipher
  have hcfg : t.copyOutToIn.cfg = s.cfg := h.kept.cfg
  have hkeyLen : t.copyOutToIn.keyLen = s.keyLen := h.kept.keyLen
  have hivLen : t.copyOutToIn.ivLen = s.ivLen := h.kept.ivLen
  have hinLen := (h.input_copyOutToIn hc hfit).1
  refine ⟨_, exec_decryptPadded_ok (hcfg ▸ hc) ?_ ?_ ?_ ?_ ?_ (by rwa [hcfg] at hdec ⊢)⟩
  · rwa [hinLen, hcfg]
  · rwa [State.keySizeOk, hkeyLen, hcfg]
  · rwa [hivLen, hcfg]
  · rwa [hinLen, hcfg, hcipher.length]
  · rw [hinLen, hcfg]
    exact h.noFaultUpTo_copyOutToIn hf

/-- Settles O30: DECRYPT_PADDED finds the ciphertext of the padded data in IN under the same key and IV. -/
theorem paddedRoundTripRestoresData : Obligations.PaddedRoundTripRestoresData := by
  intro s hc hP hfit hk hv hkey hiv hf
  have hB := (Config.wf_facts hc).1
  have hmod := Nat.mod_lt s.inLen.toNat hB
  obtain ⟨hN, hd⟩ := pad_length_blocks s.inData hB
  rw [inData_length] at hN
  have hcipher := isCbcEncryption_cipherOf (primOf_keepsLength hc s.keyData) (ivData_length s) hd
  have hlen := hcipher.length
  obtain ⟨t, ht⟩ : ∃ t, exec .encryptPadded s = .next t := ⟨_, exec_of_run rfl rfl⟩
  have hcommit := committed_of_exec ht (exec_encryptPadded_ok hc (by omega) hk hv fun m hm => hf m (by omega))
  obtain ⟨sent, hdec⟩ := hcommit.exec_decryptPadded_copyOutToIn hc hP hk hv hkey hiv
    (by rw [hlen, pad_length, inData_length, padLength]; omega) hcipher
    fun m hm => hf m (by rw [encryptRequests_length, hlen, hN] at hm; omega)
  exact ⟨t, _, ht, hdec, rfl, (committed_complete ..).result⟩

/-! ### BLOCK_LEN (42_padded.md R96) -/

/-- The padded operations take their block length from the configuration, not from BLOCK_LEN (R96). -/
theorem bodyOf_blockLen {i : Instr} (hi : i = .encryptPadded ∨ i = .decryptPadded) (P : Prim) (draw : Nat → Bool)
    (S : Snapshot) (v : Word) (e : Engine) :
    bodyOf i P draw { S with blockLen := v } e = bodyOf i P draw S e := by
  obtain rfl | rfl := hi
  · rfl
  · rfl

/-- A completion leaves BLOCK_LEN alone and writes nothing that depends on it (60_exceptions.md R103, R104). -/
theorem complete_blockLen (s : State) (v : Word) (res : CmdResult) (sent : List Request) :
    ({ s with blockLen := v } : State).complete res sent = { s.complete res sent with blockLen := v } := by
  cases res <;> rfl

/-- A padded command's result and requests do not depend on BLOCK_LEN (R96). -/
theorem runBody_blockLen {i : Instr} (hi : i = .encryptPadded ∨ i = .decryptPadded) (s : State) (v : Word) :
    runBody (bodyOf i) { s with blockLen := v } = runBody (bodyOf i) s := by
  by_cases h : s.cfg.bufMax < s.inLen.toNat
  · rw [runBody_of_inLen_gt _ h, runBody_of_inLen_gt (s := { s with blockLen := v }) _ h]
    rfl
  · rw [runBody_of_inLen_le _ (Nat.not_lt.1 h), runBody_of_inLen_le (s := { s with blockLen := v }) _ (Nat.not_lt.1 h)]
    exact bodyOf_blockLen hi _ _ s.snapshot v _

/-- Settles O19: neither the body nor the completion depends on BLOCK_LEN. -/
theorem paddedCommandsIgnoreBlockLen : Obligations.PaddedCommandsIgnoreBlockLen := by
  intro i s v hi
  refine ⟨_, exec_of_run rfl rfl, ?_⟩
  rw [exec_of_run rfl rfl, runBody_blockLen hi, complete_blockLen]

end Sys2Proof.Machine

/-! ## Errors, command start and completion (60_exceptions.md)

Every completion of a command is `State.complete`; what an error completion reports is read off the case analyses of the
six commands. The order of a host write and a completion is two steps, each with its own equation. -/

/-! ### Command start (60_exceptions.md R105) -/

namespace Sys2Proof.Machine

/-- The sequencer's turn of a busy PCU is a completion, whatever the word in CMD (10_state.md R18). -/
theorem sequencerTurn_completes {s : State} (hb : s.status.busy = true) :
    ∃ res sent, sequencerTurn s = .next (s.complete res sent) := by
  cases hd : decodeWord s.cmd with
  | ok i => exact ⟨_, _, (sequencerTurn_legal hb hd).trans (exec_of_run rfl rfl)⟩
  | error e => exact ⟨_, _, sequencerTurn_illegal hb hd⟩

/-- Settles O41: the write is a command start, and the sequencer's turn of the busy PCU is a completion. -/
theorem cmdWriteStartsACommand : Obligations.CmdWriteStartsACommand := by
  intro s w hb
  obtain ⟨res, sent, hturn⟩ := sequencerTurn_completes (s := s.startCommand w) rfl
  obtain ⟨hbusy, hdone, -⟩ := complete_status (s.startCommand w) res sent
  exact ⟨s.startCommand w, busWrite_reg hb .cmd w, rfl, rfl, rfl, rfl, rfl, rfl, rfl, rfl, rfl, rfl,
    _, hturn, hbusy, hdone⟩

/-- A word placed by its number stands in CMD as by a command start, with the sequencer's turn next (log 20). -/
theorem withFetchWord_toNat (s : State) (w : Word) :
    s.withFetchWord 32 w.toNat = { s.startCommand w with turns := .sequencer :: s.turns } := by
  rw [State.withFetchWord, Nat.mod_eq_of_lt w.isLt, wordOf_toNat]

/-- Settles O7: the placed word is decoded in the sequencer's turn, which is the next one. -/
theorem placedWordRunsNext : Obligations.PlacedWordRunsNext := by
  intro s i hc
  rw [withFetchWord_toNat]
  exact stepRunsTheDecodedCommand _ i hc rfl rfl (decodeWord_encode i)

/-! ### Dropped writes, and a write against a completion (60_exceptions.md R106, R108) -/

/-- Settles O40: the bus-error check passes, so a busy PCU drops the write, and a read is served either way. -/
theorem writesWhileBusyAreDropped : Obligations.WritesWhileBusyAreDropped := fun s _ _ v he =>
  ⟨fun hb => busWrite_dropped hb he v, busRead_accepted s he⟩

/-- Either completion keeps IN_LEN and the agents' data (60_exceptions.md R103, R104). -/
theorem complete_agents (s : State) (res : CmdResult) (sent : List Request) :
    (s.complete res sent).cfg = s.cfg ∧ (s.complete res sent).inLen = s.inLen ∧
      (s.complete res sent).host = s.host ∧ (s.complete res sent).turns = s.turns := by
  cases res with
  | ok r => exact ⟨rfl, rfl, rfl, rfl⟩
  | error e => exact ⟨rfl, rfl, rfl, rfl⟩

/-- A sequencer's step of a busy PCU is a completion (10_state.md R18). -/
theorem step_completes {s : State} (hc : s.cfg.wf = true) (hb : s.status.busy = true) (hn : s.nextTurn = .sequencer) :
    ∃ res sent, step s = .next (s.popTurn.complete res sent) := by
  obtain ⟨res, sent, hturn⟩ := sequencerTurn_completes (s := s.popTurn) hb
  exact ⟨res, sent, by rw [step_of_wf hc, hn]; exact hturn⟩

/-- A host's step whose next access is a write inside the aperture is that write, logged (20_memory.md R40, R54). -/
theorem step_hostWrite {s u : State} {off n : Nat} {v : Word} {o : BusOutcome} {rest : List HostStep}
    (hc : s.cfg.wf = true) (hn : s.nextTurn = .host)
    (hh : s.host = .access (.write (s.cfg.base + off) n v) :: rest) (ho : off < 0x40000)
    (hw : ({ s.popTurn with host := rest } : State).busWrite off n v = (o, u)) :
    step s = .next (u.logEvent (.bus (.write (s.cfg.base + off) n v) o)) := by
  rw [step_of_wf hc, hn]
  refine (hostTurn_access (s := s.popTurn) hh).trans ((hostAccess_inside ho rfl).trans ?_)
  rw [State.busAccess, hw]

section
variable {s : State} {w : Word} (hc : s.cfg.wf = true) (hb : s.status.busy = true)
  (hh : s.host = [.access (.write (s.cfg.base + 0x00C) 4 w)])
include hc hb hh

/-- A write to IN_LEN that comes before the completion meets a busy PCU and is dropped (R106, R108). -/
theorem step_write_then_completion (ht : s.turns = [.host, .sequencer]) :
    ∃ t u, step s = .next t ∧ step t = .next u ∧ u.inLen = s.inLen ∧ u.status.accessErr = true ∧
      u.status.busy = false := by
  have hdrop := busWrite_dropped (s := { s.popTurn with host := [] }) hb (isBusError_reg .inLen) w
  obtain ⟨t, hwrite, hcfg, hinLen, hbusy, herr, hturns⟩ : ∃ t, step s = .next t ∧ t.cfg = s.cfg ∧ t.inLen = s.inLen ∧
      t.status.busy = true ∧ t.status.accessErr = true ∧ t.turns = [.sequencer] :=
    ⟨_, step_hostWrite hc (by simp [State.nextTurn, ht]) hh (by decide) hdrop, rfl, rfl, hb, rfl, congrArg List.tail ht⟩
  obtain ⟨res, sent, hstep⟩ := step_completes (hcfg ▸ hc) hbusy (by simp [State.nextTurn, hturns])
  obtain ⟨hidle, -, herr'⟩ := complete_status t.popTurn res sent
  obtain ⟨-, hinLen', -⟩ := complete_agents t.popTurn res sent
  exact ⟨t, _, hwrite, hstep, hinLen'.trans hinLen, herr'.trans herr, hidle⟩

/-- A write to IN_LEN that comes after the completion meets an idle PCU and is carried out (R108). -/
theorem step_completion_then_write (ht : s.turns = [.sequencer, .host]) :
    ∃ t u, step s = .next t ∧ step t = .next u ∧ u.inLen = w ∧ u.status.accessErr = s.status.accessErr ∧
      u.status.busy = false := by
  obtain ⟨res, sent, hstep⟩ := step_completes hc hb (by simp [State.nextTurn, ht])
  obtain ⟨hidle, -, herr⟩ := complete_status s.popTurn res sent
  obtain ⟨hcfg, -, hhost, hturns⟩ := complete_agents s.popTurn res sent
  have hnext : (s.popTurn.complete res sent).nextTurn = .host := by simp [State.nextTurn, hturns, ht]
  have hset := busWrite_reg (s := { (s.popTurn.complete res sent).popTurn with host := [] }) hidle .inLen w
  have hwrite := step_hostWrite (hcfg ▸ hc) hnext (hhost.trans (hcfg ▸ hh)) (by decide) hset
  exact ⟨_, _, hstep, hwrite, rfl, herr, hidle⟩

end

/-- Settles O55: one run for each order. -/
theorem writeAgainstCompletionBothOrders : Obligations.WriteAgainstCompletionBothOrders := fun s _ hc hb hh =>
  ⟨step_write_then_completion (s := { s with turns := [.host, .sequencer] }) hc hb hh rfl,
    step_completion_then_write (s := { s with turns := [.sequencer, .host] }) hc hb hh rfl⟩

/-! ### Every step answers (60_exceptions.md R99, R103) -/

/-- The host's turn always answers, an access outside the aperture included (20_memory.md R40). -/
theorem hostTurn_answers (s : State) : ∃ t, hostTurn s = .next t := by
  cases hh : s.host with
  | nil => exact ⟨_, hostTurn_nil hh⟩
  | cons x rest =>
    cases x with
    | access a => exact ⟨_, hostTurn_access hh⟩
    | wait => exact ⟨_, hostTurn_wait hh⟩

/-- Whoever acts, the turn answers. -/
theorem takeTurn_answers (turn : Turn) (s : State) : ∃ t, takeTurn turn s = .next t := by
  cases turn with
  | host => exact hostTurn_answers s
  | sequencer =>
    cases hb : s.status.busy with
    | false => exact ⟨s, by simp [takeTurn, sequencerTurn, hb]⟩
    | true =>
      obtain ⟨res, sent, h⟩ := sequencerTurn_completes hb
      exact ⟨_, h⟩
  | work => exact ⟨_, rfl⟩
  | reset => exact ⟨_, rfl⟩

/-- Settles O58: each agent's turn answers, and no step changes the configuration. -/
theorem everyStepAnswers : Obligations.EveryStepAnswers := by
  refine ⟨fun s hc => ?_, fun s hc => by simp [step, hc]⟩
  obtain ⟨t, ht⟩ := takeTurn_answers s.nextTurn s.popTurn
  have hstep : step s = .next t := (step_of_wf hc).trans ht
  have hcfg : t.cfg = s.cfg := (operandsBelongToTheHost s t hc hstep).1
  exact ⟨t, hstep, hcfg ▸ hc⟩

/-! ### The cause table (60_exceptions.md R101, R102) -/

/-- The info values that the row of a cause gives for a command on these operands (R101). -/
def State.rowInfo (s : State) (i : Instr) (cause : Cause) (info0 info1 : Word) : Prop :=
  match cause with
  | .success => info0 = 0#32 ∧ info1 = 0#32
  | .illegalCmd => False
  | .inLenRange => info0 = s.inLen ∧ info1 = wordOf s.cfg.bufMax
  | .blockLenRange => info0 = wordOf (s.blockLenOf i) ∧ info1 = 0#32
  | .unpadLen | .padLenValue | .padByteMismatch => info0 = s.inLen ∧ info1 = wordOf (s.blockLenOf i)
  | .keySize => info0 = s.keyLen ∧ info1 = 0#32
  | .dataMisaligned => info0 = s.inLen ∧ info1 = wordOf s.cfg.blockSize
  | .ivLen => info0 = s.ivLen ∧ info1 = wordOf s.cfg.blockSize
  | .primFault => info1 = 0#32 ∧ ∃ m, m ≤ s.inLen.toNat / s.cfg.blockSize + 1 ∧ info0 = faultInfo m

/-- `t` completes command `i` in a row of the table that names the command, at the row's stage and with its info
values (R101). -/
structure State.CompletesInRow (s : State) (i : Instr) (t : State) : Prop where
  inTable : t.status.inTable
  cause : t.status.cause ∈ causesOf i
  stage : t.status.stage = stageOf i t.status.cause
  info : s.rowInfo i t.status.cause t.errInfo0 t.errInfo1

/-- The record a command reports for a cause: its row gives the kind and the stage (R101). -/
def rowError (i : Instr) (cause : Cause) (info0 info1 : Word) : ErrorRec :=
  ⟨cause.row.1, stageOf i cause, cause, info0, info1⟩

/-- The stage a command reports a cause at is one of the cause's row (R101). -/
theorem stageOf_mem_row (i : Instr) (cause : Cause) : stageOf i cause ∈ cause.row.2 := by
  cases cause with
  | blockLenRange => cases i <;> decide
  | _ => exact List.mem_singleton.2 rfl

section
variable {s t : State} {i : Instr}

/-- KIND, STAGE and CAUSE of one row, with its info values. -/
theorem completesInRow_of_cause {cause : Cause} (hkind : t.status.kind = cause.row.1)
    (hstage : t.status.stage = stageOf i cause) (hcause : t.status.cause = cause) (hi : cause ∈ causesOf i)
    (hinfo : s.rowInfo i cause t.errInfo0 t.errInfo1) : s.CompletesInRow i t := by
  subst hcause
  exact ⟨⟨hkind, hstage ▸ stageOf_mem_row i _⟩, hi, hstage, hinfo⟩

/-- An error completion with a row's record is in that row. -/
theorem Failed.completesInRow {sent : List Request} (cause : Cause) {info0 info1 : Word}
    (h : Failed s t (rowError i cause info0 info1) sent) (hi : cause ∈ causesOf i)
    (hinfo : s.rowInfo i cause info0 info1) : s.CompletesInRow i t :=
  completesInRow_of_cause h.kind h.stage h.cause hi (by rw [h.info0, h.info1]; exact hinfo)

/-- A successful completion is in the row of success, which names every command. -/
theorem Committed.completesInRow {r : Bytes} {sent : List Request} (h : Committed s t r sent) : s.CompletesInRow i t :=
  completesInRow_of_cause (cause := .success) h.kind h.stage h.cause (by cases i <;> decide) ⟨h.info0, h.info1⟩

/-- IN_LEN_RANGE is a row of every command (R101). -/
theorem Failed.completesInRow_inLenRange {sent : List Request}
    (h : Failed s t ⟨.invalidInput, .interface, .inLenRange, s.inLen, wordOf s.cfg.bufMax⟩ sent) :
    s.CompletesInRow i t :=
  Failed.completesInRow .inLenRange h (by cases i <;> decide) ⟨rfl, rfl⟩

/-- A CBC command that reports its first fault, or ends in a row without one, ends in a row (41_cbc.md R86). -/
theorem completesInRow_of_firstFault {n : Nat} (hn : n ≤ s.inLen.toNat / s.cfg.blockSize + 1)
    (hi : Cause.primFault ∈ causesOf i)
    (hfault : ∀ m, m ≤ n → s.firstFault m →
      ∃ sent, sent.length = m + 1 ∧ Failed s t ⟨.unexpectedFault, .cbc, .primFault, faultInfo m, 0#32⟩ sent)
    (hran : s.noFaultUpTo n → s.CompletesInRow i t) : s.CompletesInRow i t := by
  rcases exists_first_fault s.port.draw (n + 1) with hnone | ⟨m, hm, hfirst⟩
  · exact hran fun m hm => hnone m (Nat.lt_succ_of_le hm)
  · have hmn : m ≤ n := Nat.le_of_lt_succ hm
    obtain ⟨sent, -, hfailed⟩ := hfault m hmn hfirst
    exact hfailed.completesInRow .primFault hi ⟨rfl, m, hmn.trans hn, rfl⟩

/-- A command on unpadded CBC input, which fails a check, reports its first fault, or ends in a row without one, ends in
a row: the order of R102. -/
theorem completesInRow_of_cbcCases {ran : Prop}
    (hi : ∀ cause ∈ [Cause.keySize, .dataMisaligned, .ivLen, .primFault], cause ∈ causesOf i)
    (h : if s.cfg.bufMax < s.inLen.toNat then
        Failed s t ⟨.invalidInput, .interface, .inLenRange, s.inLen, wordOf s.cfg.bufMax⟩ []
      else if ¬s.keySizeOk then Failed s t ⟨.invalidInput, .cbc, .keySize, s.keyLen, 0#32⟩ []
      else if s.inLen.toNat % s.cfg.blockSize ≠ 0 then
        Failed s t ⟨.invalidInput, .cbc, .dataMisaligned, s.inLen, wordOf s.cfg.blockSize⟩ []
      else if s.ivLen.toNat ≠ s.cfg.blockSize then
        Failed s t ⟨.invalidInput, .cbc, .ivLen, s.ivLen, wordOf s.cfg.blockSize⟩ []
      else
        (∀ m, m ≤ s.inLen.toNat / s.cfg.blockSize → s.firstFault m →
          ∃ sent, sent.length = m + 1 ∧ Failed s t ⟨.unexpectedFault, .cbc, .primFault, faultInfo m, 0#32⟩ sent) ∧
        (s.noFaultUpTo (s.inLen.toNat / s.cfg.blockSize) → ran))
    (hran : ran → s.CompletesInRow i t) : s.CompletesInRow i t := by
  split_ifs at h
  · exact h.completesInRow_inLenRange
  · exact h.completesInRow .dataMisaligned (hi _ (by decide)) ⟨rfl, rfl⟩
  · exact h.completesInRow .ivLen (hi _ (by decide)) ⟨rfl, rfl⟩
  · obtain ⟨hfault, hnone⟩ := h
    exact completesInRow_of_firstFault (Nat.le_succ _) (hi _ (by decide)) hfault fun hf => hran (hnone hf)
  · exact h.completesInRow .keySize (hi _ (by decide)) ⟨rfl, rfl⟩

end

/-- PAD completes in a row (R101, R102). -/
theorem pad_completesInRow (s : State) : ∃ t, exec .pad s = .next t ∧ s.CompletesInRow .pad t := by
  obtain ⟨t, ht, h⟩ := padCompletesInEveryCase s
  refine ⟨t, ht, ?_⟩
  split_ifs at h
  · exact h.completesInRow_inLenRange
  · exact h.completesInRow .blockLenRange (by decide) ⟨(wordOf_toNat _).symm, rfl⟩
  · obtain ⟨p, -, -, -, hcommitted⟩ := h
    exact hcommitted.completesInRow

/-- UNPAD completes in a row (R101, R102). -/
theorem unpad_completesInRow (s : State) : ∃ t, exec .unpad s = .next t ∧ s.CompletesInRow .unpad t := by
  obtain ⟨t, ht, h⟩ := unpadCompletesInEveryCase s
  refine ⟨t, ht, ?_⟩
  have hn : s.blockLen = wordOf (s.blockLenOf .unpad) := (wordOf_toNat _).symm
  dsimp only at h
  split_ifs at h
  · exact h.completesInRow_inLenRange
  · exact h.completesInRow .blockLenRange (by decide) ⟨hn, rfl⟩
  · exact h.completesInRow .unpadLen (by decide) ⟨rfl, hn⟩
  · exact h.completesInRow .padLenValue (by decide) ⟨rfl, hn⟩
  · exact h.completesInRow
  · exact h.completesInRow .padByteMismatch (by decide) ⟨rfl, hn⟩

section
variable {s : State} (hc : s.cfg.wf = true)
include hc

/-- ENCRYPT completes in a row (R101, R102). -/
theorem encrypt_completesInRow : ∃ t, exec .encrypt s = .next t ∧ s.CompletesInRow .encrypt t := by
  obtain ⟨t, ht, h⟩ := encryptCompletesInEveryCase s hc
  refine ⟨t, ht, completesInRow_of_cbcCases (by decide) h ?_⟩
  rintro ⟨c, sent, -, -, hcommitted⟩
  exact hcommitted.completesInRow

/-- DECRYPT completes in a row (R101, R102). -/
theorem decrypt_completesInRow : ∃ t, exec .decrypt s = .next t ∧ s.CompletesInRow .decrypt t := by
  obtain ⟨t, ht, h⟩ := decryptCompletesInEveryCase s hc
  refine ⟨t, ht, completesInRow_of_cbcCases (by decide) h ?_⟩
  rintro ⟨p, sent, -, -, hcommitted⟩
  exact hcommitted.completesInRow

/-- ENCRYPT_PADDED completes in a row; its padded data is never misaligned (R101, R102). -/
theorem encryptPadded_completesInRow :
    ∃ t, exec .encryptPadded s = .next t ∧ s.CompletesInRow .encryptPadded t := by
  obtain ⟨t, ht, h⟩ := encryptPaddedCompletesInEveryCase s hc
  refine ⟨t, ht, ?_⟩
  dsimp only at h
  split_ifs at h
  · exact h.completesInRow_inLenRange
  · exact h.completesInRow .ivLen (by decide) ⟨rfl, rfl⟩
  · obtain ⟨hfault, hran⟩ := h
    refine completesInRow_of_firstFault le_rfl (by decide) hfault fun hf => ?_
    obtain ⟨p, c, sent, -, -, -, -, hcommitted⟩ := hran hf
    exact hcommitted.completesInRow
  · exact h.completesInRow .keySize (by decide) ⟨rfl, rfl⟩

/-- DECRYPT_PADDED completes in a row: of DECRYPT's or, once the data is decrypted, of UNPAD's (R101, R102). -/
theorem decryptPadded_completesInRow :
    ∃ t, exec .decryptPadded s = .next t ∧ s.CompletesInRow .decryptPadded t := by
  obtain ⟨t, ht, h⟩ := decryptPaddedCompletesInEveryCase s hc
  refine ⟨t, ht, completesInRow_of_cbcCases (by decide) h ?_⟩
  rintro ⟨q, sent, hplain, -, hunpad⟩
  have hlen : q.length = s.inLen.toNat := hplain.length.trans (inData_length s)
  dsimp only at hunpad
  split_ifs at hunpad with hempty
  · have hinLen : 0#32 = s.inLen := by rw [← wordOf_toNat s.inLen, ← hlen, hempty]
    exact hunpad.completesInRow .unpadLen (by decide) ⟨hinLen, rfl⟩
  · exact hunpad.completesInRow .padLenValue (by decide) ⟨rfl, rfl⟩
  · exact hunpad.completesInRow
  · exact hunpad.completesInRow .padByteMismatch (by decide) ⟨rfl, rfl⟩

/-- Every command completes in a row of the table (R101). -/
theorem exec_completesInRow (i : Instr) : ∃ t, exec i s = .next t ∧ s.CompletesInRow i t := by
  cases i with
  | pad => exact pad_completesInRow s
  | unpad => exact unpad_completesInRow s
  | encrypt => exact encrypt_completesInRow hc
  | decrypt => exact decrypt_completesInRow hc
  | encryptPadded => exact encryptPadded_completesInRow hc
  | decryptPadded => exact decryptPadded_completesInRow hc

end

/-- Settles O23: the codes as listed, ILLEGAL_CMD for a word that does not decode, and a row of the table for every case
of every command. -/
theorem errorRecordsFollowTheTable : Obligations.ErrorRecordsFollowTheTable := by
  refine ⟨rfl, fun s e hb he => ⟨_, sequencerTurn_illegal hb he, rfl, rfl, rfl, rfl, rfl⟩, fun i s hc => ?_⟩
  obtain ⟨t, ht, hrow⟩ := exec_completesInRow hc i
  exact ⟨t, ht, hrow.inTable, hrow.cause, hrow.stage, hrow.info⟩

end Sys2Proof.Machine

/-! ## Reset, hazards and the end of a run (70_reset_and_hazards.md)

What a command depends on, what the host sees while one runs, the log of a run, and what reset and an idle PCU do. -/

/-! ### No command reads OUT (70_reset_and_hazards.md R127) -/

namespace Sys2Proof.Machine

section
variable {s : State} (hc : s.cfg.wf = true) {m : Memory} (hm : sameOutside s.cfg .output s.mem m)
include hc hm

/-- The buffers share no byte, so a read of KEY, IV or IN does not see the bytes of OUT (20_memory.md R43). -/
theorem readBytes_sameOutside_output {b : Buffer} (hb : b ≠ .output) {n : Nat} (hn : n ≤ bufCap s.cfg b) :
    ({ s with mem := m } : State).readBytes b n = s.readBytes b n := by
  refine List.map_congr_left fun k hk => ?_
  have hin := inBuffer_start s.cfg b ((List.mem_range.1 hk).trans_le hn)
  have hout : inBuffer s.cfg .output (bufStart b + k) = false :=
    Bool.eq_false_iff.2 fun h => hb (inBuffer_inj hc hin h)
  rw [State.readByte, State.readByte, hm _ hout]

/-- The snapshot holds bytes of KEY, IV and IN only (10_state.md R39). -/
theorem snapshot_sameOutside_output : ({ s with mem := m } : State).snapshot = s.snapshot := by
  have hdata := readBytes_sameOutside_output hc hm (b := .input) (by decide)
    (Nat.min_le_right s.inLen.toNat s.cfg.bufMax)
  have hkey := readBytes_sameOutside_output hc hm (b := .key) (by decide) le_rfl
  have hiv := readBytes_sameOutside_output hc hm (b := .iv) (by decide) le_rfl
  simp only [bufCap] at hkey hiv
  simp only [State.snapshot, hdata, hkey, hiv]

/-- A command's result and requests do not depend on OUT. -/
theorem runBody_sameOutside_output (body : Body) : runBody body { s with mem := m } = runBody body s := by
  simp only [runBody, snapshot_sameOutside_output hc hm]

end

/-- A completion writes no register that depends on memory (60_exceptions.md R103, R104). -/
theorem complete_withMem (s : State) (m : Memory) (res : CmdResult) (sent : List Request) :
    ({ s with mem := m } : State).complete res sent =
      { s.complete res sent with mem := (({ s with mem := m } : State).complete res sent).mem } := by
  cases res <;> rfl

/-- The bytes a completion commits are those of its result, whatever the state before it (60_exceptions.md R104). -/
theorem memGet_complete_covered {s u : State} {res : CmdResult} {sent : List Request} {k : Nat}
    (hk : k < (s.complete res sent).outLen.toNat) :
    memGet (u.complete res sent).mem (bufStart .output + k) =
      memGet (s.complete res sent).mem (bufStart .output + k) := by
  cases res with
  | ok r =>
    have hk' : k < r.length := hk.trans_le (Nat.mod_le ..)
    rw [(committed_complete u r sent).out k hk', (committed_complete s r sent).out k hk']
  | error e => exact absurd hk (Nat.not_lt_zero _)

/-- Settles O21: no snapshot holds a byte of OUT, so the two completions have one result. -/
theorem commandsNeverReadOut : Obligations.CommandsNeverReadOut := by
  intro i s m hc hm
  have hrun := runBody_sameOutside_output hc hm (bodyOf i)
  refine ⟨_, _, exec_of_run rfl rfl, exec_of_run (congrArg (·.1) hrun) (congrArg (·.2.sent) hrun),
    complete_withMem .., fun k hk => memGet_complete_covered hk, fun k hk => ?_⟩
  refine (complete_kept (s := { s with mem := m }) hc (runBody_fits i (s := s) hc) _).memory _ fun ⟨_, hlt⟩ => ?_
  rw [complete_withMem] at hlt
  exact absurd (Nat.lt_of_add_lt_add_left hlt) (Nat.not_lt.2 hk)

end Sys2Proof.Machine

/-! ### While a command runs (70_reset_and_hazards.md R125, R126) -/

namespace Sys2Proof.Machine

/-- A STATUS that is BUSY, not DONE and in the row without an error varies in ACCESS_ERR only (10_state.md R19,
60_exceptions.md R101). -/
theorem Status.eq_of_busy {st : Status} (hbusy : st.busy = true) (hdone : st.done = false)
    (hcause : st.cause = .success) (hrow : st.inTable) :
    st = ⟨true, false, .noError, .interface, .success, st.accessErr⟩ := by
  obtain ⟨hkind, hstage⟩ := hrow
  rw [hcause] at hkind hstage
  obtain ⟨busy, done, kind, stage, cause, accessErr⟩ := st
  simp only [List.mem_singleton, Cause.row] at hbusy hdone hcause hkind hstage
  rw [hbusy, hdone, hcause, hkind, hstage]

/-- While BUSY the result fields of STATUS and the info registers read 0 (R126). -/
theorem State.Inv.results_zero_of_busy {s : State} (h : s.Inv) (hb : s.status.busy = true) :
    s.status.word &&& 0x7FFFFFFE#32 = 0#32 ∧ s.errInfo0 = 0#32 ∧ s.errInfo1 = 0#32 := by
  refine ⟨?_, h.infoClear (h.busyReadsClear hb)⟩
  rw [Status.eq_of_busy hb (h.notBusyAndDone hb) (h.busyReadsClear hb) h.row]
  cases s.status.accessErr <;> decide

/-- While BUSY only a completion or a reset ends the command or writes OUT_LEN or memory (R125). -/
theorem StepEffect.frame_of_busy {s t : State} (h : StepEffect s t) (hb : s.status.busy = true)
    (hseq : s.nextTurn ≠ .sequencer) (hreset : s.nextTurn ≠ .reset) :
    t.status.busy = true ∧ t.outLen = s.outLen ∧ t.mem = s.mem := by
  cases h with
  | nothing | dropped | worked => exact ⟨hb, rfl, rfl⟩
  | started _ hi | statusWritten _ hi | operandsWritten _ hi => exact absurd (hb.symm.trans hi) (by decide)
  | completed hn => exact absurd hn hseq
  | reset hn => exact absurd hn hreset

/-- Settles O54: a host or work turn while BUSY leaves BUSY, OUT_LEN and memory, and the invariant holds again after it,
which gives the zeros. -/
theorem nothingPartialIsVisibleWhileBusy : Obligations.NothingPartialIsVisibleWhileBusy := by
  intro s t h hb hn hstep
  have hturn : s.nextTurn ≠ .sequencer ∧ s.nextTurn ≠ .reset := by rcases hn with hn | hn <;> simp [hn]
  obtain ⟨htb, hout, hmem⟩ := (step_effect hstep).2.frame_of_busy hb hturn.1 hturn.2
  exact ⟨htb, hout, hmem, (everyStepKeepsTheInvariant s t h hstep).results_zero_of_busy htb⟩

end Sys2Proof.Machine

/-! ### The end of a run (70_reset_and_hazards.md R131) -/

namespace Sys2Proof.Machine

/-- While BUSY, the log shows no STATUS read with BUSY = 0 since the last start (R131). -/
def State.UnpolledWhileBusy (s : State) : Prop :=
  s.status.busy = true → polledSinceStart s.cfg s.events = false

/-- A command start begins a run that no poll has ended yet (R131). -/
theorem polledSinceStart_start (c : Config) (n : Nat) (v : Word) (es : List Event) :
    polledSinceStart c (.bus (.write (regAddr c .cmd) n v) .written :: es) = false := if_pos rfl

/-- Of the events only a STATUS read with BUSY = 0 ends a run (R131). -/
theorem polledSinceStart_cons_of_not_poll {c : Config} {a : Access} {o : BusOutcome} {es : List Event}
    (h : polledSinceStart c es = false)
    (hpoll : ∀ n v, a = .read (regAddr c .status) n → o = .value v → v.getLsbD 0 = true) :
    polledSinceStart c (.bus a o :: es) = false := by
  cases a with
  | write addr n w =>
    cases o with
    | written => exact ite_eq_left_iff.2 fun _ => h
    | value | busError | outside => exact h
  | read addr n =>
    cases o with
    | value v =>
      refine (if_neg fun ⟨haddr, hbusy⟩ => ?_).trans h
      exact absurd (hbusy.symm.trans (hpoll n v (by rw [haddr]) rfl)) Bool.false_ne_true
    | written | busError | outside => exact h

section
variable {s : State} (h : s.UnpolledWhileBusy)
include h

/-- A read leaves BUSY, and a read of STATUS returns it (10_state.md R17). -/
theorem unpolledWhileBusy_busRead {addr off : Nat} (ha : addr = s.cfg.base + off) (n : Nat) :
    ((s.busRead off n).2.logEvent (.bus (.read addr n) (s.busRead off n).1)).UnpolledWhileBusy := by
  rcases busRead_cases s off n with ⟨-, e⟩ | ⟨-, e⟩ <;> rw [e] <;> intro hb
  · exact polledSinceStart_cons_of_not_poll (h hb) (by simp)
  · refine polledSinceStart_cons_of_not_poll (h hb) fun n' v hread hv => ?_
    obtain ⟨haddr, -⟩ := Access.read.inj hread
    obtain rfl : off = regOffset .status := Nat.add_left_cancel (ha.symm.trans haddr)
    rw [readValue_reg] at hv
    rw [← BusOutcome.value.inj hv]
    exact s.status.word_getLsbD_zero.trans hb

/-- A write is no poll, and one that sets BUSY is a start (10_state.md R18). -/
theorem unpolledWhileBusy_busWrite {addr off : Nat} (ha : addr = s.cfg.base + off) (n : Nat) (v : Word) :
    ((s.busWrite off n v).2.logEvent (.bus (.write addr n v) (s.busWrite off n v).1)).UnpolledWhileBusy := by
  rcases busWrite_effect s off n v with ⟨-, e⟩ | ⟨-, -, e⟩ | ⟨-, rfl, -, e⟩ | ⟨hi, -, -, e⟩ |
    ⟨hi, -, _, _, _, _, _, e, -⟩ <;> rw [e] <;> intro hb
  · exact polledSinceStart_cons_of_not_poll (h hb) nofun
  · exact polledSinceStart_cons_of_not_poll (h hb) nofun
  · rw [ha]
    exact polledSinceStart_start ..
  · rw [Status.hostWrite_eq] at hb
    exact absurd (hi.symm.trans hb) (by decide)
  · exact absurd (hi.symm.trans hb) (by decide)

/-- An access keeps it, with the access in the log. -/
theorem unpolledWhileBusy_busAccess {a : Access} {off : Nat} (ha : a.addr = s.cfg.base + off) :
    ((s.busAccess a off).2.logEvent (.bus a (s.busAccess a off).1)).UnpolledWhileBusy := by
  cases a with
  | read addr n => exact unpolledWhileBusy_busRead h ha n
  | write addr n v => exact unpolledWhileBusy_busWrite h ha n v

/-- The host's turn keeps it: nothing, an access that misses the PCU, or one that reaches it. -/
theorem unpolledWhileBusy_hostTurn {t : State} (ht : hostTurn s = .next t) : t.UnpolledWhileBusy := by
  rcases hostTurn_next ht with ⟨-, rfl⟩ | ⟨a, l, rfl⟩ | ⟨a, -, -, off, -, -, -, ha, l, rfl⟩
  · exact h
  · exact fun hb => polledSinceStart_cons_of_not_poll (h hb) (by simp)
  · exact unpolledWhileBusy_busAccess (s := { s with host := l }) h ha

/-- Every step keeps it: beside the host's turn, a step adds nothing to the log or leaves BUSY 0. -/
theorem unpolledWhileBusy_step {t : State} (hstep : step s = .next t) : t.UnpolledWhileBusy := by
  obtain ⟨-, hcase⟩ := step_next hstep
  rcases hcase with ⟨-, hh⟩ | ⟨-, -, rfl⟩ | ⟨-, -, res, sent, rfl, -⟩ | ⟨-, rfl⟩ | ⟨-, rfl⟩
  · exact unpolledWhileBusy_hostTurn (s := s.popTurn) h hh
  · exact h
  · exact fun hb => absurd ((complete_status ..).1.symm.trans hb) (by decide)
  · rw [workTurn_eq]
    exact h
  · exact fun hb => absurd hb Bool.false_ne_true

end

/-- Settles O60: it holds at reset, where nothing runs, and a run that has ended contradicts it while BUSY. -/
theorem endedRunHasNoRunningCommand : Obligations.EndedRunHasNoRunningCommand := by
  refine ⟨fun hb => absurd hb Bool.false_ne_true, fun _ _ h => unpolledWhileBusy_step h, ?_⟩
  rintro s h ⟨-, hpolled⟩
  exact Bool.eq_false_iff.2 fun hb => absurd (hpolled.symm.trans (h hb)) (by decide)

end Sys2Proof.Machine

/-! ### Reset, and an idle PCU (70_reset_and_hazards.md R118 to R120) -/

namespace Sys2Proof.Machine

theorem Status.reset_word : Status.reset.word = 0#32 := by decide

/-- Settles O47: the turn's effect is a reset, and a reset writes every field of the PCU but the configuration. -/
theorem resetWinsAndAborts : Obligations.ResetWinsAndAborts := by
  intro s hc hn
  have hstep : step s = .next s.popTurn.applyReset := by
    rw [step_of_wf hc, hn]
    rfl
  exact ⟨_, hstep, rfl, rfl, Status.reset_word, rfl, rfl, rfl, rfl, rfl, rfl, rfl, memGet_nil, rfl, rfl, rfl⟩

/-- A sequencer turn of an idle PCU does nothing: *complete* is not enabled (10_state.md R18). -/
theorem sequencerTurn_idle {s : State} (hb : s.status.busy = false) : sequencerTurn s = .next s := by
  simp [sequencerTurn, hb]

/-- Settles O59: each agent's turn has nothing to do, and is taken off the list. -/
theorem idleKeepsEverything : Obligations.IdleKeepsEverything := by
  intro s hc hb hh hreset
  rw [step_of_wf hc]
  cases hn : s.nextTurn with
  | host => exact hostTurn_nil (s := s.popTurn) hh
  | sequencer => exact sequencerTurn_idle (s := s.popTurn) hb
  | work => exact congrArg Host.Outcome.next (workTurn_idle (s := s.popTurn) hb)
  | reset => exact absurd hn hreset

end Sys2Proof.Machine
